-- ==== Sys2Proof/Word.lean ====
section
/-! DEFINITION. The core's one word type, the byte, and the two fixed-size arrays it is built from:
four lines (rows) and eight lanes (keys of a line). 00_scope.md R8, R13. -/

namespace Sys2Proof

/-- Every sample, state, mask, bit plane and port of the core is one byte (R13). -/
abbrev Byte := BitVec 8

/-- A line (row) index, `0 ≤ n < LINES` (R8, R50). -/
abbrev LineIdx := Fin 4

/-- A lane (key of a line), one bit position of every byte (R13). -/
abbrev LaneIdx := Fin 8

/-- One value per line: `x[0] .. x[LINES-1]`, LINES = 4 (R8). -/
structure Quad (α : Type) where
  q0 : α
  q1 : α
  q2 : α
  q3 : α
  deriving DecidableEq, Repr

/-- One value per lane: `x[0] .. x[LANES-1]`, LANES = 8 (R8). -/
structure Octet (α : Type) where
  o0 : α
  o1 : α
  o2 : α
  o3 : α
  o4 : α
  o5 : α
  o6 : α
  o7 : α
  deriving DecidableEq, Repr

end Sys2Proof
end

