-- ==== Sys2Proof/Syntax.lean ====
section
/-! DEFINITION. The fifteen operations of 30_encoding.md R70, one constructor per row of
spec/opcode_table.json, with the agent that performs each (R7, R70). -/

namespace Sys2Proof

/-- The operation set (R70). The line operand `n` is kept as a natural number, so that an operand a
harness constructs out of range (20_memory.md R52) can be written down and is refused (log 12).
`REC` is spelled `record` because `Instr.rec` is Lean's own name. -/
inductive Instr where
  /-- `RESET` -/
  | reset
  /-- `TB` -/
  | tb
  /-- `TICK` -/
  | tick
  /-- `POLL` -/
  | poll
  /-- `GETI` -/
  | geti
  /-- `SETI v` -/
  | seti (v : Byte)
  /-- `DBC n, s` -/
  | dbc (n : Nat) (x : Byte)
  /-- `DBF n, s` -/
  | dbf (n : Nat) (x : Byte)
  /-- `SCANM` -/
  | scanm
  /-- `DRIVE n` -/
  | drive (n : Nat)
  /-- `READ` -/
  | read
  /-- `ROWT` -/
  | rowt
  /-- `EDGE v` -/
  | edge (v : Byte)
  /-- `REC` -/
  | record
  /-- `APPEND b` -/
  | append (b : Byte)
  deriving DecidableEq, Repr

/-- The agents that perform steps (R7). -/
inductive Agent where
  | main
  | timer
  | edge
  | host
  deriving DecidableEq, Repr

/-- The four formats of an encoded operation (R71). -/
inductive Format where
  | z
  | v
  | l
  | lv
  deriving DecidableEq, Repr

/-- The agent column of R70. -/
def Instr.agent : Instr → Agent
  | .reset => .host
  | .tb => .timer
  | .tick => .timer
  | .poll => .main
  | .geti => .host
  | .seti _ => .host
  | .dbc _ _ => .main
  | .dbf _ _ => .main
  | .scanm => .main
  | .drive _ => .main
  | .read => .main
  | .rowt => .main
  | .edge _ => .edge
  | .record => .main
  | .append _ => .main

end Sys2Proof
end

