-- ==== Sys2Proof/WellFormed.lean ====
section
/-! DEFINITION. What an operation must satisfy to be one of the core's: its line index is in range
(30_encoding.md R72, 20_memory.md R52). Every other operand value is legal (60_exceptions.md R170). -/

namespace Sys2Proof

/-- LINES = 4 (R8). -/
def lineCount : Nat := 4

/-- `0 ≤ n < LINES` for the operations that name a line; nothing for the others (R52, R72). -/
def Instr.wellFormed : Instr → Bool
  | .reset => true
  | .tb => true
  | .tick => true
  | .poll => true
  | .geti => true
  | .seti _ => true
  | .dbc n _ => decide (n < lineCount)
  | .dbf n _ => decide (n < lineCount)
  | .scanm => true
  | .drive n => decide (n < lineCount)
  | .read => true
  | .rowt => true
  | .edge _ => true
  | .record => true
  | .append _ => true

end Sys2Proof
end

