-- ==== Sys2Proof/Decode.lean ====
section
/-! DEFINITION. Encoding and decoding of operations (30_encoding.md R70 to R76): a total decoder on any
list of bytes, which refuses by name, and the encoder. The opcode table's own numbering of bits
(R71: one word, byte 0 most significant) is read by `decodeTableWord` (log 9). -/

namespace Sys2Proof

/-- Why a list of bytes is no operation. -/
inductive DecodeError where
  /-- Byte 0 is a value R70 does not list (R74: it names no operation). -/
  | reservedCode (op : Byte)
  /-- In formats L and LV, byte 1 has one of bits 7:2 set (R74). -/
  | reservedLineBits (lineByte : Byte)
  /-- The bytes end before the operation does; R76 fixes how many it needs (log 19). -/
  | truncated
  deriving DecidableEq, Repr

/-- The operation code of byte 0 (R70). -/
def opCode : Instr → Byte
  | .reset => 0x01
  | .tb => 0x10
  | .tick => 0x11
  | .poll => 0x12
  | .geti => 0x13
  | .seti _ => 0x14
  | .dbc _ _ => 0x20
  | .dbf _ _ => 0x21
  | .scanm => 0x30
  | .drive _ => 0x31
  | .read => 0x32
  | .rowt => 0x38
  | .edge _ => 0x39
  | .record => 0x40
  | .append _ => 0x41

/-- The format column of R70. -/
def opFormat : Instr → Format
  | .reset => .z
  | .tb => .z
  | .tick => .z
  | .poll => .z
  | .geti => .z
  | .seti _ => .v
  | .dbc _ _ => .lv
  | .dbf _ _ => .lv
  | .scanm => .z
  | .drive _ => .l
  | .read => .z
  | .rowt => .z
  | .edge _ => .v
  | .record => .z
  | .append _ => .v

/-- The length column of R71, in bytes. -/
def formatLength : Format → Nat
  | .z => 1
  | .v => 2
  | .l => 2
  | .lv => 3

/-- What follows byte 0: nothing (format Z). -/
def takeZ (i : Instr) (rest : List Byte) : Except DecodeError (Instr × List Byte) :=
  .ok (i, rest)

/-- Format V: byte 1 is `v[7:0]` (R71). -/
def takeV (mk : Byte → Instr) : List Byte → Except DecodeError (Instr × List Byte)
  | [] => .error .truncated
  | v :: rest => .ok (mk v, rest)

/-- The line byte of formats L and LV: bits 7:2 must be 0, bits 1:0 are `n` (R71, R74). -/
def lineField (b : Byte) : Except DecodeError Nat :=
  if b.extractLsb' 2 6 = 0 then .ok (b.extractLsb' 0 2).toNat else .error (.reservedLineBits b)

/-- Format L: byte 1 is the line byte. -/
def takeL (mk : Nat → Instr) : List Byte → Except DecodeError (Instr × List Byte)
  | [] => .error .truncated
  | b :: rest =>
    match lineField b with
    | .error e => .error e
    | .ok n => .ok (mk n, rest)

/-- Format LV: byte 1 is the line byte, byte 2 is `s[7:0]`. -/
def takeLV (mk : Nat → Byte → Instr) : List Byte → Except DecodeError (Instr × List Byte)
  | [] => .error .truncated
  | b :: rest =>
    match lineField b with
    | .error e => .error e
    | .ok n =>
      match rest with
      | [] => .error .truncated
      | x :: rest' => .ok (mk n x, rest')

/-- The decoder: byte 0 alone decides the operation and its length (R76); every value of byte 0 that
R70 does not list is refused (R74). The answer holds the bytes after the operation. -/
def decode : List Byte → Except DecodeError (Instr × List Byte)
  | [] => .error .truncated
  | op :: rest =>
    match op.toNat with
    | 0x01 => takeZ .reset rest
    | 0x10 => takeZ .tb rest
    | 0x11 => takeZ .tick rest
    | 0x12 => takeZ .poll rest
    | 0x13 => takeZ .geti rest
    | 0x14 => takeV .seti rest
    | 0x20 => takeLV .dbc rest
    | 0x21 => takeLV .dbf rest
    | 0x30 => takeZ .scanm rest
    | 0x31 => takeL .drive rest
    | 0x32 => takeZ .read rest
    | 0x38 => takeZ .rowt rest
    | 0x39 => takeV .edge rest
    | 0x40 => takeZ .record rest
    | 0x41 => takeV .append rest
    | _ => .error (.reservedCode op)

/-- The operand bytes of an operation (R71, R72): nothing for Z, the value byte for V, the line byte for
L, the line byte and the sample for LV. -/
def operandBytes : Instr → List Byte
  | .reset => []
  | .tb => []
  | .tick => []
  | .poll => []
  | .geti => []
  | .seti v => [v]
  | .dbc n x => [BitVec.ofNat 8 n, x]
  | .dbf n x => [BitVec.ofNat 8 n, x]
  | .scanm => []
  | .drive n => [BitVec.ofNat 8 n]
  | .read => []
  | .rowt => []
  | .edge v => [v]
  | .record => []
  | .append b => [b]

/-- The encoder: byte 0 first (R71). For a well-formed operation the line byte is the index itself. -/
def encode (i : Instr) : List Byte :=
  opCode i :: operandBytes i

/-- The longest encoding, 3 bytes (R71). -/
def maxLength : Nat := 3

/-- The bytes of a table word of `k` bytes, byte 0 most significant (R71). -/
def tableBytes : Nat → Nat → List Byte
  | 0, _ => []
  | k + 1, w => BitVec.ofNat 8 (w / 2 ^ (8 * k)) :: tableBytes k w

/-- The bytes of a word of `nbits` bits of the opcode table, followed by zero bytes up to the longest
operation. -/
def wordBytes (nbits w : Nat) : List Byte :=
  let bs := tableBytes (nbits / 8) w
  bs ++ List.replicate (maxLength - bs.length) 0

/-- What the decoder reads from a word of spec/opcode_table.json. -/
def decodeTableWord (nbits w : Nat) : Option Instr :=
  match decode (wordBytes nbits w) with
  | .ok (i, _) => some i
  | .error _ => none

/-- A row of spec/opcode_table.json: the word's length in bits, and the `match` and `mask` integers over
that word (R71). -/
structure OpcodeRow where
  mnemonic : String
  nbits : Nat
  matchWord : Nat
  mask : Nat
  deriving DecidableEq, Repr

/-- The fifteen rows of spec/opcode_table.json. -/
def opcodeTable : List OpcodeRow :=
  [⟨"RESET", 8, 0x01, 0xFF⟩, ⟨"TB", 8, 0x10, 0xFF⟩, ⟨"TICK", 8, 0x11, 0xFF⟩, ⟨"POLL", 8, 0x12, 0xFF⟩,
   ⟨"GETI", 8, 0x13, 0xFF⟩, ⟨"SETI", 16, 0x1400, 0xFF00⟩, ⟨"DBC", 24, 0x200000, 0xFFFC00⟩,
   ⟨"DBF", 24, 0x210000, 0xFFFC00⟩] ++
  [⟨"SCANM", 8, 0x30, 0xFF⟩, ⟨"DRIVE", 16, 0x3100, 0xFFFC⟩, ⟨"READ", 8, 0x32, 0xFF⟩,
   ⟨"ROWT", 8, 0x38, 0xFF⟩, ⟨"EDGE", 16, 0x3900, 0xFF00⟩, ⟨"REC", 8, 0x40, 0xFF⟩,
   ⟨"APPEND", 16, 0x4100, 0xFF00⟩]

/-- An operation matches a row when `word & mask = match` (R71). -/
def rowMatches (r : OpcodeRow) (w : Nat) : Bool :=
  w &&& r.mask == r.matchWord

/-- The mnemonic column of R70. -/
def mnemonicOf : Instr → String
  | .reset => "RESET"
  | .tb => "TB"
  | .tick => "TICK"
  | .poll => "POLL"
  | .geti => "GETI"
  | .seti _ => "SETI"
  | .dbc _ _ => "DBC"
  | .dbf _ _ => "DBF"
  | .scanm => "SCANM"
  | .drive _ => "DRIVE"
  | .read => "READ"
  | .rowt => "ROWT"
  | .edge _ => "EDGE"
  | .record => "REC"
  | .append _ => "APPEND"

end Sys2Proof
end

