-- ==== Sys2Proof/Machine/Bits.lean ====
section
/-! DEFINITION. Lane-wise notation (00_scope.md R13, R14): reading and building a byte lane by lane, and
reading, building and changing the four-line and eight-lane arrays. -/

namespace Sys2Proof

/-- `v[i]`, bit `i` of `v`, which belongs to lane `i` (R13). -/
def lane (v : Byte) (i : LaneIdx) : Bool :=
  v.getLsbD i.val

/-- The byte whose lane `i` is `f i` (R14: every lane is computed on its own). -/
def ofLanes (f : LaneIdx → Bool) : Byte :=
  BitVec.ofBoolListLE [f 0, f 1, f 2, f 3, f 4, f 5, f 6, f 7]

/-- `x[n]` for one of the four lines. -/
def Quad.get {α : Type} (q : Quad α) : LineIdx → α
  | 0 => q.q0
  | 1 => q.q1
  | 2 => q.q2
  | 3 => q.q3

/-- The array whose entry `n` is `f n`. -/
def Quad.ofFn {α : Type} (f : LineIdx → α) : Quad α :=
  ⟨f 0, f 1, f 2, f 3⟩

/-- `x[n] <- v`. -/
def Quad.set {α : Type} (q : Quad α) (n : LineIdx) (v : α) : Quad α :=
  match n with
  | 0 => { q with q0 := v }
  | 1 => { q with q1 := v }
  | 2 => { q with q2 := v }
  | 3 => { q with q3 := v }

/-- The four entries, line 0 first (R51(b)). -/
def Quad.toList {α : Type} (q : Quad α) : List α :=
  [q.q0, q.q1, q.q2, q.q3]

/-- `x[i]` for one of the eight lanes. -/
def Octet.get {α : Type} (o : Octet α) : LaneIdx → α
  | 0 => o.o0
  | 1 => o.o1
  | 2 => o.o2
  | 3 => o.o3
  | 4 => o.o4
  | 5 => o.o5
  | 6 => o.o6
  | 7 => o.o7

/-- The array whose entry `i` is `f i`. -/
def Octet.ofFn {α : Type} (f : LaneIdx → α) : Octet α :=
  ⟨f 0, f 1, f 2, f 3, f 4, f 5, f 6, f 7⟩

/-- The eight entries, lane 0 first. -/
def Octet.toList {α : Type} (o : Octet α) : List α :=
  [o.o0, o.o1, o.o2, o.o3, o.o4, o.o5, o.o6, o.o7]

end Sys2Proof
end

