-- ==== Sys2Proof/Config.lean ====
section
/-! DEFINITION. The build-time configuration record `cfg` (00_scope.md R8 to R11), the names of its
nine validity checks (R12), and the free values: what the PIN agent answers and which agent acts next
where nothing fixes it (20_memory.md R61, R64). -/

namespace Sys2Proof

/-- `ENGINE`, the debounce strategy of the build (R8). -/
inductive Engine where
  | counter
  | fsm
  deriving DecidableEq, Repr

/-- `SCANNER`, the scanner of the build (R8). -/
inductive Scanner where
  | matrix
  | rowirq
  deriving DecidableEq, Repr

/-- `BAD_STAGES`, 1 or 2 (R9). -/
inductive BadStages where
  | one
  | two
  deriving DecidableEq, Repr

/-- The configuration record, one field per parameter, named as R8 to R11 name it. LINES = 4 and
LANES = 8 are fixed (R8) and stand in the types `Quad` and `Octet`. -/
structure Cfg where
  /-- `ENGINE` (R8) -/
  engine : Engine
  /-- `SCANNER` (R8) -/
  scanner : Scanner
  /-- `RESHUFFLE` (R8) -/
  reshuffle : Bool
  /-- `D`, the normal delay (R9) -/
  d : Nat
  /-- `D_BAD`, the bad-release delay (R9) -/
  dBad : Nat
  /-- `BAD_STAGES` (R9) -/
  badStages : BadStages
  /-- `T1`, the short bad threshold (R9) -/
  t1 : Nat
  /-- `T2`, the second threshold of the two-stage variant (R9) -/
  t2 : Nat
  /-- `LOCKED_ON_PERIOD` (R10) -/
  lockedOnPeriod : Nat
  /-- `KEY_ON_CHATTER_WINDOW` (R10) -/
  keyOnChatterWindow : Nat
  /-- `TURNING_OFF_CHATTER_WINDOW` (R10) -/
  turningOffChatterWindow : Nat
  /-- `LOCKED_OFF_PERIOD` (R10) -/
  lockedOffPeriod : Nat
  /-- `MULT_STEP`, the chatter multiplier step (R10) -/
  multStep : Nat
  /-- `MULT_MAX`, where the multiplier saturates (R10) -/
  multMax : Nat
  /-- `W_CNT`, width of `cycles` and `countdown` (R10) -/
  wCnt : Nat
  /-- `W_MULT`, width of `mult` (R10) -/
  wMult : Nat
  /-- `READS`, reads of the columns per line per pass (R11) -/
  reads : Nat
  /-- `PASSES`, passes per scanner invocation (R11) -/
  passes : Nat
  /-- `INTERVAL_RESET`, the scan interval after reset (R11) -/
  intervalReset : Nat
  deriving DecidableEq, Repr

/-- The names of the validity checks of R12. -/
inductive CfgCode where
  | cfg1
  | cfg2
  | cfg3
  | cfg4
  | cfg5
  | cfg6
  | cfg7
  | cfg8
  | cfg9
  deriving DecidableEq, Repr

/-- The operations that are started from outside the core, by the agents of R7: what some agent may do
next when no trace says it (R61(a)). -/
inductive AgentStep where
  | reset
  | tb
  | tick
  | poll
  | geti
  | seti (v : Byte)
  | edge (v : Byte)
  deriving DecidableEq, Repr, Inhabited

/-- FREE VALUE (log 5). The PIN agent's k-th answer to a `PinRead` for which `State.env.pins` lists no
answer. "The value returned is chosen by the PIN agent and is unconstrained" (R17, R64). -/
opaque Config.pinAnswer : Nat → Byte

/-- FREE VALUE (log 4). The k-th choice of which agent acts, and how, when `State.env.trace` lists no
operation. "The order in which steps of different agents are taken is not fixed" (R61(a)). -/
opaque Config.agentStep : Nat → AgentStep

end Sys2Proof
end

