-- ==== Sys2Proof/Machine/Validate.lean ====
section
/-! DEFINITION. Configuration validation (00_scope.md R12, 60_exceptions.md R171): the checks CFG1 to CFG9,
each naming itself when it fails. -/

namespace Sys2Proof

/-- `bitlen(v)`: the least `w` with `v < 2^w` (R9). -/
def bitlen (v : Nat) : Nat :=
  if v = 0 then 0 else Nat.log2 v + 1

/-- `N`, the number of counter bit planes: `bitlen(max(D, D_BAD))` (R9). -/
def Cfg.planes (c : Cfg) : Nat :=
  bitlen (max c.d c.dBad)

/-- The longest of the four windows of the finite-state engine (R12, CFG6). -/
def Cfg.longestWindow (c : Cfg) : Nat :=
  max (max c.lockedOnPeriod c.keyOnChatterWindow) (max c.turningOffChatterWindow c.lockedOffPeriod)

/-- CFG6, for a finite-state build: windows and step at least 1, the multiplier's bounds, and no countdown
overflowing its storage width (R12). -/
def Cfg.fsmOk (c : Cfg) : Bool :=
  decide (1 ≤ c.lockedOnPeriod) && decide (1 ≤ c.keyOnChatterWindow) &&
  decide (1 ≤ c.turningOffChatterWindow) && decide (1 ≤ c.lockedOffPeriod) &&
  decide (1 ≤ c.multStep) && decide (1 + c.multStep ≤ c.multMax) &&
  decide (c.multMax < 2 ^ c.wMult) && decide (c.longestWindow * c.multMax < 2 ^ c.wCnt)

/-- One check of R12. -/
def Cfg.passes? (c : Cfg) : CfgCode → Bool
  | .cfg1 => decide (1 ≤ c.d)
  | .cfg2 => decide (c.d < c.dBad)
  | .cfg3 => decide (c.dBad < 2 ^ c.planes) && decide (c.d < 2 ^ c.planes)
  | .cfg4 => decide (c.t1 < c.d) && decide (c.t1 < 2 ^ c.planes)
  | .cfg5 =>
    match c.badStages with
    | .one => true
    | .two => decide (c.t1 < c.t2) && decide (c.t2 < c.d)
  | .cfg6 =>
    match c.engine with
    | .counter => true
    | .fsm => c.fsmOk
  | .cfg7 =>
    match c.scanner with
    | .rowirq => true
    | .matrix => decide (1 ≤ c.reads) && decide (1 ≤ c.passes) && decide (c.reads * c.passes % 2 = 1)
  | .cfg8 => decide (c.intervalReset < 2 ^ 8)
  | .cfg9 => true  -- LINES = 4 and LANES = 8 hold in every build of this model (`Quad`, `Octet`)

/-- The checks of R12 in order. -/
def cfgCodes : List CfgCode :=
  [.cfg1, .cfg2, .cfg3, .cfg4, .cfg5, .cfg6, .cfg7, .cfg8, .cfg9]

/-- The codes of the checks that fail: "a failing check names itself" (R171). -/
def Cfg.failures (c : Cfg) : List CfgCode :=
  cfgCodes.filter (fun k => !c.passes? k)

/-- A configuration is valid when all checks hold (R12). -/
def Cfg.valid (c : Cfg) : Bool :=
  c.failures.isEmpty

end Sys2Proof
end

