-- ==== Sys2Proof/Machine/State.lean ====
section
/-! DEFINITION. The state of the core (10_state.md R20 to R36), the model's own environment fields, the two
closed types of reasons to stop, and the state after reset (R39, R190). -/

namespace Sys2Proof.Machine

/-- The phases of the finite-state engine, a six-constructor type (R26, R78). -/
inductive Phase where
  | off
  | turningOn
  | lockedOn
  | on
  | turningOff
  | lockedOff
  deriving DecidableEq, Repr

/-- The record of one key of the finite-state engine (R25 to R28). The widths W_CNT and W_MULT are
parameters; that the three numbers fit them is the invariant `KeysInRange` of Safety.lean. -/
structure Key where
  phase : Phase
  cycles : Nat
  countdown : Nat
  mult : Nat
  deriving DecidableEq, Repr

/-- DebounceState of one line, `db[n]` (R21 to R25). -/
structure Line where
  /-- the last accepted stable StateVector (R21) -/
  state : Byte
  /-- the ChangeMask of the most recent debounce call (R21) -/
  last : Byte
  /-- stage plane 0 (R24) -/
  stg0 : Byte
  /-- stage plane 1 (R24) -/
  stg1 : Byte
  /-- counter bit planes, plane 0 first; N of them (R23) -/
  cnt : List Byte
  /-- the eight key records (R25) -/
  keys : Octet Key
  deriving DecidableEq, Repr

/-- The world outside the core, and the core's outputs that are no state element of R36. -/
structure Env where
  /-- the encoded operations still to be performed, first byte first (R71, R81; log 4) -/
  trace : List Byte
  /-- the PIN agent's next answers, in the order they are consumed (R82; log 5) -/
  pins : List Byte
  /-- how many free PIN answers have been consumed (log 5) -/
  pinCount : Nat
  /-- how many free agent choices have been made (log 4) -/
  agentCount : Nat
  /-- the result of the last operation (R72, R82; log 6) -/
  result : Option Byte
  /-- the `chgd` output of the last operation (R145; log 6) -/
  chgd : Option Bool
  deriving DecidableEq, Repr

/-- A configuration that passes CFG1 to CFG9; an invalid one cannot be built into a machine (R12, log 1). -/
structure ValidCfg extends Cfg where
  isValid : toCfg.valid = true
  deriving DecidableEq, Repr

/-- The state (R20, R36). `cfg` is the build, a parameter that no step writes (R40(a), log 1). An element
that the build does not have is present and keeps its reset value (log 3). -/
structure State where
  cfg : ValidCfg
  /-- `db[0..3]` (R21) -/
  db : Quad Line
  /-- `pending` (R33) -/
  pending : Bool
  /-- `scan_interval` (R33) -/
  scanInterval : Byte
  /-- `timer_cnt` (R33) -/
  timerCnt : Byte
  /-- `gie` (R34) -/
  gie : Bool
  /-- `drive_sel` (R35) -/
  driveSel : LineIdx
  /-- `stability` (R31) -/
  stability : Byte
  /-- `cur_row` (R32) -/
  curRow : LineIdx
  /-- `row_buf[0..3]` (R32) -/
  rowBuf : Quad Byte
  /-- `last_sample` (R32) -/
  lastSample : Byte
  /-- `change_flag` (R32) -/
  changeFlag : Bool
  /-- `edge_en` (R34) -/
  edgeEn : Bool
  /-- `ring_out`, oldest byte first (R35) -/
  ringOut : List Byte
  env : Env
  deriving DecidableEq, Repr

/-- Why the machine stops with a fault: never. "The core raises no synchronous exception at run time" (R170),
and "No behaviour is treated as fault or stuck" (93_implementation_defined.md). Nobody raises one: the type
has no constructor, so no claim can rest on one (safe, log 22). -/
inductive Fault where
  deriving DecidableEq, Repr

/-- Why the machine gives an input no behaviour (R16 `refuse`, 93_implementation_defined.md). -/
inductive Refusal where
  /-- raised by `exec` for an instruction that has no meaning yet; none is left. Safe: it stops. -/
  | notModelled (mnemonic : String)
  /-- raised by `boot` for a configuration that fails the named checks (R12, R171, U5). Safe: it stops. -/
  | invalidConfig (codes : List CfgCode)
  /-- raised by `step` for bytes that are no operation (R74, U6; a trace that ends too early: log 19).
  Safe: it stops. -/
  | undecodable (reason : DecodeError)
  /-- raised by `DBC`, `DBF`, `SCANM`, `DRIVE`, `READ`, `ROWT`, `EDGE` in a build that lacks their component
  (R75, U7). Safe: it stops. -/
  | notInBuild
  /-- raised by `DBC`, `DBF`, `DRIVE` for `n ≥ LINES` (R52, U8). Safe: it stops. -/
  | lineOutOfRange
  /-- raised by `DBF`, `SCANM`, `ROWT`, `POLL` in a finite-state build when a key record they would advance is
  outside the bounds of R28 and R120 (U13, log 13); `step` never leads there from reset. Safe: it stops. -/
  | keyOutOfRange
  deriving DecidableEq, Repr

/-- Reset value of a key record: OFF, 0, 0, and multiplier 1 (R39). -/
def Key.initial : Key :=
  { phase := .off, cycles := 0, countdown := 0, mult := 1 }

/-- Reset value of a DebounceState: all zero / OFF (R39). -/
def Line.initial (c : Cfg) : Line :=
  { state := 0, last := 0, stg0 := 0, stg1 := 0
    cnt := List.replicate c.planes 0
    keys := Octet.ofFn (fun _ => Key.initial) }

/-- The environment with nothing scheduled, no PIN answer listed and nothing reported. -/
def Env.initial : Env :=
  { trace := [], pins := [], pinCount := 0, agentCount := 0, result := none, chgd := none }

/-- Every state element at its reset value (R39) in the build `c`, in the environment `e`. -/
def State.initial (c : ValidCfg) (e : Env) : State :=
  { cfg := c
    db := Quad.ofFn (fun _ => Line.initial c.toCfg)
    pending := false
    scanInterval := BitVec.ofNat 8 c.intervalReset
    timerCnt := 0
    gie := true
    driveSel := 0
    stability := 0
    curRow := 0
    rowBuf := Quad.ofFn (fun _ => 0)
    lastSample := 0
    changeFlag := false
    edgeEn := true
    ringOut := []
    env := e }

/-- The parameters of `State.reset`: REF-A for the counter engine, FS for the finite-state engine, the
defaults for the rest, and the counter engine with the matrix scanner (92_eei_decisions.md D34, log 2). -/
def refCfg : Cfg :=
  { engine := .counter, scanner := .matrix, reshuffle := false
    d := 17, dBad := 30, badStages := .one, t1 := 4, t2 := 8
    lockedOnPeriod := 2, keyOnChatterWindow := 2, turningOffChatterWindow := 2, lockedOffPeriod := 1
    multStep := 1, multMax := 4, wCnt := 8, wMult := 3
    reads := 1, passes := 1, intervalReset := 1 }

/-- `refCfg` passes CFG1 to CFG9. -/
def refBuild : ValidCfg :=
  { refCfg with isValid := by decide }

/-- The machine right after reset (R39, R190) in the reference build. Every statement about a build is made
for `State.initial c e`, with every valid `c`; this one state fixes the build (log 2). -/
def State.reset : State :=
  State.initial refBuild Env.initial

end Sys2Proof.Machine
end

