-- ==== Sys2Proof/Machine/Flags.lean ====
section
/-! DEFINITION. The flags of the core (10_state.md R30): the bad-detector stage and the bad flag (R24, R97,
R98), the stability flags (R31, R135) and the change flag (R141). -/

namespace Sys2Proof.Machine

/-- The bad detector's stage of a lane (R24, R79). -/
inductive Stage where
  | clean
  | suspect
  | armed
  | bad
  deriving DecidableEq, Repr

/-- `stage_i = 2 × stg1[i] + stg0[i]` (R24). -/
def Stage.ofBits (bit1 bit0 : Bool) : Stage :=
  match bit1, bit0 with
  | false, false => .clean
  | false, true => .suspect
  | true, false => .armed
  | true, true => .bad

/-- The stage's bit in plane `stg0` (R79). -/
def Stage.bit0 : Stage → Bool
  | .clean => false
  | .suspect => true
  | .armed => false
  | .bad => true

/-- The stage's bit in plane `stg1` (R79). -/
def Stage.bit1 : Stage → Bool
  | .clean => false
  | .suspect => false
  | .armed => true
  | .bad => true

/-- The stage of lane `i` of a line (R24). -/
def Line.stage (l : Line) (i : LaneIdx) : Stage :=
  Stage.ofBits (lane l.stg1 i) (lane l.stg0 i)

/-- `bad = stg1 & stg0` (R24). -/
def Line.bad (l : Line) : Byte :=
  l.stg1 &&& l.stg0

/-- The stage after a call, from an accepted release `rel` and the two threshold tests (R98). -/
def nextStage (variant : BadStages) (stage : Stage) (rel over1 over2 : Bool) : Stage :=
  match variant with
  | .one => if rel then .clean else if over1 then .bad else stage
  | .two =>
    if rel then
      match stage with
      | .clean => .clean
      | .suspect => .armed
      | .armed => .armed
      | .bad => .clean
    else
      match stage with
      | .clean => if over1 then .suspect else .clean
      | .suspect => .suspect
      | .armed => if over2 then .bad else .armed
      | .bad => .bad

/-- The stability flag of a line: some two of its reads differ in any bit (R135). -/
def readsDisagree (vs : List Byte) : Bool :=
  vs.any (fun a => vs.any (fun b => a != b))

/-- The register `stability`: bit `n` is line `n`'s flag, bits LINES and above are 0 (R31, R135). -/
def stabilityOf (reads : Quad (List Byte)) : Byte :=
  BitVec.ofBoolListLE
    [readsDisagree reads.q0, readsDisagree reads.q1, readsDisagree reads.q2, readsDisagree reads.q3,
     false, false, false, false]

/-- `change_flag | (v != last_sample)` (R141). -/
def nextChangeFlag (changeFlag : Bool) (lastSample v : Byte) : Bool :=
  changeFlag || v != lastSample

end Sys2Proof.Machine
end

