-- ==== Sys2Proof/Machine/Counter.lean ====
section
/-! DEFINITION. The counter debounce engine in its per-lane form, the reference (40_counter_engine.md R91 to
R99). In every definition `l` is `db[n]` before the call and `x` the RawSample. -/

namespace Sys2Proof.Machine

/-- The number read across the planes at lane `i`, plane 0 least significant (R14, R23). -/
def countAt : List Byte → LaneIdx → Nat
  | [], _ => 0
  | p :: ps, i => (lane p i).toNat + 2 * countAt ps i

/-- `k` planes holding `f i` in lane `i` (R23); bits above plane `k-1` are dropped. -/
def planesOf : Nat → (LaneIdx → Nat) → List Byte
  | 0, _ => []
  | k + 1, f => ofLanes (fun i => f i % 2 == 1) :: planesOf k (fun i => f i / 2)

/-- `cnt_i` (R14). -/
def Line.count (l : Line) (i : LaneIdx) : Nat :=
  countAt l.cnt i

/-- R91: `d_i = s[i] ^ st[i]`, a differing sample. -/
def differs (x : Byte) (l : Line) (i : LaneIdx) : Bool :=
  lane x i != lane l.state i

/-- R92: the effective count `c0_i`, zero in the call after an acceptance. -/
def effCount (l : Line) (i : LaneIdx) : Nat :=
  if lane l.last i then 0 else l.count i

/-- R93: the target delay `tgt_i`. -/
def targetDelay (c : Cfg) (l : Line) (i : LaneIdx) : Nat :=
  if l.stage i = .bad then c.dBad else c.d

/-- R94: acceptance, an exact match of the effective count with the target. -/
def accepts (c : Cfg) (x : Byte) (l : Line) (i : LaneIdx) : Bool :=
  differs x l i && effCount l i == targetDelay c l i

/-- R97: `q_i`, the sample equals the stable state and both are 1. -/
def stableActive (x : Byte) (l : Line) (i : LaneIdx) : Bool :=
  !differs x l i && lane l.state i

/-- R97: `over_i(T)`, a qualifying bounce for the threshold `T`. -/
def overThreshold (c : Cfg) (x : Byte) (l : Line) (T : Nat) (i : LaneIdx) : Bool :=
  stableActive x l i && decide (T < effCount l i) && decide (effCount l i < c.d)

/-- R98: `rel_i`, an accepted release. -/
def acceptsRelease (c : Cfg) (x : Byte) (l : Line) (i : LaneIdx) : Bool :=
  accepts c x l i && lane l.state i

/-- R98: the stage after the call. -/
def stageAfter (c : Cfg) (x : Byte) (l : Line) (i : LaneIdx) : Stage :=
  nextStage c.badStages (l.stage i) (acceptsRelease c x l i) (overThreshold c x l c.t1 i)
    (overThreshold c x l c.t2 i)

/-- R99: the count after the call, modulo `2^N`. -/
def countAfter (c : Cfg) (x : Byte) (l : Line) (i : LaneIdx) : Nat :=
  if lane l.last i then 0
  else if differs x l i then (effCount l i + 1) % 2 ^ c.planes
  else 0

/-- The ChangeMask of the call (R96). -/
def acceptMask (c : Cfg) (x : Byte) (l : Line) : Byte :=
  ofLanes (accepts c x l)

/-- `DBC` on one line: all eight lanes at once (R90, R96, R98, R99). The ChangeMask is the new `last`. -/
def counterCall (c : Cfg) (x : Byte) (l : Line) : Line :=
  { l with
    state := l.state ^^^ acceptMask c x l
    last := acceptMask c x l
    stg0 := ofLanes (fun i => (stageAfter c x l i).bit0)
    stg1 := ofLanes (fun i => (stageAfter c x l i).bit1)
    cnt := planesOf c.planes (countAfter c x l) }

end Sys2Proof.Machine
end

