-- ==== Sys2Proof/Machine/Fsm.lean ====
section
/-! DEFINITION. The per-key finite-state debounce engine (41_fsm_engine.md R111 to R120). `k` is the key's
record before the call and `x` its sample bit. -/

namespace Sys2Proof.Machine

/-- The 3-bit code of a phase, in the order the source lists the states (R78). -/
def Phase.code : Phase → BitVec 3
  | .off => 0
  | .turningOn => 1
  | .lockedOn => 2
  | .on => 3
  | .turningOff => 4
  | .lockedOff => 5

/-- The phase a 3-bit field holds; the codes 6 and 7 are no phase (R78). -/
def Phase.ofCode (w : BitVec 3) : Option Phase :=
  match w.toNat with
  | 0 => some .off
  | 1 => some .turningOn
  | 2 => some .lockedOn
  | 3 => some .on
  | 4 => some .turningOff
  | 5 => some .lockedOff
  | _ => none

/-- What a key's transition emits (R112). -/
inductive Emit where
  | nothing
  | on
  | off
  deriving DecidableEq, Repr

/-- R119: chatter flagged; the multiplier grows by MULT_STEP and saturates at MULT_MAX. -/
def bumped (c : Cfg) (mult : Nat) : Nat :=
  min (mult + c.multStep) c.multMax

/-- R120: `dec(v)`, saturating at zero. -/
def dec (v : Nat) : Nat :=
  if v = 0 then 0 else v - 1

/-- R113: phase OFF. -/
def callOff (x : Bool) (k : Key) : Key × Emit :=
  if x then ({ k with phase := .turningOn }, .nothing) else (k, .nothing)

/-- R114: phase TURNING_ON. -/
def callTurningOn (c : Cfg) (x : Bool) (k : Key) : Key × Emit :=
  if x then ({ k with phase := .lockedOn, cycles := 0 }, .on)
  else ({ k with phase := .off, mult := bumped c k.mult }, .nothing)

/-- R115: phase LOCKED_ON. -/
def callLockedOn (c : Cfg) (x : Bool) (k : Key) : Key × Emit :=
  if x then
    if k.cycles + 1 ≥ c.lockedOnPeriod * k.mult then
      ({ k with phase := .on, cycles := k.cycles + 1, countdown := c.keyOnChatterWindow * k.mult }, .nothing)
    else ({ k with cycles := k.cycles + 1 }, .nothing)
  else ({ k with cycles := 0, mult := bumped c k.mult }, .nothing)

/-- R116: phase ON. -/
def callOn (c : Cfg) (x : Bool) (k : Key) : Key × Emit :=
  if x then ({ k with countdown := c.keyOnChatterWindow * k.mult }, .nothing)
  else if dec k.countdown = 0 then
    ({ k with phase := .turningOff, countdown := c.turningOffChatterWindow * k.mult }, .nothing)
  else ({ k with countdown := dec k.countdown }, .nothing)

/-- R117: phase TURNING_OFF; the countdown is decremented unconditionally, and a 1-sample wins. -/
def callTurningOff (c : Cfg) (x : Bool) (k : Key) : Key × Emit :=
  if x then ({ k with phase := .on, countdown := dec k.countdown, mult := bumped c k.mult }, .nothing)
  else if dec k.countdown = 0 then ({ k with phase := .lockedOff, countdown := 0, cycles := 0 }, .off)
  else ({ k with countdown := dec k.countdown }, .nothing)

/-- R118: phase LOCKED_OFF. -/
def callLockedOff (c : Cfg) (x : Bool) (k : Key) : Key × Emit :=
  if x then ({ k with cycles := 0, mult := bumped c k.mult }, .nothing)
  else if k.cycles + 1 ≥ c.lockedOffPeriod * k.mult then
    ({ k with phase := .off, cycles := k.cycles + 1 }, .nothing)
  else ({ k with cycles := k.cycles + 1 }, .nothing)

/-- One call of one key: the rule of the phase it is in before the call (section 3 of 41_fsm_engine.md). -/
def keyCall (c : Cfg) (x : Bool) (k : Key) : Key × Emit :=
  match k.phase with
  | .off => callOff x k
  | .turningOn => callTurningOn c x k
  | .lockedOn => callLockedOn c x k
  | .on => callOn c x k
  | .turningOff => callTurningOff c x k
  | .lockedOff => callLockedOff c x k

/-- R112: what an emission does to the key's stable bit. -/
def Emit.stateBit (e : Emit) (old : Bool) : Bool :=
  match e with
  | .nothing => old
  | .on => true
  | .off => false

/-- R112: the key's bit of the ChangeMask. -/
def Emit.changeBit : Emit → Bool
  | .nothing => false
  | .on => true
  | .off => true

/-- `DBF` on one line: every lane on its own record and sample bit (R110, R111, R112). The ChangeMask is the
new `last`. -/
def fsmCall (c : Cfg) (x : Byte) (l : Line) : Line :=
  { l with
    state := ofLanes (fun i => (keyCall c (lane x i) (l.keys.get i)).2.stateBit (lane l.state i))
    last := ofLanes (fun i => (keyCall c (lane x i) (l.keys.get i)).2.changeBit)
    keys := Octet.ofFn (fun i => (keyCall c (lane x i) (l.keys.get i)).1) }

end Sys2Proof.Machine
end

