-- ==== Sys2Proof/Machine/Ops.lean ====
section
/-! DEFINITION. The named operations over the state that the meanings share: the three collaborator
primitives (00_scope.md R17), the reset of every element (70_reset_and_hazards.md R190), the entry into an
interrupt handler and the return from it (60_exceptions.md R173 to R178), the core's outputs, and
operations performed one after another. -/

namespace Sys2Proof.Machine

/-- What an operation answers. -/
abbrev Answer := Host.Outcome State Fault Refusal

/-- The operation is over: its result and its `chgd` output, where it has them (R72, R82, R145; log 6). -/
def State.report (s : State) (result : Option Byte) (chgd : Option Bool) : State :=
  { s with env := { s.env with result := result, chgd := chgd } }

/-- The state an operation leaves, with its outputs. -/
def finish (result : Option Byte) (chgd : Option Bool) (s : State) : Answer :=
  .next (s.report result chgd)

/-- One operation, then another from the state it leaves; a stop ends the sequence. -/
def andThen (a : Answer) (k : State → Answer) : Answer :=
  match a with
  | .next s => k s
  | .fault f => .fault f
  | .refused r => .refused r

/-- `PinDrive(n) ; drive_sel <- n` (R17, R132): line `n` is the one driven output. -/
def pinDrive (n : LineIdx) (s : State) : State :=
  { s with driveSel := n }

/-- `PinRead()` (R17): the PIN agent's next answer, and the environment that has given it. An answer listed in
`env.pins` is consumed; where none is listed the answer is a free value (R64, log 5). No element of the core
changes (R53). -/
def pinRead (s : State) : Byte × State :=
  match s.env.pins with
  | a :: rest => (a, { s with env := { s.env with pins := rest } })
  | [] => (Config.pinAnswer s.env.pinCount, { s with env := { s.env with pinCount := s.env.pinCount + 1 } })

/-- `RingAppend(b)` (R17, R161): `ring_out <- ring_out ++ [b]`. It never fails (R63). -/
def ringAppend (b : Byte) (s : State) : State :=
  { s with ringOut := s.ringOut ++ [b] }

/-- `db[n] <- l` (R15). -/
def setLine (n : LineIdx) (l : Line) (s : State) : State :=
  { s with db := s.db.set n l }

/-- Every element at its reset value, in the state's own build and environment, then `DRIVE 0` (R190). -/
def resetAll (s : State) : State :=
  pinDrive 0 (State.initial s.cfg s.env)

/-- `TICK`'s handler: `pending <- 1` (R152, R173). -/
def setPending (s : State) : State :=
  { s with pending := true }

/-- The return from a handler: "there is no return operation and nothing to restore" (R178). -/
def returnFromInterrupt (s : State) : State :=
  s

/-- Taking an interrupt. A request is delivered when its source is enabled (R173, R174); entry saves nothing
and changes no mode, there is no vector: the handler is a fixed operation on its own variables (R177), and
then MAIN goes on (R178). A masked request is not delivered here (R175, log 8). -/
def takeInterrupt (enabled : Bool) (handler : State → State) (s : State) : State :=
  if enabled then returnFromInterrupt (handler s) else s

/-- The timer source has no enable bit of its own: enabled whenever `gie = 1` (R173). -/
def timerEnabled (s : State) : Bool :=
  s.gie

/-- The edge source is enabled when `edge_en = 1` and `gie = 1` (R174). -/
def edgeEnabled (s : State) : Bool :=
  s.edgeEn && s.gie

end Sys2Proof.Machine
end

