-- ==== Sys2Proof/Machine/Operands.lean ====
section
/-! DEFINITION. What an operand and an operation must satisfy before an operation acts: the line index in
range (20_memory.md R52), the operation in the build (30_encoding.md R75), the key records inside their
bounds (10_state.md R28, 93_implementation_defined.md U13). -/

namespace Sys2Proof.Machine

/-- A line operand: `n` in range selects a line, any other is refused (R52, R72, U8). -/
def withLine (n : Nat) (k : LineIdx → Answer) : Answer :=
  if h : n < 4 then k ⟨n, h⟩ else .refused .lineOutOfRange

/-- `DBC` needs ENGINE = COUNTER (R75). -/
def needCounter (s : State) (k : Answer) : Answer :=
  match s.cfg.engine with
  | .counter => k
  | .fsm => .refused .notInBuild

/-- `DBF` needs ENGINE = FSM (R75). -/
def needFsm (s : State) (k : Answer) : Answer :=
  match s.cfg.engine with
  | .fsm => k
  | .counter => .refused .notInBuild

/-- `SCANM`, `DRIVE`, `READ` need SCANNER = MATRIX (R75). -/
def needMatrix (s : State) (k : Answer) : Answer :=
  match s.cfg.scanner with
  | .matrix => k
  | .rowirq => .refused .notInBuild

/-- `ROWT`, `EDGE` need SCANNER = ROWIRQ (R75). -/
def needRowirq (s : State) (k : Answer) : Answer :=
  match s.cfg.scanner with
  | .rowirq => k
  | .matrix => .refused .notInBuild

/-- A key record inside its bounds: `1 ≤ mult ≤ MULT_MAX` (R28), and `cycles` and `countdown` not beyond their
windows (R115, R118, R120): in a dead zone `cycles` is below the zone's window, elsewhere it holds at most a
finished one, and `countdown` is at most the longer of the two chatter windows (U13, log 13). -/
def Key.inRange (c : Cfg) (k : Key) : Bool :=
  decide (1 ≤ k.mult) && decide (k.mult ≤ c.multMax) &&
  decide (k.countdown ≤ max c.keyOnChatterWindow c.turningOffChatterWindow * k.mult) &&
  match k.phase with
  | .off => decide (k.cycles ≤ max c.lockedOnPeriod c.lockedOffPeriod * k.mult)
  | .turningOn => decide (k.cycles ≤ max c.lockedOnPeriod c.lockedOffPeriod * k.mult)
  | .lockedOn => decide (k.cycles < c.lockedOnPeriod * k.mult)
  | .on => decide (k.cycles ≤ max c.lockedOnPeriod c.lockedOffPeriod * k.mult)
  | .turningOff => decide (k.cycles ≤ max c.lockedOnPeriod c.lockedOffPeriod * k.mult)
  | .lockedOff => decide (k.cycles < c.lockedOffPeriod * k.mult)

/-- The line can be given to the build's engine: the counter engine's rules are total (U9 to U11); the
finite-state engine is given no behaviour on a record outside its bounds (U13). -/
def Line.callable (c : Cfg) (l : Line) : Bool :=
  match c.engine with
  | .counter => true
  | .fsm => l.keys.toList.all (fun k => k.inRange c)

/-- One debounce call on line `n` may go ahead (U13). -/
def needCallable (s : State) (n : LineIdx) (k : Answer) : Answer :=
  if (s.db.get n).callable s.cfg.toCfg then k else .refused .keyOutOfRange

/-- A debounce call on every line may go ahead (U13). -/
def needAllCallable (s : State) (k : Answer) : Answer :=
  if s.db.toList.all (fun l => l.callable s.cfg.toCfg) then k else .refused .keyOutOfRange

end Sys2Proof.Machine
end

