-- ==== Sys2Proof/Machine/Debounce.lean ====
section
/-! DEFINITION. The debounce operations: `DEBOUNCE n, s`, the single contract over the build's engine
(30_encoding.md R83), and the meanings of `DBC` (40_counter_engine.md R90) and `DBF` (41_fsm_engine.md R110). -/

namespace Sys2Proof.Machine

/-- The engine of the build on one line (R83). -/
def engineCall (c : Cfg) (x : Byte) (l : Line) : Line :=
  match c.engine with
  | .counter => counterCall c x l
  | .fsm => fsmCall c x l

/-- `DEBOUNCE n, x` (R83): `db[n]` goes through the build's engine, every other element stays. -/
def debounce (n : LineIdx) (x : Byte) (s : State) : State :=
  setLine n (engineCall s.cfg.toCfg x (s.db.get n)) s

/-- The ChangeMask that the debounce call on line `n` has just returned: it is stored in `db[n].last`
(R21, R96, R112). -/
def changeMask (n : LineIdx) (s : State) : Byte :=
  (s.db.get n).last

/-- `DBC n, x` (R90 to R99). -/
def execDbc (n : Nat) (x : Byte) (s : State) : Answer :=
  needCounter s (withLine n (fun k =>
    let s' := setLine k (counterCall s.cfg.toCfg x (s.db.get k)) s
    finish (some (changeMask k s')) none s'))

/-- `DBF n, x` (R110 to R118). -/
def execDbf (n : Nat) (x : Byte) (s : State) : Answer :=
  needFsm s (withLine n (fun k => needCallable s k (
    let s' := setLine k (fsmCall s.cfg.toCfg x (s.db.get k)) s
    finish (some (changeMask k s')) none s')))

end Sys2Proof.Machine
end

