-- ==== Sys2Proof/Machine/Recorder.lean ====
section
/-! DEFINITION. The state recorder (45_recorder.md): the reshuffle and its inverse (R163, R164), the snapshot
burst (R160, R161, R162), and the meanings of `REC` and `APPEND`. -/

namespace Sys2Proof.Machine

/-- The reshuffle `T`: `out[m][j] = S[j mod 4][2m + (j div 4)]` (R163). -/
def reshuffle (S : Quad Byte) : Quad Byte :=
  Quad.ofFn (fun m => ofLanes (fun j => lane (S.get ⟨j.val % 4, by omega⟩) ⟨2 * m.val + j.val / 4, by omega⟩))

/-- The inverse of `T`: `S[n][i] = out[i div 2][4 × (i mod 2) + n]` (R164). The core never applies it. -/
def unshuffle (out : Quad Byte) : Quad Byte :=
  Quad.ofFn (fun n => ofLanes (fun i => lane (out.get ⟨i.val / 2, by omega⟩) ⟨4 * (i.val % 2) + n.val, by omega⟩))

/-- The four stable-state bytes (R160, R161). -/
def stableStates (s : State) : Quad Byte :=
  Quad.ofFn (fun n => (s.db.get n).state)

/-- The bytes of a snapshot: the stable states, reshuffled when RESHUFFLE (R160). -/
def snapshot (s : State) : Quad Byte :=
  if s.cfg.reshuffle then reshuffle (stableStates s) else stableStates s

/-- The recorder burst, one atomic step (R160, R162): interrupts off, LINES appends in ascending index, interrupts
on. -/
def recordBurst (s : State) : State :=
  let out := snapshot s
  let s1 := { s with gie := false }
  let s2 := ringAppend out.q3 (ringAppend out.q2 (ringAppend out.q1 (ringAppend out.q0 s1)))
  { s2 with gie := true }

/-- `REC` (R160): always a snapshot, also when nothing changed. -/
def execRec (s : State) : Answer :=
  finish none none (recordBurst s)

/-- `APPEND b` (R161). -/
def execAppend (b : Byte) (s : State) : Answer :=
  finish none none (ringAppend b s)

end Sys2Proof.Machine
end

