-- ==== Sys2Proof/Machine/Pass.lean ====
section
/-! DEFINITION. One scanner invocation as the sequence of atomic steps of 20_memory.md R56: for the matrix
scanner the reads of R131, the reduction of R134 and R135, the debounce calls of R136 and the recording of
R137; for the row sampler the window of R143 and the debounce and record of R144. The working data of an
invocation (RawSamples, ChangeMask, loop position) is no state of the core (10_state.md R40) and lives in
`Pass`. -/

namespace Sys2Proof.Machine

/-- The working data of one scanner invocation (R40). -/
structure Pass where
  core : State
  /-- the values read so far, line by line, in the order read: `v[p][n][r]` of R131 -/
  reads : Quad (List Byte)
  /-- the RawSamples (R134), or the one captured by the window (R143) -/
  raw : Quad Byte
  /-- the row the window captured (R143) -/
  row : LineIdx
  /-- the global ChangeMask (R136, R144) -/
  chg : Byte
  /-- the change flag the window captured (R143, R145) -/
  chgd : Option Bool
  deriving DecidableEq, Repr

/-- The atomic steps MAIN performs inside one `POLL` after the test-and-clear (R56). -/
inductive MainStep where
  /-- `PinDrive n` -/
  | drive (n : LineIdx)
  /-- one `PinRead`, a read of line `n` -/
  | read (n : LineIdx)
  /-- the reduction of the reads, and the write of `stability` -/
  | reduce
  /-- the debounce call on line `n` -/
  | debounce (n : LineIdx)
  /-- the row-swap window -/
  | window
  /-- the debounce call on the row the window captured -/
  | debounceRow
  /-- the recorder burst, when the ChangeMask is not zero -/
  | record
  deriving DecidableEq, Repr

/-- At the start of an invocation nothing has been read and nothing has changed. -/
def Pass.start (s : State) : Pass :=
  { core := s, reads := Quad.ofFn (fun _ => []), raw := Quad.ofFn (fun _ => 0), row := 0, chg := 0, chgd := none }

/-- The per-bit majority of all reads of a line: bit `i` is 1 when more than half of them have it (R134). -/
def majority (vs : List Byte) : Byte :=
  ofLanes (fun i => decide (2 * vs.countP (fun v => lane v i) > vs.length))

/-- One `READ` of line `n` (R131, R133). -/
def readStep (n : LineIdx) (p : Pass) : Pass :=
  let r := pinRead p.core
  { p with core := r.2, reads := p.reads.set n (p.reads.get n ++ [r.1]) }

/-- RawSamples by majority (R134), and the register `stability` (R135). -/
def reduceStep (p : Pass) : Pass :=
  { p with
    core := { p.core with stability := stabilityOf p.reads }
    raw := Quad.ofFn (fun n => majority (p.reads.get n)) }

/-- `chg <- chg | DEBOUNCE(n, raw[n])` (R136). -/
def debounceStep (n : LineIdx) (p : Pass) : Pass :=
  let s := debounce n (p.raw.get n) p.core
  { p with core := s, chg := p.chg ||| changeMask n s }

/-- The row-swap window, one atomic step, statement by statement (R143). -/
def windowStep (p : Pass) : Pass :=
  let s0 := { p.core with edgeEn := false }
  let r := s0.curRow
  let raw := s0.lastSample
  let chgd := s0.changeFlag
  let s1 := { s0 with rowBuf := s0.rowBuf.set r raw }
  let s2 := { s1 with curRow := r + 1 }
  let s3 := { s2 with lastSample := s2.rowBuf.get s2.curRow }
  let s4 := { s3 with changeFlag := false }
  let s5 := pinDrive s4.curRow s4
  { p with core := { s5 with edgeEn := true }, raw := p.raw.set r raw, row := r, chgd := some chgd }

/-- `if chg ≠ 0x00: REC` (R137, R144). -/
def recordStep (p : Pass) : Pass :=
  if p.chg = 0 then p else { p with core := recordBurst p.core }

/-- One atomic step of MAIN (R56). -/
def MainStep.run (m : MainStep) (p : Pass) : Pass :=
  match m with
  | .drive n => { p with core := pinDrive n p.core }
  | .read n => readStep n p
  | .reduce => reduceStep p
  | .debounce n => debounceStep n p
  | .window => windowStep p
  | .debounceRow => debounceStep p.row p
  | .record => recordStep p

/-- The line indices in ascending order (R131, R136). -/
def allLines : List LineIdx :=
  [0, 1, 2, 3]

/-- One sampling pass: each line driven once, then read READS times (R131). -/
def samplingPass (reads : Nat) : List MainStep :=
  allLines.flatMap (fun n => .drive n :: List.replicate reads (.read n))

/-- The three nested loops of R131: passes outermost, lines in the middle, reads innermost. -/
def samplingSteps (passes reads : Nat) : List MainStep :=
  (List.replicate passes (samplingPass reads)).flatten

/-- The whole matrix-scanner invocation (R130 to R137). -/
def matrixSteps (passes reads : Nat) : List MainStep :=
  samplingSteps passes reads ++ .reduce :: allLines.map .debounce ++ [.record]

/-- The whole row-sampler tick (R142 to R144). -/
def rowSteps : List MainStep :=
  [.window, .debounceRow, .record]

/-- The steps in order. -/
def runSteps (ms : List MainStep) (p : Pass) : Pass :=
  ms.foldl (fun q m => m.run q) p

/-- The end of an invocation: its result is the global ChangeMask (R137, R144), its second output the captured
change flag (R145). -/
def Pass.finished (p : Pass) : State :=
  p.core.report (some p.chg) p.chgd

/-- One matrix-scanner invocation from `s` (R130). -/
def matrixPass (s : State) : State :=
  (runSteps (matrixSteps s.cfg.passes s.cfg.reads) (Pass.start s)).finished

/-- One row-sampler tick from `s` (R142). -/
def rowPass (s : State) : State :=
  (runSteps rowSteps (Pass.start s)).finished

/-- `PASS` (30_encoding.md R83): the scanner of the build. A finite-state build is given no behaviour on key
records outside their bounds (U13, log 13). -/
def runPass (s : State) : Answer :=
  match s.cfg.scanner with
  | .matrix => needAllCallable s (.next (matrixPass s))
  | .rowirq => needCallable s s.curRow (.next (rowPass s))

end Sys2Proof.Machine
end

