-- ==== Sys2Proof/Machine/Matrix.lean ====
section
/-! DEFINITION. The meanings of `SCANM`, `DRIVE` and `READ` (42_matrix_scanner.md). -/

namespace Sys2Proof.Machine

/-- `SCANM` (R130): one matrix-scanner invocation, whether or not a tick is pending. -/
def execScanm (s : State) : Answer :=
  needMatrix s (needAllCallable s (.next (matrixPass s)))

/-- `DRIVE n` (R132). -/
def execDrive (n : Nat) (s : State) : Answer :=
  needMatrix s (withLine n (fun k => finish none none (pinDrive k s)))

/-- `READ` (R133): one answer of the PIN agent, 8 bits, never inverted; no state is written. -/
def execRead (s : State) : Answer :=
  needMatrix s (
    let r := pinRead s
    finish (some r.1) none r.2)

end Sys2Proof.Machine
end

