-- ==== Sys2Proof/Machine/Reset.lean ====
section
/-! DEFINITION. `RESET` (70_reset_and_hazards.md R190), and how a machine comes to be from a configuration
(00_scope.md R12, 60_exceptions.md R171). -/

namespace Sys2Proof.Machine

/-- `RESET` (R190): every state element at its reset value, then `DRIVE 0`. The build and the environment are
no state elements and stay (log 1, log 17). -/
def execReset (s : State) : Answer :=
  finish none none (resetAll s)

/-- Configuration validation, once, before reset (R12, R171): a configuration that fails a check is refused
with the codes of the checks it fails, a valid one gives the state after reset. -/
def boot (c : Cfg) (e : Env) : Answer :=
  if h : c.valid = true then .next (State.initial { c with isValid := h } e)
  else .refused (.invalidConfig c.failures)

end Sys2Proof.Machine
end

