-- ==== Sys2Proof/Machine/RowSampler.lean ====
section
/-! DEFINITION. The meanings of `ROWT` and `EDGE` (43_row_sampler.md). -/

namespace Sys2Proof.Machine

/-- The edge handler: `change_flag <- change_flag | (v != last_sample)`, then `last_sample <- v` (R141). -/
def edgeHandler (v : Byte) (s : State) : State :=
  { s with changeFlag := nextChangeFlag s.changeFlag s.lastSample v, lastSample := v }

/-- `ROWT` (R142): one row-sampler tick, whether or not a tick is pending. -/
def execRowt (s : State) : Answer :=
  needRowirq s (needCallable s s.curRow (.next (rowPass s)))

/-- `EDGE v` (R141, R174): the edge interrupt with the column sample it observed. -/
def execEdge (v : Byte) (s : State) : Answer :=
  needRowirq s (finish none none (takeInterrupt (edgeEnabled s) (edgeHandler v) s))

end Sys2Proof.Machine
end

