-- ==== Sys2Proof/Machine/Scheduler.lean ====
section
/-! DEFINITION. The scan scheduler (44_scheduler.md): the meanings of `TB`, `TICK`, `POLL`, `GETI`, `SETI`. -/

namespace Sys2Proof.Machine

/-- One event of the timer's timebase (R151): the sum is a natural number, so it does not wrap. -/
def timebaseEvent (s : State) : State :=
  if s.timerCnt.toNat + 1 ≥ s.scanInterval.toNat then setPending { s with timerCnt := 0 }
  else { s with timerCnt := s.timerCnt + 1 }

/-- `TB` (R151), deliverable when `gie = 1`. -/
def execTb (s : State) : Answer :=
  finish none none (takeInterrupt (timerEnabled s) timebaseEvent s)

/-- `TICK` (R152, R173). -/
def execTick (s : State) : Answer :=
  finish none none (takeInterrupt (timerEnabled s) setPending s)

/-- `POLL` (R153): test and clear `pending`, then at most one pass; the result of a no-op is `0x00`. -/
def execPoll (s : State) : Answer :=
  if s.pending then runPass { s with pending := false }
  else finish (some 0x00) none s

/-- `GETI` (R155). -/
def execGeti (s : State) : Answer :=
  finish (some s.scanInterval) none s

/-- The host's set of the scan interval: it restarts the interval (R156). -/
def setInterval (v : Byte) (s : State) : State :=
  { s with scanInterval := v, timerCnt := 0 }

/-- `SETI v` (R156). -/
def execSeti (v : Byte) (s : State) : Answer :=
  finish none none (setInterval v s)

end Sys2Proof.Machine
end

