-- ==== Sys2Proof/Machine/Dispatch.lean ====
section
/-! DEFINITION. `exec`: one arm per operation of 30_encoding.md R70, each one call of its meaning. -/

namespace Sys2Proof.Machine

def exec (i : Instr) (s : State) : Host.Outcome State Fault Refusal :=
  match i with
  | .reset => Sys2Proof.Machine.execReset s
  | .tb => Sys2Proof.Machine.execTb s
  | .tick => Sys2Proof.Machine.execTick s
  | .poll => Sys2Proof.Machine.execPoll s
  | .geti => Sys2Proof.Machine.execGeti s
  | .seti v => Sys2Proof.Machine.execSeti v s
  | .dbc n x => Sys2Proof.Machine.execDbc n x s
  | .dbf n x => Sys2Proof.Machine.execDbf n x s
  | .scanm => Sys2Proof.Machine.execScanm s
  | .drive n => Sys2Proof.Machine.execDrive n s
  | .read => Sys2Proof.Machine.execRead s
  | .rowt => Sys2Proof.Machine.execRowt s
  | .edge v => Sys2Proof.Machine.execEdge v s
  | .record => Sys2Proof.Machine.execRec s
  | .append b => Sys2Proof.Machine.execAppend b s

end Sys2Proof.Machine
end

