-- ==== Sys2Proof/Machine/Fetch.lean ====
section
/-! DEFINITION. Which operation comes next. The core fetches no program (00_scope.md R2): the order of the
agents' operations is free (20_memory.md R61(a)). It is read from `env.trace`, the encoded operations of a
trace (30_encoding.md R71, R81); where that is empty, an agent's next step is a free value (log 4). -/

namespace Sys2Proof.Machine

/-- What a step does next. -/
inductive Next where
  /-- perform this operation from this state -/
  | perform (i : Instr) (s : State)
  /-- no agent of this build acts: nothing happens in the core -/
  | nothing (s : State)
  /-- the trace goes on with bytes that are no operation -/
  | bad (reason : DecodeError)
  deriving DecidableEq, Repr

/-- The operation an agent starts (R70). -/
def AgentStep.instr : AgentStep → Instr
  | .reset => .reset
  | .tb => .tb
  | .tick => .tick
  | .poll => .poll
  | .geti => .geti
  | .seti v => .seti v
  | .edge v => .edge v

/-- The agent EDGE exists only in a build whose scanner is the row sampler (R7); the others always do. -/
def AgentStep.exists? (c : Cfg) : AgentStep → Bool
  | .reset => true
  | .tb => true
  | .tick => true
  | .poll => true
  | .geti => true
  | .seti _ => true
  | .edge _ =>
    match c.scanner with
    | .rowirq => true
    | .matrix => false

/-- The state once the next free agent choice has been made. -/
def chooseAgent (s : State) : State :=
  { s with env := { s.env with agentCount := s.env.agentCount + 1 } }

/-- With nothing in the trace: a free choice among the agents' operations; a choice of an agent that the build
does not have is no step of the core (log 21). -/
def agentNext (s : State) : Next :=
  let a := Config.agentStep s.env.agentCount
  if AgentStep.exists? s.cfg.toCfg a then .perform (AgentStep.instr a) (chooseAgent s) else .nothing (chooseAgent s)

/-- The trace without the bytes that have been decoded. -/
def withTrace (rest : List Byte) (s : State) : State :=
  { s with env := { s.env with trace := rest } }

/-- The next operation: the first of the trace, or an agent's free choice when the trace is empty. -/
def fetch (s : State) : Next :=
  match s.env.trace with
  | [] => agentNext s
  | b :: bs =>
    match decode (b :: bs) with
    | .ok (i, rest) => .perform i (withTrace rest s)
    | .error e => .bad e

/-- The build `c` with another engine and scanner, where that is a valid configuration (R12); else `c`. -/
def rebuilt (e : Engine) (sc : Scanner) (c : ValidCfg) : ValidCfg :=
  let c' : Cfg := { c.toCfg with engine := e, scanner := sc }
  if h : c'.valid = true then { c' with isValid := h } else c

/-- A build that has the operation (R75): `c` itself where it does, else `c` with the engine or scanner the
operation needs (log 10). -/
def buildFor (i : Instr) (c : ValidCfg) : ValidCfg :=
  match i with
  | .reset => c
  | .tb => c
  | .tick => c
  | .poll => c
  | .geti => c
  | .seti _ => c
  | .dbc _ _ => rebuilt .counter c.scanner c
  | .dbf _ _ => rebuilt .fsm c.scanner c
  | .scanm => rebuilt c.engine .matrix c
  | .drive _ => rebuilt c.engine .matrix c
  | .read => rebuilt c.engine .matrix c
  | .rowt => rebuilt c.engine .rowirq c
  | .edge _ => rebuilt c.engine .rowirq c
  | .record => c
  | .append _ => c

/-- Place an operation where `step` takes its next one: its bytes, in place of the first bytes of the trace. The
build is the one that has the operation (log 10); nothing else changes. -/
def placeOperation (bytes : List Byte) (s : State) : State :=
  let s1 := withTrace (bytes ++ s.env.trace.drop bytes.length) s
  match decode bytes with
  | .ok (i, _) => { s1 with cfg := buildFor i s.cfg }
  | .error _ => s1

end Sys2Proof.Machine
end

