-- ==== Sys2Proof/Machine/Step.lean ====
section
/-! DEFINITION. One step of the machine: one operation of one agent, taken as one atomic step
(20_memory.md R55, R61(d)), and placing an operation where `step` takes its next one. -/

namespace Sys2Proof.Machine

/-- One step: the next operation of the trace, or of an agent where the trace is empty. -/
def step (s : State) : Host.Outcome State Fault Refusal :=
  match fetch s with
  | .perform i s' => exec i s'
  | .nothing s' => .next s'
  | .bad e => .refused (.undecodable e)

/-- `s` with the operation of the opcode-table word `w` placed where `step` takes its next operation. -/
def State.withFetchWord (s : State) (nbits w : Nat) : State :=
  placeOperation (wordBytes nbits w) s

end Sys2Proof.Machine
end

