-- ==== Sys2Proof/Machine/CounterPlanes.lean ====
section
/-! DEFINITION. The counter debounce engine in its bit-plane form (40_counter_engine.md R101, R102), the form
the source describes. `DBC` runs the per-lane form of Counter.lean; R103 says that the two agree. -/

namespace Sys2Proof.Machine

/-- R101: the ripple-carry increment of all lanes at once, plane 0 first; `carry` is the carry into this
plane, `keep` the lanes that count. The carry out of the last plane is discarded. -/
def ripple (keep : Byte) : Byte → List Byte → List Byte
  | _, [] => []
  | carry, p :: ps => ((p ^^^ carry) &&& keep) :: ripple keep (p &&& carry) ps

/-- R102: `EQ(K)`, the lanes whose count is `K`. -/
def planesEq : List Byte → Nat → Byte
  | [], _ => 0xFF
  | p :: ps, K => (if K % 2 = 1 then p else ~~~p) &&& planesEq ps (K / 2)

/-- R102: the pair `(gt, eq)` of the loop of `GT(K)` after the planes of the list, highest first. -/
def planesGtEq : List Byte → Nat → Byte × Byte
  | [], _ => (0x00, 0xFF)
  | p :: ps, K =>
    let r := planesGtEq ps (K / 2)
    if K % 2 = 0 then (r.1 ||| (r.2 &&& p), r.2 &&& ~~~p) else (r.1, r.2 &&& p)

/-- R102: `GT(K)`, the lanes whose count is above `K`. -/
def planesGt (ps : List Byte) (K : Nat) : Byte :=
  (planesGtEq ps K).1

/-- R102: `LT(K) = ~GT(K) & ~EQ(K)`. -/
def planesLt (ps : List Byte) (K : Nat) : Byte :=
  ~~~planesGt ps K &&& ~~~planesEq ps K

/-- R102: the stage planes `(stg1, stg0)` after the call, the table of R98 bit by bit. -/
def stagePlanes (variant : BadStages) (stg1 stg0 rel over1 over2 : Byte) : Byte × Byte :=
  match variant with
  | .one =>
    ((stg1 ||| over1) &&& ~~~rel, (stg0 ||| over1) &&& ~~~rel)
  | .two =>
    let clean := ~~~stg1 &&& ~~~stg0
    let suspect := ~~~stg1 &&& stg0
    let armed := stg1 &&& ~~~stg0
    let isBad := stg1 &&& stg0
    ((rel &&& (suspect ||| armed)) ||| (~~~rel &&& (armed ||| isBad)),
     ~~~rel &&& ((clean &&& over1) ||| suspect ||| (armed &&& over2) ||| isBad))

/-- `DBC` on one line in the bit-plane form (R101, R102). -/
def counterCallPlanes (c : Cfg) (x : Byte) (l : Line) : Line :=
  let d := x ^^^ l.state
  let c0 := l.cnt.map (fun p => p &&& ~~~l.last)
  let isBad := l.bad
  let acc := d &&& ((~~~isBad &&& planesEq c0 c.d) ||| (isBad &&& planesEq c0 c.dBad))
  let q := ~~~d &&& l.state
  let over1 := q &&& planesGt c0 c.t1 &&& planesLt c0 c.d
  let over2 := q &&& planesGt c0 c.t2 &&& planesLt c0 c.d
  let rel := acc &&& l.state
  let stg := stagePlanes c.badStages l.stg1 l.stg0 rel over1 over2
  let keep := d &&& ~~~l.last
  { l with
    state := l.state ^^^ acc
    last := acc
    stg0 := stg.2
    stg1 := stg.1
    cnt := ripple keep keep l.cnt }

end Sys2Proof.Machine
end

