-- ==== Sys2Proof/Machine/Interleave.lean ====
section
/-! DEFINITION. Steps of the other agents ordered between the atomic steps of a pass (20_memory.md R56, R58,
R61). `exec` takes a whole `POLL` as one step, as R61(d) allows; this file is the finer view that R61(d)
compares it with. A `RESET` that falls inside a pass ends it: MAIN is then idle (70_reset_and_hazards.md R191,
log 18). -/

namespace Sys2Proof.Machine

/-- A step of TIMER (`TB`, `TICK`), HOST (`GETI`, `SETI v`, `RESET`) or EDGE (`EDGE v`) that may be ordered
between two atomic steps of MAIN (R7, R56). -/
inductive AgentEvent where
  | tb
  | tick
  | geti
  | seti (v : Byte)
  | edge (v : Byte)
  | reset
  deriving DecidableEq, Repr

/-- An `EDGE`: the one event whose side of the row-swap window matters (R61(c), R61(d)). -/
def AgentEvent.isEdge : AgentEvent → Bool
  | .tb => false
  | .tick => false
  | .geti => false
  | .seti _ => false
  | .edge _ => true
  | .reset => false

/-- The event ends a pass in progress: after `RESET` "MAIN is idle (no pass in progress)" (R191). -/
def AgentEvent.endsPass : AgentEvent → Bool
  | .tb => false
  | .tick => false
  | .geti => false
  | .seti _ => false
  | .edge _ => false
  | .reset => true

/-- What the event does to the core, its source's mask included (R151, R152, R155, R156, R141, R190). DESIGN CHOICE
(log 21): an `EDGE` in a matrix build, where that agent does not exist (R7, R172), is no step of the core. -/
def AgentEvent.apply (e : AgentEvent) (s : State) : State :=
  match e with
  | .tb => takeInterrupt (timerEnabled s) timebaseEvent s
  | .tick => takeInterrupt (timerEnabled s) setPending s
  | .geti => s
  | .seti v => setInterval v s
  | .edge v =>
    match s.cfg.scanner with
    | .rowirq => takeInterrupt (edgeEnabled s) (edgeHandler v) s
    | .matrix => s
  | .reset => resetAll s

/-- The events in order. -/
def applyEvents (es : List AgentEvent) (s : State) : State :=
  es.foldl (fun t e => e.apply t) s

/-- One atomic step of some agent while a pass is in progress (R56). -/
inductive AtomicStep where
  | main (m : MainStep)
  | agent (e : AgentEvent)
  deriving DecidableEq, Repr

/-- What MAIN is doing inside one `POLL`: a pass, or nothing since a `RESET` ended it (R191). -/
inductive Activity where
  | inPass (p : Pass)
  | idle (s : State)
  deriving DecidableEq, Repr

/-- The core, whatever MAIN is doing. -/
def Activity.core : Activity → State
  | .inPass p => p.core
  | .idle s => s

/-- One atomic step. The other agents act on the core alone (R177); `RESET` also ends the pass, and an idle MAIN
performs nothing of it any more: the next thing it does is a `POLL` (R191, log 18). -/
def AtomicStep.run (a : AtomicStep) (x : Activity) : Activity :=
  match a, x with
  | .main m, .inPass p => .inPass (m.run p)
  | .main _, .idle s => .idle s
  | .agent e, .inPass p =>
    if e.endsPass then .idle (e.apply p.core) else .inPass { p with core := e.apply p.core }
  | .agent e, .idle s => .idle (e.apply s)

/-- The atomic steps in the order taken. -/
def runAtomic (as : List AtomicStep) (x : Activity) : Activity :=
  as.foldl (fun y a => a.run y) x

/-- MAIN's steps of an interleaving, in order. -/
def mainSteps (as : List AtomicStep) : List MainStep :=
  as.filterMap (fun a =>
    match a with
    | .main m => some m
    | .agent _ => none)

/-- The other agents' steps of an interleaving, in order. -/
def agentEvents (as : List AtomicStep) : List AgentEvent :=
  as.filterMap (fun a =>
    match a with
    | .main _ => none
    | .agent e => some e)

end Sys2Proof.Machine
end

