-- ==== Sys2Proof/Safety.lean ====
section
/-! DEFINITION. What holds in every state between two steps (10_state.md R37, R38, 44_scheduler.md R151,
43_row_sampler.md R140), which operations a build has (30_encoding.md R75), and operations performed in a
row. The statements are written in these terms. -/

namespace Sys2Proof.Machine

/-- R38(f): both interrupt-enable bits are 1 between steps. -/
def EnablesUp (s : State) : Prop :=
  s.gie = true ∧ s.edgeEn = true

/-- R31: the bits of `stability` above LINES are zero. -/
def StabilityHighZero (s : State) : Prop :=
  s.stability.extractLsb' 4 4 = 0

/-- R151: `timer_cnt` has not reached the interval. -/
def TimerBelow (s : State) : Prop :=
  s.timerCnt = 0 ∨ s.timerCnt.toNat < s.scanInterval.toNat

/-- R140: in a row-sampler build the watched row is the row driven. -/
def WatchedRowDriven (s : State) : Prop :=
  s.cfg.scanner = .rowirq → s.driveSel = s.curRow

/-- R36, column "present when": an element the build does not have holds its reset value (log 3). -/
def AbsentAtReset (s : State) : Prop :=
  (s.cfg.scanner = .matrix →
    s.curRow = 0 ∧ s.lastSample = 0 ∧ s.changeFlag = false ∧ s.rowBuf = Quad.ofFn (fun _ => 0)) ∧
  (s.cfg.scanner = .rowirq → s.stability = 0) ∧
  (s.cfg.engine = .counter → ∀ n, (s.db.get n).keys = Octet.ofFn (fun _ => Key.initial)) ∧
  (s.cfg.engine = .fsm → ∀ n, (s.db.get n).stg0 = 0 ∧ (s.db.get n).stg1 = 0 ∧
    (s.db.get n).cnt = List.replicate s.cfg.planes 0)

/-- R22, R37(d): every line has N counter planes, so no lane value exceeds N bits. -/
def PlanesFit (s : State) : Prop :=
  ∀ n, (s.db.get n).cnt.length = s.cfg.planes

/-- R38(b): a key is flagged bad only while accepted as pressed. -/
def BadOnlyPressed (s : State) : Prop :=
  ∀ n i, lane (s.db.get n).bad i = true → lane (s.db.get n).state i = true

/-- R38(d): outside the call after an acceptance, a lane's count is at most its target delay. -/
def CountBelowTarget (s : State) : Prop :=
  ∀ n i, lane (s.db.get n).last i = false →
    (s.db.get n).count i ≤ targetDelay s.cfg.toCfg (s.db.get n) i

/-- R24: with BAD_STAGES = 1 only CLEAN and BAD are reached. -/
def OneStageOnly (s : State) : Prop :=
  s.cfg.badStages = .one → ∀ n i, (s.db.get n).stage i = .clean ∨ (s.db.get n).stage i = .bad

/-- The counter engine's invariant, in a counter build (R22, R24, R38(b), R38(d)). -/
def CounterInv (s : State) : Prop :=
  s.cfg.engine = .counter → PlanesFit s ∧ BadOnlyPressed s ∧ CountBelowTarget s ∧ OneStageOnly s

/-- R28, R120: every key record is inside its bounds. -/
def KeysInRange (s : State) : Prop :=
  ∀ n i, ((s.db.get n).keys.get i).inRange s.cfg.toCfg = true

/-- R38(e): a key's stable bit is 1 exactly in the phases LOCKED_ON, ON and TURNING_OFF. -/
def PhaseTellsState (s : State) : Prop :=
  ∀ n i, lane (s.db.get n).state i = true ↔
    ((s.db.get n).keys.get i).phase = .lockedOn ∨ ((s.db.get n).keys.get i).phase = .on ∨
    ((s.db.get n).keys.get i).phase = .turningOff

/-- The finite-state engine's invariant, in a finite-state build (R28, R38(e)). -/
def FsmInv (s : State) : Prop :=
  s.cfg.engine = .fsm → KeysInRange s ∧ PhaseTellsState s

/-- The invariant of the scheduler, the scanners and the enables. -/
def SystemInv (s : State) : Prop :=
  EnablesUp s ∧ StabilityHighZero s ∧ TimerBelow s ∧ WatchedRowDriven s ∧ AbsentAtReset s

/-- Everything that holds between steps. -/
def Inv (s : State) : Prop :=
  SystemInv s ∧ CounterInv s ∧ FsmInv s

/-- R75: the operation belongs to the build. -/
def inBuild (c : Cfg) : Instr → Bool
  | .reset => true
  | .tb => true
  | .tick => true
  | .poll => true
  | .geti => true
  | .seti _ => true
  | .dbc _ _ => c.engine == .counter
  | .dbf _ _ => c.engine == .fsm
  | .scanm => c.scanner == .matrix
  | .drive _ => c.scanner == .matrix
  | .read => c.scanner == .matrix
  | .rowt => c.scanner == .rowirq
  | .edge _ => c.scanner == .rowirq
  | .record => true
  | .append _ => true

/-- Operations one after another (R81). -/
def execAll : List Instr → State → Answer
  | [], s => .next s
  | i :: is, s => andThen (exec i s) (execAll is)

/-- The operation fires a tick from this state: `TICK` itself, or a `TB` that reaches the interval with the timer
source enabled (R151, R152). -/
def firesTick (s : State) : Instr → Bool
  | .reset => false
  | .tb => timerEnabled s && decide (s.timerCnt.toNat + 1 ≥ s.scanInterval.toNat)
  | .tick => true
  | .poll => false
  | .geti => false
  | .seti _ => false
  | .dbc _ _ => false
  | .dbf _ _ => false
  | .scanm => false
  | .drive _ => false
  | .read => false
  | .rowt => false
  | .edge _ => false
  | .record => false
  | .append _ => false

/-- Operations in a row, none of which fires a tick when its turn comes. -/
def NoTickFires : List Instr → State → Prop
  | [], _ => True
  | i :: is, s => firesTick s i = false ∧ ∀ t, exec i s = .next t → NoTickFires is t

/-- The state without the outputs of the last operation, for comparing states (log 6). -/
def State.quiet (s : State) : State :=
  s.report none none

end Sys2Proof.Machine
end

