-- ==== Sys2Proof/Certificates/Slice0/Obligations.lean ====
section
/-! DEFINITION. The statements about the core, from the numbered rules of spec/. Each name says what is
stated; OBLIGATIONS.json gives the rules cited. Everything is said for every valid configuration: the build
is the field `cfg` of the state. -/

open Sys2Proof Sys2Proof.Machine

/-! ## Encoding (30_encoding.md) -/

/-- R71, R72: no bit of an encoding is dropped; decoding an encoded operation gives it back, and leaves what
follows it. -/
def Obligations.DecodeEncode : Prop :=
  ∀ (i : Instr) (rest : List Byte), i.wellFormed = true → decode (encode i ++ rest) = .ok (i, rest)

/-- R71, R74: what decodes is the encoding of a well-formed operation, and of one only. -/
def Obligations.DecodeOnlyEncodings : Prop :=
  ∀ (bs : List Byte) (i : Instr) (rest : List Byte), decode bs = .ok (i, rest) →
    i.wellFormed = true ∧ bs = encode i ++ rest

/-- R74: a value of byte 0 that R70 does not list is refused, and so is a line byte with one of bits 7:2 set;
a step on such bytes is refused: no no-op and no trap. The third clause speaks of the bytes of `env.trace` (the
model's choice, log 4) and holds for a truncated operation too (the model's choice, log 19). -/
def Obligations.ReservedRefused : Prop :=
  (∀ (op : Byte) (rest : List Byte),
    op ∉ ([0x01, 0x10, 0x11, 0x12, 0x13, 0x14, 0x20, 0x21, 0x30, 0x31, 0x32, 0x38, 0x39, 0x40, 0x41] : List Byte) →
    decode (op :: rest) = .error (.reservedCode op)) ∧
  (∀ (op b : Byte) (rest : List Byte), op ∈ ([0x20, 0x21, 0x31] : List Byte) →
    (∃ j, 2 ≤ j ∧ j ≤ 7 ∧ b.getLsbD j = true) → decode (op :: b :: rest) = .error (.reservedLineBits b)) ∧
  (∀ (s : State) (e : DecodeError), s.env.trace ≠ [] → decode s.env.trace = .error e →
    step s = .refused (.undecodable e))

/-- R76: byte 0 alone decides how many bytes the operation takes. -/
def Obligations.LengthByFirstByte : Prop :=
  ∀ (op : Byte) (rest rest' : List Byte) (i : Instr), decode (op :: rest) = .ok (i, rest') →
    (op :: rest).length = rest'.length +
      (if op ∈ ([0x14, 0x39, 0x41, 0x31] : List Byte) then 2
       else if op ∈ ([0x20, 0x21] : List Byte) then 3 else 1)

/-- R71: an operation matches a row of opcode_table.json when `word & mask = match`, and that is the row its
word decodes to. -/
def Obligations.TableWordsDecode : Prop :=
  ∀ r ∈ opcodeTable, ∀ w, w < 2 ^ r.nbits →
    (rowMatches r w = true ↔ ∃ i, decodeTableWord r.nbits w = some i ∧ mnemonicOf i = r.mnemonic)

/-- R71, programs P1 to P5: a few encodings written out from the spec decode to the operation they stand
for. -/
def Obligations.WrittenOutWords : Prop :=
  decode [0x01] = .ok (.reset, []) ∧ decode [0x14, 0x03] = .ok (.seti 3, []) ∧
  decode [0x20, 0x02, 0x40] = .ok (.dbc 2 0x40, []) ∧ decode [0x21, 0x00, 0x01] = .ok (.dbf 0 0x01, []) ∧
  decode [0x31, 0x01] = .ok (.drive 1, []) ∧ decode [0x39, 0x01] = .ok (.edge 0x01, []) ∧
  decode [0x41, 0x80] = .ok (.append 0x80, [])

/-! ## Steps and configurations -/

/-- A step runs the operation the trace begins with, from the state without its bytes (log 4). -/
def Obligations.StepRunsOperation : Prop :=
  ∀ (s : State) (i : Instr) (rest : List Byte), decode s.env.trace = .ok (i, rest) →
    step s = exec i { s with env := { s.env with trace := rest } }

/-- With an empty trace an agent of R7 acts, chosen freely (R61(a); the form of the choice is the model's,
log 4, log 21): the statement holds for every choice. -/
def Obligations.EmptyTraceFreeStep : Prop :=
  ∀ s : State, s.env.trace = [] →
    let s' := { s with env := { s.env with agentCount := s.env.agentCount + 1 } }
    step s =
      match Config.agentStep s.env.agentCount with
      | .reset => exec .reset s'
      | .tb => exec .tb s'
      | .tick => exec .tick s'
      | .poll => exec .poll s'
      | .geti => exec .geti s'
      | .seti v => exec (.seti v) s'
      | .edge v =>
        match s.cfg.scanner with
        | .rowirq => exec (.edge v) s'
        | .matrix => .next s'

/-- R12, R171 (its conditions: decision D30): a configuration that passes CFG1 to CFG9 gives a machine, in the
state after reset; any other is refused before reset, with exactly the codes of the checks that fail. That the
configuration is carried in the state is log 1; that CFG9 comes down to LINES = 4, LANES = 8 being the type of a
byte, is log 14. -/
def Obligations.ConfigValidation : Prop :=
  ∀ (c : Cfg) (e : Env),
    let holds : CfgCode → Prop := fun k =>
      match k with
      | .cfg1 => 1 ≤ c.d
      | .cfg2 => c.d < c.dBad
      | .cfg3 => c.dBad < 2 ^ c.planes ∧ c.d < 2 ^ c.planes
      | .cfg4 => c.t1 < c.d ∧ c.t1 < 2 ^ c.planes
      | .cfg5 => c.badStages = .two → c.t1 < c.t2 ∧ c.t2 < c.d
      | .cfg6 => c.engine = .fsm →
          1 ≤ c.lockedOnPeriod ∧ 1 ≤ c.keyOnChatterWindow ∧ 1 ≤ c.turningOffChatterWindow ∧
          1 ≤ c.lockedOffPeriod ∧ 1 ≤ c.multStep ∧ 1 + c.multStep ≤ c.multMax ∧ c.multMax < 2 ^ c.wMult ∧
          (∀ P ∈ [c.lockedOnPeriod, c.keyOnChatterWindow, c.turningOffChatterWindow, c.lockedOffPeriod],
            P * c.multMax < 2 ^ c.wCnt)
      | .cfg7 => c.scanner = .matrix → 1 ≤ c.reads ∧ 1 ≤ c.passes ∧ Odd (c.reads * c.passes)
      | .cfg8 => c.intervalReset < 2 ^ 8
      | .cfg9 => c.reshuffle = true → lineCount = 4
    ((∀ k, holds k) → ∃ h : c.valid = true, boot c e = .next (State.initial { c with isValid := h } e)) ∧
    ((¬ ∀ k, holds k) → ∃ codes, boot c e = .refused (.invalidConfig codes) ∧ ∀ k, k ∈ codes ↔ ¬ holds k)

/-- R9: `N` is the number of bits needed for the largest configured delay, the least width that holds both
delays. -/
def Obligations.PlanesLeastWidth : Prop :=
  ∀ (c : Cfg) (w : Nat), c.planes ≤ w ↔ c.d < 2 ^ w ∧ c.dBad < 2 ^ w

/-- R190, R39: what `RESET` leaves, from any state. -/
def Obligations.ResetValues : Prop :=
  ∀ s : State, ∃ t, exec .reset s = .next t ∧
    (∀ n, (t.db.get n).state = 0 ∧ (t.db.get n).last = 0 ∧ (t.db.get n).stg0 = 0 ∧ (t.db.get n).stg1 = 0 ∧
      (t.db.get n).cnt = List.replicate s.cfg.planes 0 ∧
      ∀ i, (t.db.get n).keys.get i = { phase := .off, cycles := 0, countdown := 0, mult := 1 }) ∧
    t.pending = false ∧ t.timerCnt = 0 ∧ t.scanInterval.toNat = s.cfg.intervalReset ∧ t.stability = 0 ∧
    t.curRow = 0 ∧ (∀ r, t.rowBuf.get r = 0) ∧ t.lastSample = 0 ∧ t.changeFlag = false ∧ t.edgeEn = true ∧
    t.gie = true ∧ t.ringOut = [] ∧ t.driveSel = 0 ∧
    t.cfg = s.cfg ∧ t.env = { s.env with result := none, chgd := none }

/-- R191, R153: after reset both interrupt sources are enabled and no tick is pending, and a `POLL` before the first
tick, whatever other operations came between, is a no-op that answers `0x00`. In a matrix build, which has no
`edge_en`, its value is that of an absent element (log 3). -/
def Obligations.PollBeforeTick : Prop :=
  ∀ s t : State, exec .reset s = .next t →
    t.gie = true ∧ t.edgeEn = true ∧ t.pending = false ∧
    ∀ (is : List Instr) (u : State), NoTickFires is t → execAll is t = .next u →
      exec .poll u = .next { u with env := { u.env with result := some 0x00, chgd := none } }

/-! ## Scheduler (44_scheduler.md) -/

/-- R151, R152: one timebase event and one tick, when the timer source is enabled. -/
def Obligations.TimerEvents : Prop :=
  ∀ s : State, s.gie = true →
    exec .tick s = .next ({ s with pending := true }.quiet) ∧
    (s.timerCnt.toNat + 1 ≥ s.scanInterval.toNat →
      exec .tb s = .next ({ s with timerCnt := 0, pending := true }.quiet)) ∧
    (s.timerCnt.toNat + 1 < s.scanInterval.toNat →
      exec .tb s = .next ({ s with timerCnt := BitVec.ofNat 8 (s.timerCnt.toNat + 1) }.quiet))

/-- R152: ticks do not queue; any number of them in a row leaves what one leaves. -/
def Obligations.TicksAbsorbed : Prop :=
  ∀ (s : State) (k : Nat), s.gie = true →
    execAll (List.replicate (k + 1) .tick) s = .next ({ s with pending := true }.quiet)

/-- R151, R83 (`FIRE`): from a count below the interval, the timer ticks on timebase event number
`max(scan_interval, 1) - timer_cnt` and on no earlier one. -/
def Obligations.FireCount : Prop :=
  ∀ (s : State) (k : Nat), s.gie = true → s.timerCnt.toNat < max s.scanInterval.toNat 1 →
    (k < max s.scanInterval.toNat 1 - s.timerCnt.toNat →
      ∃ t, execAll (List.replicate k .tb) s = .next t ∧ t.pending = s.pending ∧
        t.timerCnt.toNat = s.timerCnt.toNat + k) ∧
    (k = max s.scanInterval.toNat 1 - s.timerCnt.toNat →
      ∃ t, execAll (List.replicate k .tb) s = .next t ∧ t.pending = true ∧ t.timerCnt = 0)

/-- R153: `POLL` without a pending tick changes nothing and answers `0x00`; with one it clears the flag and
runs the pass of the build from the state so left, and the pass completes. -/
def Obligations.PollRunsPass : Prop :=
  ∀ s : State,
    (s.pending = false →
      exec .poll s = .next { s with env := { s.env with result := some 0x00, chgd := none } }) ∧
    (s.pending = true → s.cfg.scanner = .matrix → exec .poll s = exec .scanm { s with pending := false }) ∧
    (s.pending = true → s.cfg.scanner = .rowirq → exec .poll s = exec .rowt { s with pending := false }) ∧
    ((∀ n, (s.db.get n).callable s.cfg.toCfg = true) → ∃ t, exec .poll s = .next t ∧ t.pending = false)

/-- R153, corner case: two `POLL`s with no tick fired between them, whatever other operations came between, run at
most one pass: the second is a no-op that answers `0x00`. -/
def Obligations.AtMostOnePassPerTick : Prop :=
  ∀ (s t u : State) (is : List Instr), exec .poll s = .next t → NoTickFires is t → execAll is t = .next u →
    exec .poll u = .next { u with env := { u.env with result := some 0x00, chgd := none } }

/-- R155, R156: get and set of the scan interval. -/
def Obligations.GetSetInterval : Prop :=
  ∀ (s : State) (v : Byte),
    exec .geti s = .next { s with env := { s.env with result := some s.scanInterval, chgd := none } } ∧
    exec (.seti v) s = .next ({ s with scanInterval := v, timerCnt := 0 }.quiet)

/-- R174, R175: a request that is masked is not delivered; that it leaves the state as it is, is the model's
choice (log 8). The enables are up in every state between steps (`StepKeepsSystemInv`). -/
def Obligations.MaskedRequests : Prop :=
  ∀ (s : State) (v : Byte),
    (s.gie = false → exec .tb s = .next s.quiet ∧ exec .tick s = .next s.quiet) ∧
    (s.cfg.scanner = .rowirq → s.edgeEn = false ∨ s.gie = false → exec (.edge v) s = .next s.quiet)

/-- R176: `TICK` and `EDGE` may be taken in either order with the same result. -/
def Obligations.TickEdgeEitherOrder : Prop :=
  ∀ (s : State) (v : Byte), execAll [.tick, .edge v] s = execAll [.edge v, .tick] s

/-! ## Counter engine (40_counter_engine.md) -/

/-- R91, R94, R96: which lanes accept, and what becomes of `state`, `last` and the result. -/
def Obligations.DbcAccepts : Prop :=
  ∀ (s : State) (n : LineIdx) (x : Byte), s.cfg.engine = .counter →
    ∃ t, exec (.dbc n.val x) s = .next t ∧
      t.env.result = some (t.db.get n).last ∧ (t.db.get n).state = (s.db.get n).state ^^^ (t.db.get n).last ∧
      ∀ i,
        (lane (t.db.get n).last i = true ↔
          lane x i ≠ lane (s.db.get n).state i ∧
          (if lane (s.db.get n).last i then 0 else countAt (s.db.get n).cnt i) =
            (if lane (s.db.get n).stg1 i = true ∧ lane (s.db.get n).stg0 i = true then s.cfg.dBad
             else s.cfg.d)) ∧
        (lane (s.db.get n).last i = true → lane (t.db.get n).last i = false) ∧
        (lane (t.db.get n).last i = true → lane (t.db.get n).state i = lane x i)

/-- R92, R99: what becomes of a lane's counter; the record keeps `N` planes. -/
def Obligations.DbcCounts : Prop :=
  ∀ (s : State) (n : LineIdx) (x : Byte), s.cfg.engine = .counter →
    ∃ t, exec (.dbc n.val x) s = .next t ∧ (t.db.get n).cnt.length = s.cfg.planes ∧
      ∀ i, countAt (t.db.get n).cnt i =
        if lane (s.db.get n).last i then 0
        else if lane x i ≠ lane (s.db.get n).state i then (countAt (s.db.get n).cnt i + 1) % 2 ^ s.cfg.planes
        else 0

/-- R97, R98: what becomes of a lane's bad-detector stage, in both variants. `rel` is an accepted release, and
`bounce T` a bounce above `T` that ended while the key is pressed. -/
def Obligations.DbcStages : Prop :=
  ∀ (s : State) (n : LineIdx) (x : Byte), s.cfg.engine = .counter →
    ∃ t, exec (.dbc n.val x) s = .next t ∧
      ∀ i,
        let c0 := if lane (s.db.get n).last i then 0 else countAt (s.db.get n).cnt i
        let rel := lane (t.db.get n).last i = true ∧ lane (s.db.get n).state i = true
        let bounce : Nat → Prop := fun T =>
          lane x i = true ∧ lane (s.db.get n).state i = true ∧ T < c0 ∧ c0 < s.cfg.d
        let before := (s.db.get n).stage i
        let after := (t.db.get n).stage i
        (s.cfg.badStages = .one →
          (rel → after = .clean) ∧ (¬ rel → bounce s.cfg.t1 → after = .bad) ∧
          (¬ rel → ¬ bounce s.cfg.t1 → after = before)) ∧
        (s.cfg.badStages = .two →
          (rel → (before = .clean → after = .clean) ∧ (before = .suspect → after = .armed) ∧
            (before = .armed → after = .armed) ∧ (before = .bad → after = .clean)) ∧
          (¬ rel →
            (before = .clean → (bounce s.cfg.t1 → after = .suspect) ∧ (¬ bounce s.cfg.t1 → after = .clean)) ∧
            (before = .suspect → after = .suspect) ∧
            (before = .armed → (bounce s.cfg.t2 → after = .bad) ∧ (¬ bounce s.cfg.t2 → after = .armed)) ∧
            (before = .bad → after = .bad)))

/-- R90, R110, R21: a debounce call reads and writes `db[n]` only, and there nothing of the other engine's
hidden state. -/
def Obligations.DebounceFrame : Prop :=
  ∀ (s t : State) (n : Nat) (x : Byte),
    (exec (.dbc n x) s = .next t → ∃ h : n < 4,
      (t.db.get ⟨n, h⟩).keys = (s.db.get ⟨n, h⟩).keys ∧
      t = { s with db := s.db.set ⟨n, h⟩ (t.db.get ⟨n, h⟩)
                   env := { s.env with result := t.env.result, chgd := none } }) ∧
    (exec (.dbf n x) s = .next t → ∃ h : n < 4,
      (t.db.get ⟨n, h⟩).stg0 = (s.db.get ⟨n, h⟩).stg0 ∧ (t.db.get ⟨n, h⟩).stg1 = (s.db.get ⟨n, h⟩).stg1 ∧
      (t.db.get ⟨n, h⟩).cnt = (s.db.get ⟨n, h⟩).cnt ∧
      t = { s with db := s.db.set ⟨n, h⟩ (t.db.get ⟨n, h⟩)
                   env := { s.env with result := t.env.result, chgd := none } })

/-- R103: the bit-plane form and the per-lane form produce the same record and the same result. -/
def Obligations.BitPlanesAgree : Prop :=
  ∀ (c : ValidCfg) (x : Byte) (l : Line), l.cnt.length = c.planes →
    counterCallPlanes c.toCfg x l = counterCall c.toCfg x l

/-- R95: from a zero count, a run of differing samples is accepted on differing sample number `tgt + 1`, and on
no earlier one; `tgt` is `D`, or `D_BAD` on a bad lane. -/
def Obligations.CounterLatency : Prop :=
  ∀ (s : State) (n : LineIdx) (i : LaneIdx) (xs : List Byte), s.cfg.engine = .counter →
    countAt (s.db.get n).cnt i = 0 → lane (s.db.get n).last i = false →
    (∀ x ∈ xs, lane x i ≠ lane (s.db.get n).state i) →
    let tgt := if (s.db.get n).stage i = .bad then s.cfg.dBad else s.cfg.d
    ∃ t, execAll (xs.map (Instr.dbc n.val)) s = .next t ∧
      (xs.length ≤ tgt →
        lane (t.db.get n).state i = lane (s.db.get n).state i ∧ lane (t.db.get n).last i = false) ∧
      (xs.length = tgt + 1 →
        lane (t.db.get n).state i = !lane (s.db.get n).state i ∧ lane (t.db.get n).last i = true)

/-- R201, R92: a sample that flips back in the very call after an acceptance needs `tgt + 2` differing samples,
counting that call. -/
def Obligations.FlipBackLatency : Prop :=
  ∀ (s : State) (n : LineIdx) (i : LaneIdx) (xs : List Byte), s.cfg.engine = .counter →
    lane (s.db.get n).last i = true → (∀ x ∈ xs, lane x i ≠ lane (s.db.get n).state i) →
    let tgt := if (s.db.get n).stage i = .bad then s.cfg.dBad else s.cfg.d
    ∃ t, execAll (xs.map (Instr.dbc n.val)) s = .next t ∧
      (xs.length ≤ tgt + 1 → lane (t.db.get n).state i = lane (s.db.get n).state i) ∧
      (xs.length = tgt + 2 → lane (t.db.get n).state i = !lane (s.db.get n).state i)

/-- R97, R98, R106(b), R106(c): what a bounce of length `k ≤ D` on a pressed key leaves, in the call that ends
it: the key stays pressed with a zero count, and the stage advances exactly when the bounce lies strictly
between the stage's threshold and the normal delay. -/
def Obligations.BounceVerdict : Prop :=
  ∀ (s : State) (n : LineIdx) (i : LaneIdx) (xs : List Byte) (y : Byte), s.cfg.engine = .counter →
    countAt (s.db.get n).cnt i = 0 → lane (s.db.get n).last i = false → lane (s.db.get n).state i = true →
    (∀ x ∈ xs, lane x i = false) → lane y i = true → xs.length ≤ s.cfg.d →
    ∃ t, execAll (xs.map (Instr.dbc n.val) ++ [.dbc n.val y]) s = .next t ∧
      lane (t.db.get n).state i = true ∧ lane (t.db.get n).last i = false ∧ countAt (t.db.get n).cnt i = 0 ∧
      (t.db.get n).stage i =
        (match s.cfg.badStages, (s.db.get n).stage i with
         | .one, g => if s.cfg.t1 < xs.length ∧ xs.length < s.cfg.d then .bad else g
         | .two, .clean => if s.cfg.t1 < xs.length ∧ xs.length < s.cfg.d then .suspect else .clean
         | .two, .suspect => .suspect
         | .two, .armed => if s.cfg.t2 < xs.length ∧ xs.length < s.cfg.d then .bad else .armed
         | .two, .bad => .bad)

/-- R106(d): the bad flag of a pressed key clears exactly in the call that accepts its release, never earlier or
later. -/
def Obligations.BadClearsOnRelease : Prop :=
  ∀ (s t : State) (n : LineIdx) (i : LaneIdx) (x : Byte), lane (s.db.get n).state i = true →
    (s.db.get n).stage i = .bad → exec (.dbc n.val x) s = .next t →
    (lane (t.db.get n).state i = false → (t.db.get n).stage i = .clean) ∧
    (lane (t.db.get n).state i = true → (t.db.get n).stage i = .bad)

/-- R105: in a state where no count is above its target, exact match and "reached or exceeded" accept in the
same call. -/
def Obligations.ExactMatchIsReached : Prop :=
  ∀ (s t : State) (n : LineIdx) (i : LaneIdx) (x : Byte), CountBelowTarget s → exec (.dbc n.val x) s = .next t →
    (lane (t.db.get n).last i = true ↔
      lane x i ≠ lane (s.db.get n).state i ∧ targetDelay s.cfg.toCfg (s.db.get n) i ≤ effCount (s.db.get n) i)

/-! ## Finite-state engine (41_fsm_engine.md) -/

/-- R113, R114, R119: the phases OFF and TURNING_ON. -/
def Obligations.DbfOffAndTurningOn : Prop :=
  ∀ (s : State) (n : LineIdx) (x : Byte), s.cfg.engine = .fsm →
    (∀ i, ((s.db.get n).keys.get i).inRange s.cfg.toCfg = true) →
    ∃ t, exec (.dbf n.val x) s = .next t ∧
      ∀ i,
        let k := (s.db.get n).keys.get i
        let k' := (t.db.get n).keys.get i
        (k.phase = .off → k' = (if lane x i then { k with phase := .turningOn } else k)) ∧
        (k.phase = .turningOn → lane x i = true → k' = { k with phase := .lockedOn, cycles := 0 }) ∧
        (k.phase = .turningOn → lane x i = false →
          k' = { k with phase := .off, mult := min (k.mult + s.cfg.multStep) s.cfg.multMax })

/-- R115, R118: the dead zones LOCKED_ON and LOCKED_OFF, mirror images of each other. -/
def Obligations.DbfDeadZones : Prop :=
  ∀ (s : State) (n : LineIdx) (x : Byte), s.cfg.engine = .fsm →
    (∀ i, ((s.db.get n).keys.get i).inRange s.cfg.toCfg = true) →
    ∃ t, exec (.dbf n.val x) s = .next t ∧
      ∀ i,
        let k := (s.db.get n).keys.get i
        let k' := (t.db.get n).keys.get i
        let chatter : Key := { k with cycles := 0, mult := min (k.mult + s.cfg.multStep) s.cfg.multMax }
        (k.phase = .lockedOn →
          (lane x i = false → k' = chatter) ∧
          (lane x i = true → k.cycles + 1 < s.cfg.lockedOnPeriod * k.mult →
            k' = { k with cycles := k.cycles + 1 }) ∧
          (lane x i = true → k.cycles + 1 ≥ s.cfg.lockedOnPeriod * k.mult →
            k' = { k with phase := .on, cycles := k.cycles + 1
                          countdown := s.cfg.keyOnChatterWindow * k.mult })) ∧
        (k.phase = .lockedOff →
          (lane x i = true → k' = chatter) ∧
          (lane x i = false → k.cycles + 1 < s.cfg.lockedOffPeriod * k.mult →
            k' = { k with cycles := k.cycles + 1 }) ∧
          (lane x i = false → k.cycles + 1 ≥ s.cfg.lockedOffPeriod * k.mult →
            k' = { k with phase := .off, cycles := k.cycles + 1 }))

/-- R116, R117, R120: the phases ON and TURNING_OFF; natural-number subtraction is the saturating decrement. -/
def Obligations.DbfOnAndTurningOff : Prop :=
  ∀ (s : State) (n : LineIdx) (x : Byte), s.cfg.engine = .fsm →
    (∀ i, ((s.db.get n).keys.get i).inRange s.cfg.toCfg = true) →
    ∃ t, exec (.dbf n.val x) s = .next t ∧
      ∀ i,
        let k := (s.db.get n).keys.get i
        let k' := (t.db.get n).keys.get i
        (k.phase = .on →
          (lane x i = true → k' = { k with countdown := s.cfg.keyOnChatterWindow * k.mult }) ∧
          (lane x i = false → 2 ≤ k.countdown → k' = { k with countdown := k.countdown - 1 }) ∧
          (lane x i = false → k.countdown ≤ 1 →
            k' = { k with phase := .turningOff, countdown := s.cfg.turningOffChatterWindow * k.mult })) ∧
        (k.phase = .turningOff →
          (lane x i = true →
            k' = { k with phase := .on, countdown := k.countdown - 1
                          mult := min (k.mult + s.cfg.multStep) s.cfg.multMax }) ∧
          (lane x i = false → 2 ≤ k.countdown → k' = { k with countdown := k.countdown - 1 }) ∧
          (lane x i = false → k.countdown ≤ 1 →
            k' = { k with phase := .lockedOff, countdown := 0, cycles := 0 }))

/-- R112: an "on" is emitted only by TURNING_ON with sample 1, an "off" only by TURNING_OFF with sample 0 and a
countdown that reaches 0; the ChangeMask is stored in `last` and returned. -/
def Obligations.DbfEmits : Prop :=
  ∀ (s : State) (n : LineIdx) (x : Byte), s.cfg.engine = .fsm →
    (∀ i, ((s.db.get n).keys.get i).inRange s.cfg.toCfg = true) →
    ∃ t, exec (.dbf n.val x) s = .next t ∧ t.env.result = some (t.db.get n).last ∧
      ∀ i,
        let k := (s.db.get n).keys.get i
        let on := k.phase = .turningOn ∧ lane x i = true
        let off := k.phase = .turningOff ∧ lane x i = false ∧ k.countdown ≤ 1
        (lane (t.db.get n).last i = true ↔ on ∨ off) ∧
        (on → lane (t.db.get n).state i = true) ∧ (off → lane (t.db.get n).state i = false) ∧
        (¬ on → ¬ off → lane (t.db.get n).state i = lane (s.db.get n).state i)

/-- R119, R28, R37(f): no operation but `RESET` ever lowers a chatter multiplier, whatever the state. -/
def Obligations.MultiplierNeverFalls : Prop :=
  ∀ (s t : State) (i : Instr), i ≠ .reset → exec i s = .next t →
    ∀ n j, ((s.db.get n).keys.get j).mult ≤ ((t.db.get n).keys.get j).mult

/-- R121(a), R121(b): from OFF, samples 1, 1 give exactly one accepted "on" and end in LOCKED_ON; samples 1, 0
give no accepted change and, below the maximum, a strictly larger multiplier. -/
def Obligations.FsmFirstTwoSamples : Prop :=
  ∀ (s : State) (n : LineIdx) (i : LaneIdx) (x y : Byte), s.cfg.engine = .fsm →
    (∀ j, ((s.db.get n).keys.get j).inRange s.cfg.toCfg = true) →
    ((s.db.get n).keys.get i).phase = .off → lane x i = true →
    ∃ t u, exec (.dbf n.val x) s = .next t ∧ exec (.dbf n.val y) t = .next u ∧
      lane (t.db.get n).last i = false ∧ lane (t.db.get n).state i = lane (s.db.get n).state i ∧
      (lane y i = true →
        lane (u.db.get n).last i = true ∧ lane (u.db.get n).state i = true ∧
        ((u.db.get n).keys.get i).phase = .lockedOn) ∧
      (lane y i = false →
        lane (u.db.get n).last i = false ∧ lane (u.db.get n).state i = lane (s.db.get n).state i ∧
        (((s.db.get n).keys.get i).mult < s.cfg.multMax →
          ((s.db.get n).keys.get i).mult < ((u.db.get n).keys.get i).mult))

/-- R121(d): from ON with a freshly reset countdown, the stable bit goes to 0 on 0-sample number
`KON×m + TOFF×m` and on no earlier one, and the key is back in OFF after `LOFF×m` further 0-samples. -/
def Obligations.FsmShortestRelease : Prop :=
  ∀ (s : State) (n : LineIdx) (i : LaneIdx) (xs : List Byte), s.cfg.engine = .fsm →
    (∀ j, ((s.db.get n).keys.get j).inRange s.cfg.toCfg = true) →
    ((s.db.get n).keys.get i).phase = .on → lane (s.db.get n).state i = true →
    ((s.db.get n).keys.get i).countdown = s.cfg.keyOnChatterWindow * ((s.db.get n).keys.get i).mult →
    (∀ x ∈ xs, lane x i = false) →
    let m := ((s.db.get n).keys.get i).mult
    let w := s.cfg.keyOnChatterWindow * m + s.cfg.turningOffChatterWindow * m
    ∃ t, execAll (xs.map (Instr.dbf n.val)) s = .next t ∧
      (xs.length < w → lane (t.db.get n).state i = true) ∧
      (xs.length = w → lane (t.db.get n).state i = false ∧ ((t.db.get n).keys.get i).phase = .lockedOff) ∧
      (xs.length = w + s.cfg.lockedOffPeriod * m → ((t.db.get n).keys.get i).phase = .off)

/-- R199(a), R115, R118: while the sample stays opposite, a key stays in its dead zone with its stable bit
unchanged, and the multiplier climbs by MULT_STEP per call up to MULT_MAX. -/
def Obligations.FsmHeldKey : Prop :=
  ∀ (s : State) (n : LineIdx) (i : LaneIdx) (xs : List Byte), s.cfg.engine = .fsm →
    (∀ j, ((s.db.get n).keys.get j).inRange s.cfg.toCfg = true) →
    ((((s.db.get n).keys.get i).phase = .lockedOn ∧ ∀ x ∈ xs, lane x i = false) ∨
     (((s.db.get n).keys.get i).phase = .lockedOff ∧ ∀ x ∈ xs, lane x i = true)) →
    ∃ t, execAll (xs.map (Instr.dbf n.val)) s = .next t ∧
      ((t.db.get n).keys.get i).phase = ((s.db.get n).keys.get i).phase ∧
      lane (t.db.get n).state i = lane (s.db.get n).state i ∧
      ((t.db.get n).keys.get i).mult =
        min (((s.db.get n).keys.get i).mult + xs.length * s.cfg.multStep) s.cfg.multMax

/-- R75; R52 (decisions D32, D38) for the last clause, whose operand is a natural number by log 12: an operation that does not belong to the build is refused, the other eight belong to every
build, a line is driven inside `RESET` and `ROWT` in builds without `DRIVE` too, and a line index out of range is
refused. -/
def Obligations.BuildRefusals : Prop :=
  ∀ (s : State) (n : Nat) (x : Byte),
    (s.cfg.engine = .fsm → exec (.dbc n x) s = .refused .notInBuild) ∧
    (s.cfg.engine = .counter → exec (.dbf n x) s = .refused .notInBuild) ∧
    (s.cfg.scanner = .rowirq → exec .scanm s = .refused .notInBuild ∧
      exec (.drive n) s = .refused .notInBuild ∧ exec .read s = .refused .notInBuild) ∧
    (s.cfg.scanner = .matrix → exec .rowt s = .refused .notInBuild ∧
      exec (.edge x) s = .refused .notInBuild) ∧
    (∀ i ∈ [Instr.reset, .tb, .tick, .poll, .geti, .seti x, .record, .append x],
      exec i s ≠ .refused .notInBuild) ∧
    (∀ t, (exec .reset s = .next t → t.driveSel = 0) ∧ (exec .rowt s = .next t → t.driveSel = t.curRow)) ∧
    (4 ≤ n →
      (s.cfg.engine = .counter → exec (.dbc n x) s = .refused .lineOutOfRange) ∧
      (s.cfg.engine = .fsm → exec (.dbf n x) s = .refused .lineOutOfRange) ∧
      (s.cfg.scanner = .matrix → exec (.drive n) s = .refused .lineOutOfRange))

/-- 93_implementation_defined.md U13: a finite-state build is given no behaviour on a key record outside its
bounds (what the bounds are: log 13). -/
def Obligations.KeyBoundsRefused : Prop :=
  ∀ (s : State) (n : LineIdx) (i : LaneIdx) (x : Byte), s.cfg.engine = .fsm →
    ((s.db.get n).keys.get i).inRange s.cfg.toCfg = false →
    exec (.dbf n.val x) s = .refused .keyOutOfRange ∧
    (s.cfg.scanner = .matrix → exec .scanm s = .refused .keyOutOfRange) ∧
    (s.cfg.scanner = .rowirq → s.curRow = n → exec .rowt s = .refused .keyOutOfRange)

/-! ## Matrix scanner (42_matrix_scanner.md) -/

/-- R132, R133: `DRIVE` and `READ` on their own. A listed answer is the one consumed; where none is listed the
answer is a free value, and the statement holds for every value of it (log 5). -/
def Obligations.DriveAndRead : Prop :=
  ∀ (s : State) (n : LineIdx), s.cfg.scanner = .matrix →
    exec (.drive n.val) s = .next ({ s with driveSel := n }.quiet) ∧
    (∀ a rest, s.env.pins = a :: rest →
      exec .read s = .next { s with env := { s.env with pins := rest, result := some a, chgd := none } }) ∧
    (s.env.pins = [] →
      exec .read s = .next { s with env := { s.env with
        pinCount := s.env.pinCount + 1
        result := some (Config.pinAnswer s.env.pinCount)
        chgd := none } })

/-- R131: the sampling loops consume the listed answers in order, the read with indices `(p, n, r)` taking answer
number `(p × LINES + n) × READS + r`, and end with line 3 driven. -/
def Obligations.SamplingOrder : Prop :=
  ∀ (s : State) (P R : Nat), 1 ≤ P → P * 4 * R ≤ s.env.pins.length →
    let p := runSteps (samplingSteps P R) (Pass.start s)
    (∀ n : LineIdx, p.reads.get n =
      (List.range (P * R)).map (fun j => s.env.pins.getD ((j / R * 4 + n.val) * R + j % R) 0)) ∧
    p.core = { s with driveSel := 3, env := { s.env with pins := s.env.pins.drop (P * 4 * R) } }

/-- R130, R134 to R137: what one matrix-scanner invocation leaves, for whatever the PIN agent answered: per line
a list `v` of `PASSES × READS` reads (the listed answers of R131 where enough are listed). -/
def Obligations.ScanmPass : Prop :=
  ∀ s : State, s.cfg.scanner = .matrix → (∀ n, (s.db.get n).callable s.cfg.toCfg = true) →
    ∃ (t : State) (v : LineIdx → List Byte), exec .scanm s = .next t ∧
      (∀ n, (v n).length = s.cfg.passes * s.cfg.reads) ∧
      (s.cfg.passes * 4 * s.cfg.reads ≤ s.env.pins.length →
        (∀ n : LineIdx, v n = (List.range (s.cfg.passes * s.cfg.reads)).map
          (fun j => s.env.pins.getD ((j / s.cfg.reads * 4 + n.val) * s.cfg.reads + j % s.cfg.reads) 0)) ∧
        t.env.pins = s.env.pins.drop (s.cfg.passes * 4 * s.cfg.reads)) ∧
      (∀ n, ∃ raw, t.db.get n = engineCall s.cfg.toCfg raw (s.db.get n) ∧
        ∀ i, lane raw i = true ↔ 2 * (v n).countP (fun b => lane b i) > s.cfg.passes * s.cfg.reads) ∧
      (∀ n : LineIdx, t.stability.getLsbD n.val = true ↔ ∃ a ∈ v n, ∃ b ∈ v n, a ≠ b) ∧
      t.stability.toNat < 16 ∧
      (let chg := (t.db.get 0).last ||| (t.db.get 1).last ||| (t.db.get 2).last ||| (t.db.get 3).last
       t.env.result = some chg ∧
       t.ringOut = s.ringOut ++ (if chg = 0 then [] else (snapshot t).toList) ∧
       t.gie = (s.gie || chg != 0)) ∧
      t.driveSel = 3 ∧ t.cfg = s.cfg ∧ t.pending = s.pending ∧ t.scanInterval = s.scanInterval ∧
      t.timerCnt = s.timerCnt ∧ t.curRow = s.curRow ∧ t.rowBuf = s.rowBuf ∧ t.lastSample = s.lastSample ∧
      t.changeFlag = s.changeFlag ∧ t.edgeEn = s.edgeEn ∧ t.env.trace = s.env.trace ∧ t.env.chgd = none

/-- R134, CFG7: with the odd number of reads of a valid configuration the vote is never tied: a RawSample bit is
0 exactly when more than half of the reads have 0. -/
def Obligations.MajorityNeverTies : Prop :=
  ∀ (c : ValidCfg) (vs : List Byte) (i : LaneIdx), c.scanner = .matrix → vs.length = c.passes * c.reads →
    (lane (majority vs) i = false ↔ 2 * vs.countP (fun b => !lane b i) > vs.length)

/-! ## Row sampler (43_row_sampler.md) -/

/-- R141: the edge interrupt, when its source is enabled. -/
def Obligations.EdgeEffect : Prop :=
  ∀ (s : State) (v : Byte), s.cfg.scanner = .rowirq → s.edgeEn = true → s.gie = true →
    exec (.edge v) s =
      .next ({ s with changeFlag := s.changeFlag || decide (v ≠ s.lastSample), lastSample := v }.quiet)

/-- R143 to R145: one row-sampler tick: the window, the one debounce call with the captured sample, the recording,
and the reported change flag. -/
def Obligations.RowtTick : Prop :=
  ∀ s : State, s.cfg.scanner = .rowirq → (s.db.get s.curRow).callable s.cfg.toCfg = true →
    ∃ t, exec .rowt s = .next t ∧
      t.rowBuf = s.rowBuf.set s.curRow s.lastSample ∧
      t.curRow.val = (s.curRow.val + 1) % 4 ∧
      t.lastSample = s.rowBuf.get t.curRow ∧ t.changeFlag = false ∧ t.driveSel = t.curRow ∧ t.edgeEn = true ∧
      t.db = s.db.set s.curRow (engineCall s.cfg.toCfg s.lastSample (s.db.get s.curRow)) ∧
      (let chg := (t.db.get s.curRow).last
       t.env = { s.env with result := some chg, chgd := some s.changeFlag } ∧
       t.ringOut = s.ringOut ++ (if chg = 0 then [] else (snapshot t).toList) ∧
       t.gie = (s.gie || chg != 0)) ∧
      t.cfg = s.cfg ∧ t.pending = s.pending ∧ t.scanInterval = s.scanInterval ∧ t.timerCnt = s.timerCnt ∧
      t.stability = s.stability

/-- R143, R146: with no edge between them, four row-sampler ticks come back to the same row and debounce every row
once, each with the sample the sampler holds for it. -/
def Obligations.RoundOfFour : Prop :=
  ∀ s : State, s.cfg.scanner = .rowirq → (∀ n, (s.db.get n).callable s.cfg.toCfg = true) →
    ∃ t, execAll [.rowt, .rowt, .rowt, .rowt] s = .next t ∧ t.curRow = s.curRow ∧
      t.lastSample = s.lastSample ∧
      ∀ n, t.db.get n = engineCall s.cfg.toCfg (if n = s.curRow then s.lastSample else s.rowBuf.get n)
        (s.db.get n)

/-! ## Recorder (45_recorder.md) -/

/-- R160, R161, R163: a recorder burst appends the four stable-state bytes, line 0 first, or their reshuffle, whose
bit `4 × (i mod 2) + n` of byte `i div 2` is bit `i` of line `n`; and `APPEND` lengthens `ring_out` by its byte. -/
def Obligations.RecordAppends : Prop :=
  ∀ (s : State) (b : Byte),
    (∃ out : Quad Byte,
      exec .record s = .next ({ s with ringOut := s.ringOut ++ [out.q0, out.q1, out.q2, out.q3], gie := true }.quiet) ∧
      (s.cfg.reshuffle = false → ∀ n, out.get n = (s.db.get n).state) ∧
      (s.cfg.reshuffle = true → ∀ (n m : LineIdx) (i j : LaneIdx),
        m.val = i.val / 2 → j.val = 4 * (i.val % 2) + n.val →
        lane (out.get m) j = lane (s.db.get n).state i)) ∧
    exec (.append b) s = .next ({ s with ringOut := s.ringOut ++ [b] }.quiet)

/-- R165: the reshuffle composed with its inverse reproduces the original for all inputs, in both orders. -/
def Obligations.ReshuffleRoundTrip : Prop :=
  ∀ S : Quad Byte, unshuffle (reshuffle S) = S ∧ reshuffle (unshuffle S) = S

/-- R63, R161, R162: the core appends to the ring only; every operation but `RESET` and a harness's `APPEND` adds
nothing or the one whole snapshot of the stable states it leaves. -/
def Obligations.RingWholeSnapshots : Prop :=
  ∀ (s t : State) (i : Instr), exec i s = .next t → i ≠ .reset → (∀ b, i ≠ .append b) →
    t.ringOut = s.ringOut ∨ t.ringOut = s.ringOut ++ (snapshot t).toList

/-! ## The whole machine -/

/-- R36, column W: an element changes only in the operations that write it, row by row of the table. An
operation counts as a writer of what the operations it contains write: `TB` contains `TICK`; `POLL` contains the
pass of its build's scanner; a pass contains `DRIVE`, `REC` and the call of its build's engine. -/
def Obligations.OnlyWritersWrite : Prop :=
  ∀ (s t : State) (i : Instr), exec i s = .next t →
    let pass : Prop := i = .scanm ∨ i = .rowt ∨ i = .poll
    (t.scanInterval = s.scanInterval ∨ i = .reset ∨ ∃ v, i = .seti v) ∧
    (t.timerCnt = s.timerCnt ∨ i = .reset ∨ i = .tb ∨ ∃ v, i = .seti v) ∧
    (t.pending = s.pending ∨ i = .reset ∨ i = .tb ∨ i = .tick ∨ i = .poll) ∧
    (t.gie = s.gie ∨ i = .reset ∨ i = .record ∨ pass) ∧
    (t.driveSel = s.driveSel ∨ i = .reset ∨ pass ∨ ∃ n, i = .drive n) ∧
    (t.stability = s.stability ∨ i = .reset ∨ i = .scanm ∨ i = .poll ∧ s.cfg.scanner = .matrix) ∧
    (t.curRow = s.curRow ∧ t.rowBuf = s.rowBuf ∧ t.edgeEn = s.edgeEn ∨
      i = .reset ∨ i = .rowt ∨ i = .poll ∧ s.cfg.scanner = .rowirq) ∧
    (t.lastSample = s.lastSample ∧ t.changeFlag = s.changeFlag ∨
      i = .reset ∨ i = .rowt ∨ (i = .poll ∧ s.cfg.scanner = .rowirq) ∨ ∃ v, i = .edge v) ∧
    (∀ n : LineIdx,
      ((t.db.get n).state = (s.db.get n).state ∧ (t.db.get n).last = (s.db.get n).last ∨
        i = .reset ∨ pass ∨ (∃ x, i = .dbc n.val x) ∨ ∃ x, i = .dbf n.val x) ∧
      ((t.db.get n).stg0 = (s.db.get n).stg0 ∧ (t.db.get n).stg1 = (s.db.get n).stg1 ∧
          (t.db.get n).cnt = (s.db.get n).cnt ∨
        i = .reset ∨ (pass ∧ s.cfg.engine = .counter) ∨ ∃ x, i = .dbc n.val x) ∧
      ((t.db.get n).keys = (s.db.get n).keys ∨
        i = .reset ∨ (pass ∧ s.cfg.engine = .fsm) ∨ ∃ x, i = .dbf n.val x)) ∧
    (t.ringOut = s.ringOut ∨ i = .reset ∨ i = .record ∨ pass ∨ ∃ b, i = .append b)

/-- R38(a), R37(c): the ChangeMask a debounce call returns is exactly the set of state bits it flipped; for the
finite-state engine in a state where the phase tells the stable bit (R38(e)). -/
def Obligations.MaskIsFlips : Prop :=
  ∀ (s t : State) (n : LineIdx) (x : Byte),
    (exec (.dbc n.val x) s = .next t →
      t.env.result = some ((s.db.get n).state ^^^ (t.db.get n).state)) ∧
    (PhaseTellsState s → exec (.dbf n.val x) s = .next t →
      t.env.result = some ((s.db.get n).state ^^^ (t.db.get n).state))

/-- R62, R40(a): no step writes the configuration. -/
def Obligations.BuildNeverWritten : Prop :=
  ∀ s t : State, step s = .next t → t.cfg = s.cfg

/-- R170: no operation of the core can fail: in a state between steps, every operation of the build with operands
that can be encoded completes. -/
def Obligations.NothingFails : Prop :=
  ∀ (s : State) (i : Instr), FsmInv s → i.wellFormed = true → inBuild s.cfg.toCfg i = true →
    ∃ t, exec i s = .next t

/-- R38, R193: the state after reset has the invariant, in every valid build. -/
def Obligations.ResetInv : Prop :=
  ∀ (c : ValidCfg) (e : Env), Inv (State.initial c e)

/-- R38(f), R31, R151, R140, R36: every step keeps the enables up, the unused bits of `stability` zero, the timer
below the interval, the watched row driven, and the elements the build lacks at their reset values. -/
def Obligations.StepKeepsSystemInv : Prop :=
  ∀ s t : State, SystemInv s → step s = .next t → SystemInv t

/-- R38(b), R38(d), R37(d), R24: every step keeps, in a counter build, the counters within `N` planes and at most
at their targets, and a key flagged bad only while it is pressed. -/
def Obligations.StepKeepsCounterInv : Prop :=
  ∀ s t : State, CounterInv s → step s = .next t → CounterInv t

/-- R28, R38(e): every step keeps, in a finite-state build, every key record inside its bounds and the phase in
agreement with the stable bit. -/
def Obligations.StepKeepsFsmInv : Prop :=
  ∀ s t : State, FsmInv s → step s = .next t → FsmInv t

/-- R61(d), matrix scanner: however steps `TB`, `TICK`, `GETI` and `SETI` of the other agents are ordered between
the atomic steps of a pass, the pass ends in the state that the whole `POLL` followed by those steps leaves, with
the same ChangeMask (an `EDGE` is no step of this build, log 21). R56, R191 (log 18): a `RESET` wherever in the
pass ends it; what stays is what a `RESET` in place of the `POLL` and the steps after it leave, but that the pass
has taken answers of the PIN agent. -/
def Obligations.MatrixPollAtomic : Prop :=
  ∀ s : State, s.cfg.scanner = .matrix → s.pending = true →
    let start := Activity.inPass (Pass.start { s with pending := false })
    (∀ as : List AtomicStep, EnablesUp s → (∀ n, (s.db.get n).callable s.cfg.toCfg = true) →
      mainSteps as = matrixSteps s.cfg.passes s.cfg.reads → .reset ∉ agentEvents as →
      ∃ p t, runAtomic as start = .inPass p ∧ exec .poll s = .next t ∧ t.env.result = some p.chg ∧
        p.core.quiet = (applyEvents (agentEvents as) t).quiet) ∧
    (∀ pre post : List AtomicStep, ∃ k cnt u t,
      runAtomic (pre ++ .agent .reset :: post) start = .idle u ∧
      exec .reset { s with env := { s.env with pins := s.env.pins.drop k, pinCount := cnt } } = .next t ∧
      u.quiet = (applyEvents (agentEvents post) t).quiet)

/-- R61(d), R58(a), row sampler: steps `TB`, `TICK`, `GETI`, `SETI` and `EDGE` of the other agents that fall between
the test-and-clear and the window (`pre`), or after the window (among `as`), may all be ordered around the whole
`POLL`: an `EDGE` of `pre` before it, every other step after it. R56, R191 (log 18): a `RESET` wherever in the pass
ends it; what stays is what a `RESET` in place of the `POLL` and the steps after it leave. -/
def Obligations.RowPollAtomic : Prop :=
  ∀ s : State, s.cfg.scanner = .rowirq → s.pending = true →
    let start := Activity.inPass (Pass.start { s with pending := false })
    (∀ (pre : List AgentEvent) (as : List AtomicStep), EnablesUp s →
      (s.db.get s.curRow).callable s.cfg.toCfg = true → mainSteps as = [.debounceRow, .record] →
      .reset ∉ pre → .reset ∉ agentEvents as →
      ∃ p t, runAtomic (pre.map .agent ++ .main .window :: as) start = .inPass p ∧
        exec .poll (applyEvents (pre.filter (fun e => e.isEdge)) s) = .next t ∧
        t.env.result = some p.chg ∧ t.env.chgd = p.chgd ∧
        p.core.quiet = (applyEvents (pre.filter (fun e => !e.isEdge) ++ agentEvents as) t).quiet) ∧
    (∀ pre post : List AtomicStep, (∀ m ∈ mainSteps pre, m ∈ rowSteps) →
      ∃ u t, runAtomic (pre ++ .agent .reset :: post) start = .idle u ∧ exec .reset s = .next t ∧
        u.quiet = (applyEvents (agentEvents post) t).quiet)
end

