-- ==== Sys2Proof/Laws/Bits.lean ====
section
/-! SUPPORT. The small lemmas of the lane-wise notation: bytes by lanes, the two fixed-size arrays, and the
numbers stored across bit planes (00_scope.md R13, R14, 10_state.md R23). -/

namespace Sys2Proof

@[simp] theorem lane_ofLanes (f : LaneIdx → Bool) (i : LaneIdx) : lane (ofLanes f) i = f i := by
  unfold lane ofLanes
  rw [BitVec.getLsbD_ofBoolListLE]
  fin_cases i <;> rfl

/-- Two bytes with the same lanes are equal. -/
theorem byte_ext {a b : Byte} (h : ∀ i, lane a i = lane b i) : a = b := by
  apply BitVec.eq_of_getLsbD_eq
  intro i hi
  exact h ⟨i, hi⟩

@[simp] theorem lane_and (a b : Byte) (i : LaneIdx) : lane (a &&& b) i = (lane a i && lane b i) := by
  simp [lane]

@[simp] theorem lane_or (a b : Byte) (i : LaneIdx) : lane (a ||| b) i = (lane a i || lane b i) := by
  simp [lane]

@[simp] theorem lane_xor (a b : Byte) (i : LaneIdx) : lane (a ^^^ b) i = (lane a i != lane b i) := by
  simp [lane]

@[simp] theorem lane_not (a : Byte) (i : LaneIdx) : lane (~~~a) i = !lane a i := by
  simp [lane, i.isLt]

@[simp] theorem lane_zero (i : LaneIdx) : lane 0#8 i = false := by
  simp [lane]

@[simp] theorem lane_ones (i : LaneIdx) : lane 0xFF#8 i = true := by
  fin_cases i <;> rfl

@[simp] theorem ofLanes_lane (b : Byte) : ofLanes (lane b) = b :=
  byte_ext (fun i => by simp)

/-- A byte is zero when every lane is. -/
theorem byte_eq_zero_iff (b : Byte) : b = 0#8 ↔ ∀ i, lane b i = false := by
  constructor
  · intro h i
    rw [h, lane_zero]
  · intro h
    exact byte_ext (fun i => by rw [h i, lane_zero])

@[simp] theorem Quad.get_ofFn {α : Type} (f : LineIdx → α) (n : LineIdx) : (Quad.ofFn f).get n = f n := by
  fin_cases n <;> rfl

theorem Quad.ext_get {α : Type} {a b : Quad α} (h : ∀ n, a.get n = b.get n) : a = b := by
  cases a
  cases b
  simpa using ⟨h 0, h 1, h 2, h 3⟩

/-- Reading after a write: the value written at its own index, the old one elsewhere. -/
theorem Quad.get_set {α : Type} (q : Quad α) (n m : LineIdx) (v : α) :
    (q.set n v).get m = if m = n then v else q.get m := by
  fin_cases n <;> fin_cases m <;> rfl

@[simp] theorem Quad.get_set_self {α : Type} (q : Quad α) (n : LineIdx) (v : α) : (q.set n v).get n = v := by
  simp [Quad.get_set]

theorem Quad.get_set_ne {α : Type} (q : Quad α) {n m : LineIdx} (v : α) (h : m ≠ n) :
    (q.set n v).get m = q.get m := by
  simp [Quad.get_set, h]

theorem Quad.set_get_self {α : Type} (q : Quad α) (n : LineIdx) : q.set n (q.get n) = q :=
  Quad.ext_get (fun m => by rw [Quad.get_set]; split <;> simp_all)

theorem Quad.toList_all {α : Type} (q : Quad α) (p : α → Bool) :
    q.toList.all p = true ↔ ∀ n, p (q.get n) = true := by
  simp only [Quad.toList, List.all_cons, List.all_nil, Bool.and_true, Bool.and_eq_true]
  constructor
  · intro ⟨h0, h1, h2, h3⟩ n
    fin_cases n <;> assumption
  · intro h
    exact ⟨h 0, h 1, h 2, h 3⟩

@[simp] theorem Octet.get_ofFn {α : Type} (f : LaneIdx → α) (i : LaneIdx) : (Octet.ofFn f).get i = f i := by
  fin_cases i <;> rfl

theorem Octet.ext_get {α : Type} {a b : Octet α} (h : ∀ i, a.get i = b.get i) : a = b := by
  cases a
  cases b
  simpa using ⟨h 0, h 1, h 2, h 3, h 4, h 5, h 6, h 7⟩

theorem Octet.toList_all {α : Type} (o : Octet α) (p : α → Bool) :
    o.toList.all p = true ↔ ∀ i, p (o.get i) = true := by
  simp only [Octet.toList, List.all_cons, List.all_nil, Bool.and_true, Bool.and_eq_true]
  constructor
  · intro ⟨h0, h1, h2, h3, h4, h5, h6, h7⟩ i
    fin_cases i <;> assumption
  · intro h
    exact ⟨h 0, h 1, h 2, h 3, h 4, h 5, h 6, h 7⟩

/-- `bitlen(v)` is the least width that holds `v` (00_scope.md R9). -/
theorem bitlen_le_iff (v w : Nat) : bitlen v ≤ w ↔ v < 2 ^ w := by
  unfold bitlen
  split
  · rename_i h
    simp [h]
  · rename_i h
    rw [Nat.add_one_le_iff, Nat.log2_lt h]

theorem lt_two_pow_bitlen (v : Nat) : v < 2 ^ bitlen v :=
  (bitlen_le_iff v _).mp (Nat.le_refl _)

theorem Cfg.d_lt_planes (c : Cfg) : c.d < 2 ^ c.planes :=
  Nat.lt_of_le_of_lt (Nat.le_max_left _ _) (lt_two_pow_bitlen _)

theorem Cfg.dBad_lt_planes (c : Cfg) : c.dBad < 2 ^ c.planes :=
  Nat.lt_of_le_of_lt (Nat.le_max_right _ _) (lt_two_pow_bitlen _)

namespace Machine

@[simp] theorem length_planesOf (k : Nat) (f : LaneIdx → Nat) : (planesOf k f).length = k := by
  induction k generalizing f with
  | zero => rfl
  | succ k ih => simp [planesOf, ih]

/-- Storing a number across `k` planes and reading it back gives it modulo `2^k`. -/
theorem countAt_planesOf (k : Nat) (f : LaneIdx → Nat) (i : LaneIdx) :
    countAt (planesOf k f) i = f i % 2 ^ k := by
  induction k generalizing f with
  | zero => simp [planesOf, countAt, Nat.mod_one]
  | succ k ih =>
    simp only [planesOf, countAt, lane_ofLanes, ih]
    have h : (f i % 2 == 1).toNat = f i % 2 := by
      rcases Nat.mod_two_eq_zero_or_one (f i) with h | h <;> simp [h]
    rw [h, Nat.pow_succ, Nat.mul_comm (2 ^ k) 2, Nat.mod_mul]

/-- `k` planes hold numbers below `2^k`. -/
theorem countAt_lt (ps : List Byte) (i : LaneIdx) : countAt ps i < 2 ^ ps.length := by
  induction ps with
  | nil => simp [countAt]
  | cons p ps ih =>
    simp only [countAt, List.length_cons, Nat.pow_succ]
    have : (lane p i).toNat ≤ 1 := Bool.toNat_le _
    omega

theorem countAt_replicate_zero (k : Nat) (i : LaneIdx) : countAt (List.replicate k 0#8) i = 0 := by
  induction k with
  | zero => rfl
  | succ k ih => simp [List.replicate_succ, countAt, ih]

end Machine

end Sys2Proof
end

