-- ==== Sys2Proof/Laws/Config.lean ====
section
/-! SUPPORT. What a valid configuration guarantees, check by check (00_scope.md R12). -/

namespace Sys2Proof.Machine

theorem cfg_valid_iff (c : Cfg) : c.valid = true ↔ ∀ k, c.passes? k = true := by
  simp only [Cfg.valid, Cfg.failures, List.isEmpty_iff, List.filter_eq_nil_iff]
  constructor
  · intro h k
    have := h k (by cases k <;> simp [cfgCodes])
    simpa using this
  · intro h k _
    simp [h k]

theorem cfg_mem_failures (c : Cfg) (k : CfgCode) : k ∈ c.failures ↔ c.passes? k = false := by
  simp only [Cfg.failures, List.mem_filter, Bool.not_eq_true']
  constructor
  · exact And.right
  · intro h
    exact ⟨by cases k <;> simp [cfgCodes], h⟩

variable (c : ValidCfg)

theorem ValidCfg.check (k : CfgCode) : c.passes? k = true :=
  (cfg_valid_iff c.toCfg).mp c.isValid k

/-- CFG1: the normal delay is at least 1. -/
theorem ValidCfg.d_pos : 1 ≤ c.d := by
  simpa [Cfg.passes?] using c.check .cfg1

/-- CFG2: the bad-release delay is longer. -/
theorem ValidCfg.d_lt_dBad : c.d < c.dBad := by
  simpa [Cfg.passes?] using c.check .cfg2

/-- CFG4: the bad threshold is below the normal delay. -/
theorem ValidCfg.t1_lt_d : c.t1 < c.d := by
  have := c.check .cfg4
  simp [Cfg.passes?] at this
  exact this.1

/-- CFG5: in a two-stage build the thresholds rise and stay below the normal delay. -/
theorem ValidCfg.two_stages (h : c.badStages = .two) : c.t1 < c.t2 ∧ c.t2 < c.d := by
  simpa [Cfg.passes?, h] using c.check .cfg5

/-- CFG6: the windows of a finite-state build are at least 1 call long. -/
theorem ValidCfg.windows_pos (h : c.engine = .fsm) :
    1 ≤ c.lockedOnPeriod ∧ 1 ≤ c.keyOnChatterWindow ∧ 1 ≤ c.turningOffChatterWindow ∧ 1 ≤ c.lockedOffPeriod := by
  have := c.check .cfg6
  simp [Cfg.passes?, h, Cfg.fsmOk] at this
  omega

/-- CFG6: the multiplier's step and maximum in a finite-state build. -/
theorem ValidCfg.mult_bounds (h : c.engine = .fsm) : 1 ≤ c.multStep ∧ 1 + c.multStep ≤ c.multMax := by
  have := c.check .cfg6
  simp [Cfg.passes?, h, Cfg.fsmOk] at this
  omega

/-- CFG7: a matrix build reads a line an odd number of times. -/
theorem ValidCfg.reads_odd (h : c.scanner = .matrix) :
    1 ≤ c.reads ∧ 1 ≤ c.passes ∧ c.reads * c.passes % 2 = 1 := by
  have := c.check .cfg7
  simp [Cfg.passes?, h] at this
  omega

/-- CFG8: the reset value of the interval fits 8 bits. -/
theorem ValidCfg.interval_fits : c.intervalReset < 256 := by
  simpa [Cfg.passes?] using c.check .cfg8

end Sys2Proof.Machine
end

