-- ==== Sys2Proof/Laws/Engines.lean ====
section
/-! SUPPORT. What one debounce call does to one lane, for each engine, and what it leaves alone. -/

namespace Sys2Proof.Machine

/-! The counter engine, lane by lane (R91 to R99) -/

@[simp] theorem counterCall_lane_last (c : Cfg) (x : Byte) (l : Line) (i : LaneIdx) :
    lane (counterCall c x l).last i = accepts c x l i := by
  simp [counterCall, acceptMask]

@[simp] theorem counterCall_lane_state (c : Cfg) (x : Byte) (l : Line) (i : LaneIdx) :
    lane (counterCall c x l).state i = (lane l.state i != accepts c x l i) := by
  simp [counterCall, acceptMask]

theorem Stage.ofBits_bits (g : Stage) : Stage.ofBits g.bit1 g.bit0 = g := by
  cases g <;> rfl

@[simp] theorem counterCall_stage (c : Cfg) (x : Byte) (l : Line) (i : LaneIdx) :
    (counterCall c x l).stage i = stageAfter c x l i := by
  simp [counterCall, Line.stage, Stage.ofBits_bits]

theorem countAfter_lt (c : Cfg) (x : Byte) (l : Line) (i : LaneIdx) : countAfter c x l i < 2 ^ c.planes := by
  unfold countAfter
  have : 0 < 2 ^ c.planes := Nat.two_pow_pos _
  split
  · exact this
  · split
    · exact Nat.mod_lt _ this
    · exact this

@[simp] theorem counterCall_count (c : Cfg) (x : Byte) (l : Line) (i : LaneIdx) :
    (counterCall c x l).count i = countAfter c x l i := by
  simp only [Line.count, counterCall, countAt_planesOf]
  exact Nat.mod_eq_of_lt (countAfter_lt c x l i)

@[simp] theorem counterCall_planes (c : Cfg) (x : Byte) (l : Line) : (counterCall c x l).cnt.length = c.planes := by
  simp [counterCall]

@[simp] theorem counterCall_keys (c : Cfg) (x : Byte) (l : Line) : (counterCall c x l).keys = l.keys := rfl

theorem Line.stage_bad_iff (l : Line) (i : LaneIdx) : l.stage i = .bad ↔ lane l.bad i = true := by
  unfold Line.stage Line.bad Stage.ofBits
  rw [lane_and]
  split <;> simp_all

/-- A lane that accepts has a differing sample and its exact count (R94). -/
theorem accepts_iff (c : Cfg) (x : Byte) (l : Line) (i : LaneIdx) :
    accepts c x l i = true ↔ differs x l i = true ∧ effCount l i = targetDelay c l i := by
  simp [accepts]

theorem differs_iff (x : Byte) (l : Line) (i : LaneIdx) :
    differs x l i = true ↔ lane x i ≠ lane l.state i := by
  simp [differs]

/-- The target delay of a lane is at least 1 and fits the counter planes (CFG1, CFG2, CFG3). -/
theorem targetDelay_bounds (c : ValidCfg) (l : Line) (i : LaneIdx) :
    1 ≤ targetDelay c.toCfg l i ∧ targetDelay c.toCfg l i < 2 ^ c.planes := by
  have h1 := c.d_pos
  have h2 := c.d_lt_dBad
  have h3 := c.toCfg.dBad_lt_planes
  unfold targetDelay
  split <;> omega

/-- In the call after an acceptance a lane does not accept, whatever its sample (R94). -/
theorem not_accepts_of_last (c : ValidCfg) (x : Byte) {l : Line} {i : LaneIdx} (h : lane l.last i = true) :
    accepts c.toCfg x l i = false := by
  have := (targetDelay_bounds c l i).1
  simp only [accepts, effCount, h, if_true, Bool.and_eq_false_iff, beq_eq_false_iff_ne]
  right
  omega

/-! The finite-state engine, key by key (R111 to R118) -/

@[simp] theorem fsmCall_key (c : Cfg) (x : Byte) (l : Line) (i : LaneIdx) :
    (fsmCall c x l).keys.get i = (keyCall c (lane x i) (l.keys.get i)).1 := by
  simp [fsmCall]

@[simp] theorem fsmCall_lane_last (c : Cfg) (x : Byte) (l : Line) (i : LaneIdx) :
    lane (fsmCall c x l).last i = (keyCall c (lane x i) (l.keys.get i)).2.changeBit := by
  simp [fsmCall]

@[simp] theorem fsmCall_lane_state (c : Cfg) (x : Byte) (l : Line) (i : LaneIdx) :
    lane (fsmCall c x l).state i = (keyCall c (lane x i) (l.keys.get i)).2.stateBit (lane l.state i) := by
  simp [fsmCall]

@[simp] theorem fsmCall_stg0 (c : Cfg) (x : Byte) (l : Line) : (fsmCall c x l).stg0 = l.stg0 := rfl

@[simp] theorem fsmCall_stg1 (c : Cfg) (x : Byte) (l : Line) : (fsmCall c x l).stg1 = l.stg1 := rfl

@[simp] theorem fsmCall_cnt (c : Cfg) (x : Byte) (l : Line) : (fsmCall c x l).cnt = l.cnt := rfl

theorem dec_eq (v : Nat) : dec v = v - 1 := by
  unfold dec
  split <;> omega

/-- `bump` never lowers a multiplier that is not above its maximum (R119). -/
theorem le_bumped {c : Cfg} {m : Nat} (h : m ≤ c.multMax) : m ≤ bumped c m := by
  simp [bumped, h]

theorem bumped_le (c : Cfg) (m : Nat) : bumped c m ≤ c.multMax := by
  simp [bumped]

/-- What a call of one key can do to it: the six rules R113 to R118, each by its phase and sample. -/
theorem keyCall_cases (c : Cfg) (x : Bool) (k : Key) :
    (k.phase = .off ∧ keyCall c x k = callOff x k) ∨
    (k.phase = .turningOn ∧ keyCall c x k = callTurningOn c x k) ∨
    (k.phase = .lockedOn ∧ keyCall c x k = callLockedOn c x k) ∨
    (k.phase = .on ∧ keyCall c x k = callOn c x k) ∨
    (k.phase = .turningOff ∧ keyCall c x k = callTurningOff c x k) ∨
    (k.phase = .lockedOff ∧ keyCall c x k = callLockedOff c x k) := by
  unfold keyCall
  cases k.phase <;> simp

/-- Reading the code of a phase gives the phase back (R78). -/
@[simp] theorem Phase.ofCode_code (p : Phase) : Phase.ofCode p.code = some p := by
  cases p <;> rfl

/-- A 3-bit field holds a phase exactly when it is the phase's code (R78). -/
theorem Phase.ofCode_eq_some {w : BitVec 3} {p : Phase} : Phase.ofCode w = some p ↔ w = p.code := by
  revert w
  cases p <;> decide

/-- The codes 6 and 7, and no others, are no phase (R78). -/
theorem Phase.ofCode_eq_none {w : BitVec 3} : Phase.ofCode w = none ↔ w = 6 ∨ w = 7 := by
  revert w
  decide

/-- One call keeps a key's phase code, moves it one on around 0, 1, 2, 3, 4, 5, 0, or goes back from 1 to 0 or from
4 to 3, the two chatter transitions (R78). -/
theorem keyCall_phase_code (c : Cfg) (x : Bool) (k : Key) :
    (keyCall c x k).1.phase.code = k.phase.code ∨
    (keyCall c x k).1.phase.code.toNat = (k.phase.code.toNat + 1) % 6 ∨
    (k.phase.code = 1 ∧ (keyCall c x k).1.phase.code = 0) ∨
    (k.phase.code = 4 ∧ (keyCall c x k).1.phase.code = 3) := by
  rcases keyCall_cases c x k with ⟨h, e⟩ | ⟨h, e⟩ | ⟨h, e⟩ | ⟨h, e⟩ | ⟨h, e⟩ | ⟨h, e⟩ <;>
    simp only [e, callOff, callTurningOn, callLockedOn, callOn, callTurningOff, callLockedOff] <;>
    (repeat' split) <;> simp [h, Phase.code]

/-- A call leaves the multiplier alone or bumps it (R119). -/
theorem keyCall_mult (c : Cfg) (x : Bool) (k : Key) :
    (keyCall c x k).1.mult = k.mult ∨ (keyCall c x k).1.mult = bumped c k.mult := by
  unfold keyCall callOff callTurningOn callLockedOn callOn callTurningOff callLockedOff
  cases k.phase <;> simp only <;> split <;> (try split) <;> simp

/-! The build's engine (R83) -/

theorem engineCall_counter {c : Cfg} (h : c.engine = .counter) (x : Byte) (l : Line) :
    engineCall c x l = counterCall c x l := by
  simp [engineCall, h]

theorem engineCall_fsm {c : Cfg} (h : c.engine = .fsm) (x : Byte) (l : Line) :
    engineCall c x l = fsmCall c x l := by
  simp [engineCall, h]

end Sys2Proof.Machine
end

