-- ==== Sys2Proof/Laws/State.lean ====
section
/-! SUPPORT. One lemma per field of State per update, each true by rfl: what an update leaves in every field. -/

namespace Sys2Proof.Machine

variable (s : State)

/-! `report` -/

@[simp] theorem report_cfg (r : Option Byte) (c : Option Bool) : (s.report r c).cfg = s.cfg := rfl
@[simp] theorem report_db (r : Option Byte) (c : Option Bool) : (s.report r c).db = s.db := rfl
@[simp] theorem report_pending (r : Option Byte) (c : Option Bool) : (s.report r c).pending = s.pending := rfl
@[simp] theorem report_scanInterval (r : Option Byte) (c : Option Bool) : (s.report r c).scanInterval = s.scanInterval := rfl
@[simp] theorem report_timerCnt (r : Option Byte) (c : Option Bool) : (s.report r c).timerCnt = s.timerCnt := rfl
@[simp] theorem report_gie (r : Option Byte) (c : Option Bool) : (s.report r c).gie = s.gie := rfl
@[simp] theorem report_driveSel (r : Option Byte) (c : Option Bool) : (s.report r c).driveSel = s.driveSel := rfl
@[simp] theorem report_stability (r : Option Byte) (c : Option Bool) : (s.report r c).stability = s.stability := rfl
@[simp] theorem report_curRow (r : Option Byte) (c : Option Bool) : (s.report r c).curRow = s.curRow := rfl
@[simp] theorem report_rowBuf (r : Option Byte) (c : Option Bool) : (s.report r c).rowBuf = s.rowBuf := rfl
@[simp] theorem report_lastSample (r : Option Byte) (c : Option Bool) : (s.report r c).lastSample = s.lastSample := rfl
@[simp] theorem report_changeFlag (r : Option Byte) (c : Option Bool) : (s.report r c).changeFlag = s.changeFlag := rfl
@[simp] theorem report_edgeEn (r : Option Byte) (c : Option Bool) : (s.report r c).edgeEn = s.edgeEn := rfl
@[simp] theorem report_ringOut (r : Option Byte) (c : Option Bool) : (s.report r c).ringOut = s.ringOut := rfl
@[simp] theorem report_env (r : Option Byte) (c : Option Bool) : (s.report r c).env = { s.env with result := r, chgd := c } := rfl

/-! `pinDrive` -/

@[simp] theorem pinDrive_cfg (n : LineIdx) : (pinDrive n s).cfg = s.cfg := rfl
@[simp] theorem pinDrive_db (n : LineIdx) : (pinDrive n s).db = s.db := rfl
@[simp] theorem pinDrive_pending (n : LineIdx) : (pinDrive n s).pending = s.pending := rfl
@[simp] theorem pinDrive_scanInterval (n : LineIdx) : (pinDrive n s).scanInterval = s.scanInterval := rfl
@[simp] theorem pinDrive_timerCnt (n : LineIdx) : (pinDrive n s).timerCnt = s.timerCnt := rfl
@[simp] theorem pinDrive_gie (n : LineIdx) : (pinDrive n s).gie = s.gie := rfl
@[simp] theorem pinDrive_driveSel (n : LineIdx) : (pinDrive n s).driveSel = n := rfl
@[simp] theorem pinDrive_stability (n : LineIdx) : (pinDrive n s).stability = s.stability := rfl
@[simp] theorem pinDrive_curRow (n : LineIdx) : (pinDrive n s).curRow = s.curRow := rfl
@[simp] theorem pinDrive_rowBuf (n : LineIdx) : (pinDrive n s).rowBuf = s.rowBuf := rfl
@[simp] theorem pinDrive_lastSample (n : LineIdx) : (pinDrive n s).lastSample = s.lastSample := rfl
@[simp] theorem pinDrive_changeFlag (n : LineIdx) : (pinDrive n s).changeFlag = s.changeFlag := rfl
@[simp] theorem pinDrive_edgeEn (n : LineIdx) : (pinDrive n s).edgeEn = s.edgeEn := rfl
@[simp] theorem pinDrive_ringOut (n : LineIdx) : (pinDrive n s).ringOut = s.ringOut := rfl
@[simp] theorem pinDrive_env (n : LineIdx) : (pinDrive n s).env = s.env := rfl

/-! `ringAppend` -/

@[simp] theorem ringAppend_cfg (b : Byte) : (ringAppend b s).cfg = s.cfg := rfl
@[simp] theorem ringAppend_db (b : Byte) : (ringAppend b s).db = s.db := rfl
@[simp] theorem ringAppend_pending (b : Byte) : (ringAppend b s).pending = s.pending := rfl
@[simp] theorem ringAppend_scanInterval (b : Byte) : (ringAppend b s).scanInterval = s.scanInterval := rfl
@[simp] theorem ringAppend_timerCnt (b : Byte) : (ringAppend b s).timerCnt = s.timerCnt := rfl
@[simp] theorem ringAppend_gie (b : Byte) : (ringAppend b s).gie = s.gie := rfl
@[simp] theorem ringAppend_driveSel (b : Byte) : (ringAppend b s).driveSel = s.driveSel := rfl
@[simp] theorem ringAppend_stability (b : Byte) : (ringAppend b s).stability = s.stability := rfl
@[simp] theorem ringAppend_curRow (b : Byte) : (ringAppend b s).curRow = s.curRow := rfl
@[simp] theorem ringAppend_rowBuf (b : Byte) : (ringAppend b s).rowBuf = s.rowBuf := rfl
@[simp] theorem ringAppend_lastSample (b : Byte) : (ringAppend b s).lastSample = s.lastSample := rfl
@[simp] theorem ringAppend_changeFlag (b : Byte) : (ringAppend b s).changeFlag = s.changeFlag := rfl
@[simp] theorem ringAppend_edgeEn (b : Byte) : (ringAppend b s).edgeEn = s.edgeEn := rfl
@[simp] theorem ringAppend_ringOut (b : Byte) : (ringAppend b s).ringOut = s.ringOut ++ [b] := rfl
@[simp] theorem ringAppend_env (b : Byte) : (ringAppend b s).env = s.env := rfl

/-! `setLine` -/

@[simp] theorem setLine_cfg (n : LineIdx) (l : Line) : (setLine n l s).cfg = s.cfg := rfl
@[simp] theorem setLine_db (n : LineIdx) (l : Line) : (setLine n l s).db = s.db.set n l := rfl
@[simp] theorem setLine_pending (n : LineIdx) (l : Line) : (setLine n l s).pending = s.pending := rfl
@[simp] theorem setLine_scanInterval (n : LineIdx) (l : Line) : (setLine n l s).scanInterval = s.scanInterval := rfl
@[simp] theorem setLine_timerCnt (n : LineIdx) (l : Line) : (setLine n l s).timerCnt = s.timerCnt := rfl
@[simp] theorem setLine_gie (n : LineIdx) (l : Line) : (setLine n l s).gie = s.gie := rfl
@[simp] theorem setLine_driveSel (n : LineIdx) (l : Line) : (setLine n l s).driveSel = s.driveSel := rfl
@[simp] theorem setLine_stability (n : LineIdx) (l : Line) : (setLine n l s).stability = s.stability := rfl
@[simp] theorem setLine_curRow (n : LineIdx) (l : Line) : (setLine n l s).curRow = s.curRow := rfl
@[simp] theorem setLine_rowBuf (n : LineIdx) (l : Line) : (setLine n l s).rowBuf = s.rowBuf := rfl
@[simp] theorem setLine_lastSample (n : LineIdx) (l : Line) : (setLine n l s).lastSample = s.lastSample := rfl
@[simp] theorem setLine_changeFlag (n : LineIdx) (l : Line) : (setLine n l s).changeFlag = s.changeFlag := rfl
@[simp] theorem setLine_edgeEn (n : LineIdx) (l : Line) : (setLine n l s).edgeEn = s.edgeEn := rfl
@[simp] theorem setLine_ringOut (n : LineIdx) (l : Line) : (setLine n l s).ringOut = s.ringOut := rfl
@[simp] theorem setLine_env (n : LineIdx) (l : Line) : (setLine n l s).env = s.env := rfl

/-! `setPending` -/

@[simp] theorem setPending_cfg : (setPending s).cfg = s.cfg := rfl
@[simp] theorem setPending_db : (setPending s).db = s.db := rfl
@[simp] theorem setPending_pending : (setPending s).pending = true := rfl
@[simp] theorem setPending_scanInterval : (setPending s).scanInterval = s.scanInterval := rfl
@[simp] theorem setPending_timerCnt : (setPending s).timerCnt = s.timerCnt := rfl
@[simp] theorem setPending_gie : (setPending s).gie = s.gie := rfl
@[simp] theorem setPending_driveSel : (setPending s).driveSel = s.driveSel := rfl
@[simp] theorem setPending_stability : (setPending s).stability = s.stability := rfl
@[simp] theorem setPending_curRow : (setPending s).curRow = s.curRow := rfl
@[simp] theorem setPending_rowBuf : (setPending s).rowBuf = s.rowBuf := rfl
@[simp] theorem setPending_lastSample : (setPending s).lastSample = s.lastSample := rfl
@[simp] theorem setPending_changeFlag : (setPending s).changeFlag = s.changeFlag := rfl
@[simp] theorem setPending_edgeEn : (setPending s).edgeEn = s.edgeEn := rfl
@[simp] theorem setPending_ringOut : (setPending s).ringOut = s.ringOut := rfl
@[simp] theorem setPending_env : (setPending s).env = s.env := rfl

/-! `setInterval` -/

@[simp] theorem setInterval_cfg (v : Byte) : (setInterval v s).cfg = s.cfg := rfl
@[simp] theorem setInterval_db (v : Byte) : (setInterval v s).db = s.db := rfl
@[simp] theorem setInterval_pending (v : Byte) : (setInterval v s).pending = s.pending := rfl
@[simp] theorem setInterval_scanInterval (v : Byte) : (setInterval v s).scanInterval = v := rfl
@[simp] theorem setInterval_timerCnt (v : Byte) : (setInterval v s).timerCnt = 0 := rfl
@[simp] theorem setInterval_gie (v : Byte) : (setInterval v s).gie = s.gie := rfl
@[simp] theorem setInterval_driveSel (v : Byte) : (setInterval v s).driveSel = s.driveSel := rfl
@[simp] theorem setInterval_stability (v : Byte) : (setInterval v s).stability = s.stability := rfl
@[simp] theorem setInterval_curRow (v : Byte) : (setInterval v s).curRow = s.curRow := rfl
@[simp] theorem setInterval_rowBuf (v : Byte) : (setInterval v s).rowBuf = s.rowBuf := rfl
@[simp] theorem setInterval_lastSample (v : Byte) : (setInterval v s).lastSample = s.lastSample := rfl
@[simp] theorem setInterval_changeFlag (v : Byte) : (setInterval v s).changeFlag = s.changeFlag := rfl
@[simp] theorem setInterval_edgeEn (v : Byte) : (setInterval v s).edgeEn = s.edgeEn := rfl
@[simp] theorem setInterval_ringOut (v : Byte) : (setInterval v s).ringOut = s.ringOut := rfl
@[simp] theorem setInterval_env (v : Byte) : (setInterval v s).env = s.env := rfl

/-! `edgeHandler` -/

@[simp] theorem edgeHandler_cfg (v : Byte) : (edgeHandler v s).cfg = s.cfg := rfl
@[simp] theorem edgeHandler_db (v : Byte) : (edgeHandler v s).db = s.db := rfl
@[simp] theorem edgeHandler_pending (v : Byte) : (edgeHandler v s).pending = s.pending := rfl
@[simp] theorem edgeHandler_scanInterval (v : Byte) : (edgeHandler v s).scanInterval = s.scanInterval := rfl
@[simp] theorem edgeHandler_timerCnt (v : Byte) : (edgeHandler v s).timerCnt = s.timerCnt := rfl
@[simp] theorem edgeHandler_gie (v : Byte) : (edgeHandler v s).gie = s.gie := rfl
@[simp] theorem edgeHandler_driveSel (v : Byte) : (edgeHandler v s).driveSel = s.driveSel := rfl
@[simp] theorem edgeHandler_stability (v : Byte) : (edgeHandler v s).stability = s.stability := rfl
@[simp] theorem edgeHandler_curRow (v : Byte) : (edgeHandler v s).curRow = s.curRow := rfl
@[simp] theorem edgeHandler_rowBuf (v : Byte) : (edgeHandler v s).rowBuf = s.rowBuf := rfl
@[simp] theorem edgeHandler_lastSample (v : Byte) : (edgeHandler v s).lastSample = v := rfl
@[simp] theorem edgeHandler_changeFlag (v : Byte) : (edgeHandler v s).changeFlag = nextChangeFlag s.changeFlag s.lastSample v := rfl
@[simp] theorem edgeHandler_edgeEn (v : Byte) : (edgeHandler v s).edgeEn = s.edgeEn := rfl
@[simp] theorem edgeHandler_ringOut (v : Byte) : (edgeHandler v s).ringOut = s.ringOut := rfl
@[simp] theorem edgeHandler_env (v : Byte) : (edgeHandler v s).env = s.env := rfl

/-! `withTrace` -/

@[simp] theorem withTrace_cfg (r : List Byte) : (withTrace r s).cfg = s.cfg := rfl
@[simp] theorem withTrace_db (r : List Byte) : (withTrace r s).db = s.db := rfl
@[simp] theorem withTrace_pending (r : List Byte) : (withTrace r s).pending = s.pending := rfl
@[simp] theorem withTrace_scanInterval (r : List Byte) : (withTrace r s).scanInterval = s.scanInterval := rfl
@[simp] theorem withTrace_timerCnt (r : List Byte) : (withTrace r s).timerCnt = s.timerCnt := rfl
@[simp] theorem withTrace_gie (r : List Byte) : (withTrace r s).gie = s.gie := rfl
@[simp] theorem withTrace_driveSel (r : List Byte) : (withTrace r s).driveSel = s.driveSel := rfl
@[simp] theorem withTrace_stability (r : List Byte) : (withTrace r s).stability = s.stability := rfl
@[simp] theorem withTrace_curRow (r : List Byte) : (withTrace r s).curRow = s.curRow := rfl
@[simp] theorem withTrace_rowBuf (r : List Byte) : (withTrace r s).rowBuf = s.rowBuf := rfl
@[simp] theorem withTrace_lastSample (r : List Byte) : (withTrace r s).lastSample = s.lastSample := rfl
@[simp] theorem withTrace_changeFlag (r : List Byte) : (withTrace r s).changeFlag = s.changeFlag := rfl
@[simp] theorem withTrace_edgeEn (r : List Byte) : (withTrace r s).edgeEn = s.edgeEn := rfl
@[simp] theorem withTrace_ringOut (r : List Byte) : (withTrace r s).ringOut = s.ringOut := rfl
@[simp] theorem withTrace_env (r : List Byte) : (withTrace r s).env = { s.env with trace := r } := rfl

/-! `chooseAgent` -/

@[simp] theorem chooseAgent_cfg : (chooseAgent s).cfg = s.cfg := rfl
@[simp] theorem chooseAgent_db : (chooseAgent s).db = s.db := rfl
@[simp] theorem chooseAgent_pending : (chooseAgent s).pending = s.pending := rfl
@[simp] theorem chooseAgent_scanInterval : (chooseAgent s).scanInterval = s.scanInterval := rfl
@[simp] theorem chooseAgent_timerCnt : (chooseAgent s).timerCnt = s.timerCnt := rfl
@[simp] theorem chooseAgent_gie : (chooseAgent s).gie = s.gie := rfl
@[simp] theorem chooseAgent_driveSel : (chooseAgent s).driveSel = s.driveSel := rfl
@[simp] theorem chooseAgent_stability : (chooseAgent s).stability = s.stability := rfl
@[simp] theorem chooseAgent_curRow : (chooseAgent s).curRow = s.curRow := rfl
@[simp] theorem chooseAgent_rowBuf : (chooseAgent s).rowBuf = s.rowBuf := rfl
@[simp] theorem chooseAgent_lastSample : (chooseAgent s).lastSample = s.lastSample := rfl
@[simp] theorem chooseAgent_changeFlag : (chooseAgent s).changeFlag = s.changeFlag := rfl
@[simp] theorem chooseAgent_edgeEn : (chooseAgent s).edgeEn = s.edgeEn := rfl
@[simp] theorem chooseAgent_ringOut : (chooseAgent s).ringOut = s.ringOut := rfl
@[simp] theorem chooseAgent_env : (chooseAgent s).env = { s.env with agentCount := s.env.agentCount + 1 } := rfl

/-! `recordBurst` -/

@[simp] theorem recordBurst_cfg : (recordBurst s).cfg = s.cfg := rfl
@[simp] theorem recordBurst_db : (recordBurst s).db = s.db := rfl
@[simp] theorem recordBurst_pending : (recordBurst s).pending = s.pending := rfl
@[simp] theorem recordBurst_scanInterval : (recordBurst s).scanInterval = s.scanInterval := rfl
@[simp] theorem recordBurst_timerCnt : (recordBurst s).timerCnt = s.timerCnt := rfl
@[simp] theorem recordBurst_gie : (recordBurst s).gie = true := rfl
@[simp] theorem recordBurst_driveSel : (recordBurst s).driveSel = s.driveSel := rfl
@[simp] theorem recordBurst_stability : (recordBurst s).stability = s.stability := rfl
@[simp] theorem recordBurst_curRow : (recordBurst s).curRow = s.curRow := rfl
@[simp] theorem recordBurst_rowBuf : (recordBurst s).rowBuf = s.rowBuf := rfl
@[simp] theorem recordBurst_lastSample : (recordBurst s).lastSample = s.lastSample := rfl
@[simp] theorem recordBurst_changeFlag : (recordBurst s).changeFlag = s.changeFlag := rfl
@[simp] theorem recordBurst_edgeEn : (recordBurst s).edgeEn = s.edgeEn := rfl
@[simp] theorem recordBurst_env : (recordBurst s).env = s.env := rfl

/-- The burst appends the snapshot, line index ascending (R160, R161). -/
@[simp] theorem recordBurst_ringOut : (recordBurst s).ringOut = s.ringOut ++ (snapshot s).toList := by
  simp [recordBurst, Quad.toList]

/-! `debounce` -/

@[simp] theorem debounce_cfg (n : LineIdx) (x : Byte) : (debounce n x s).cfg = s.cfg := rfl
@[simp] theorem debounce_db (n : LineIdx) (x : Byte) : (debounce n x s).db = s.db.set n (engineCall s.cfg.toCfg x (s.db.get n)) := rfl
@[simp] theorem debounce_pending (n : LineIdx) (x : Byte) : (debounce n x s).pending = s.pending := rfl
@[simp] theorem debounce_scanInterval (n : LineIdx) (x : Byte) : (debounce n x s).scanInterval = s.scanInterval := rfl
@[simp] theorem debounce_timerCnt (n : LineIdx) (x : Byte) : (debounce n x s).timerCnt = s.timerCnt := rfl
@[simp] theorem debounce_gie (n : LineIdx) (x : Byte) : (debounce n x s).gie = s.gie := rfl
@[simp] theorem debounce_driveSel (n : LineIdx) (x : Byte) : (debounce n x s).driveSel = s.driveSel := rfl
@[simp] theorem debounce_stability (n : LineIdx) (x : Byte) : (debounce n x s).stability = s.stability := rfl
@[simp] theorem debounce_curRow (n : LineIdx) (x : Byte) : (debounce n x s).curRow = s.curRow := rfl
@[simp] theorem debounce_rowBuf (n : LineIdx) (x : Byte) : (debounce n x s).rowBuf = s.rowBuf := rfl
@[simp] theorem debounce_lastSample (n : LineIdx) (x : Byte) : (debounce n x s).lastSample = s.lastSample := rfl
@[simp] theorem debounce_changeFlag (n : LineIdx) (x : Byte) : (debounce n x s).changeFlag = s.changeFlag := rfl
@[simp] theorem debounce_edgeEn (n : LineIdx) (x : Byte) : (debounce n x s).edgeEn = s.edgeEn := rfl
@[simp] theorem debounce_ringOut (n : LineIdx) (x : Byte) : (debounce n x s).ringOut = s.ringOut := rfl
@[simp] theorem debounce_env (n : LineIdx) (x : Byte) : (debounce n x s).env = s.env := rfl

end Sys2Proof.Machine
end

