-- ==== Sys2Proof/Laws/Ops.lean ====
section
/-! SUPPORT. One lemma per shared operation that says everything it can do, and what a step can do. The proofs
about instructions cite these and do not unfold the operations again. -/

namespace Sys2Proof.Machine

variable {s t : State}

/-! The answer of an operation -/

@[simp] theorem finish_eq (r : Option Byte) (c : Option Bool) (s : State) :
    finish r c s = .next (s.report r c) := rfl

theorem andThen_eq_next {a : Answer} {k : State → Answer} :
    andThen a k = .next t ↔ ∃ u, a = .next u ∧ k u = .next t := by
  cases a <;> simp [andThen]

@[simp] theorem andThen_next (k : State → Answer) (s : State) : andThen (.next s) k = k s := rfl

theorem report_quiet (s : State) (r : Option Byte) (c : Option Bool) : (s.report r c).quiet = s.quiet := rfl

/-! Operand and build checks -/

theorem withLine_of_lt {n : Nat} (h : n < 4) (k : LineIdx → Answer) : withLine n k = k ⟨n, h⟩ := by
  simp [withLine, h]

theorem withLine_of_ge {n : Nat} (h : 4 ≤ n) (k : LineIdx → Answer) :
    withLine n k = .refused .lineOutOfRange := by
  simp [withLine, Nat.not_lt.mpr h]

theorem withLine_eq_next {n : Nat} {k : LineIdx → Answer} :
    withLine n k = .next t ↔ ∃ h : n < 4, k ⟨n, h⟩ = .next t := by
  unfold withLine
  split <;> simp_all

theorem needCounter_eq_next {k : Answer} :
    needCounter s k = .next t ↔ s.cfg.engine = .counter ∧ k = .next t := by
  unfold needCounter
  split <;> simp_all

theorem needFsm_eq_next {k : Answer} : needFsm s k = .next t ↔ s.cfg.engine = .fsm ∧ k = .next t := by
  unfold needFsm
  split <;> simp_all

theorem needMatrix_eq_next {k : Answer} :
    needMatrix s k = .next t ↔ s.cfg.scanner = .matrix ∧ k = .next t := by
  unfold needMatrix
  split <;> simp_all

theorem needRowirq_eq_next {k : Answer} :
    needRowirq s k = .next t ↔ s.cfg.scanner = .rowirq ∧ k = .next t := by
  unfold needRowirq
  split <;> simp_all

theorem needCallable_eq_next {n : LineIdx} {k : Answer} :
    needCallable s n k = .next t ↔ (s.db.get n).callable s.cfg.toCfg = true ∧ k = .next t := by
  unfold needCallable
  split <;> simp_all

theorem needAllCallable_eq_next {k : Answer} :
    needAllCallable s k = .next t ↔ (∀ n, (s.db.get n).callable s.cfg.toCfg = true) ∧ k = .next t := by
  unfold needAllCallable
  rw [← Quad.toList_all s.db (fun l => l.callable s.cfg.toCfg)]
  split <;> simp_all

/-- Which lines an engine can be given: every line in a counter build, a line whose key records are inside
their bounds in a finite-state build (U13). -/
theorem callable_iff (c : Cfg) (l : Line) :
    l.callable c = true ↔ (c.engine = .fsm → ∀ i, (l.keys.get i).inRange c = true) := by
  unfold Line.callable
  split
  · simp_all
  · simp only [Octet.toList_all, *, true_implies]

/-! Interrupts and PIN answers -/

@[simp] theorem takeInterrupt_true (h : State → State) (s : State) : takeInterrupt true h s = h s := rfl

@[simp] theorem takeInterrupt_false (h : State → State) (s : State) : takeInterrupt false h s = s := rfl

/-- A `PinRead` changes the environment only, and there only what has been consumed (R53). -/
theorem pinRead_state (s : State) :
    (pinRead s).2 = { s with env := { s.env with pins := (pinRead s).2.env.pins
                                                 pinCount := (pinRead s).2.env.pinCount } } := by
  unfold pinRead
  split <;> rfl

theorem pinRead_cons {a : Byte} {rest : List Byte} (h : s.env.pins = a :: rest) :
    pinRead s = (a, { s with env := { s.env with pins := rest } }) := by
  simp [pinRead, h]

theorem pinRead_nil (h : s.env.pins = []) :
    pinRead s = (Config.pinAnswer s.env.pinCount,
      { s with env := { s.env with pinCount := s.env.pinCount + 1 } }) := by
  simp [pinRead, h]

/-! A step -/

/-- What a step that answers a next state has done: it performed an operation, from the state the fetch left,
or no agent of the build acted. -/
theorem step_cases (h : step s = .next t) :
    (∃ i s', fetch s = .perform i s' ∧ exec i s' = .next t) ∨ t = chooseAgent s := by
  unfold step at h
  split at h
  · exact .inl ⟨_, _, by assumption, h⟩
  · rename_i s' hf
    right
    have : s' = chooseAgent s := by
      unfold fetch at hf
      split at hf
      · unfold agentNext at hf
        simp only at hf
        split at hf <;> simp_all
      · split at hf <;> simp_all
    simp_all
  · simp at h

/-- Where the operation of a step comes from: from the first bytes of the trace, or from an agent's choice. -/
theorem fetch_perform {i : Instr} {s' : State} (h : fetch s = .perform i s') :
    (∃ rest, decode s.env.trace = .ok (i, rest) ∧ s' = withTrace rest s) ∨
    (s.env.trace = [] ∧ s' = chooseAgent s ∧ i = AgentStep.instr (Config.agentStep s.env.agentCount) ∧
      AgentStep.exists? s.cfg.toCfg (Config.agentStep s.env.agentCount) = true) := by
  unfold fetch at h
  split at h
  · rename_i ht
    unfold agentNext at h
    simp only at h
    split at h
    · simp_all
    · simp at h
  · rename_i ht
    split at h
    · simp only [Next.perform.injEq] at h
      obtain ⟨rfl, rfl⟩ := h
      exact .inl ⟨_, by rw [ht]; assumption, rfl⟩
    · simp at h

end Sys2Proof.Machine
end

