-- ==== Sys2Proof/Laws/Pass.lean ====
section
/-! SUPPORT. What the atomic steps of a pass do, and what a whole pass leaves: `matrixPass_spec` and
`rowPass_spec` say it once, field by field, and the proofs about `SCANM`, `ROWT` and `POLL` cite them. -/

namespace Sys2Proof.Machine

@[simp] theorem runSteps_nil (p : Pass) : runSteps [] p = p := rfl

@[simp] theorem runSteps_cons (m : MainStep) (ms : List MainStep) (p : Pass) :
    runSteps (m :: ms) p = runSteps ms (m.run p) := rfl

theorem runSteps_append (ms ns : List MainStep) (p : Pass) :
    runSteps (ms ++ ns) p = runSteps ns (runSteps ms p) := by
  simp [runSteps]

/-- `q` is `p` after some sampling: the core differs in the driven line and in the answers consumed, and line `n`
has `k n` more reads. -/
def Sampled (p q : Pass) (k : LineIdx → Nat) : Prop :=
  ∃ d pins cnt v,
    q = { p with core := { p.core with driveSel := d
                                       env := { p.core.env with pins := pins, pinCount := cnt } }
                 reads := v } ∧
    ∀ n, (v.get n).length = (p.reads.get n).length + k n

theorem Sampled.refl (p : Pass) : Sampled p p (fun _ => 0) :=
  ⟨p.core.driveSel, p.core.env.pins, p.core.env.pinCount, p.reads, rfl, fun _ => rfl⟩

theorem Sampled.trans {p q r : Pass} {j k : LineIdx → Nat} (h1 : Sampled p q j) (h2 : Sampled q r k) :
    Sampled p r (fun n => j n + k n) := by
  obtain ⟨d, a, b, v, rfl, hv⟩ := h1
  obtain ⟨d', a', b', v', rfl, hv'⟩ := h2
  exact ⟨d', a', b', v', rfl, fun n => by have := hv n; have := hv' n; simp at *; omega⟩

theorem sampled_drive (n : LineIdx) (p : Pass) : Sampled p (MainStep.run (.drive n) p) (fun _ => 0) :=
  ⟨n, p.core.env.pins, p.core.env.pinCount, p.reads, rfl, fun _ => rfl⟩

theorem sampled_read (n : LineIdx) (p : Pass) :
    Sampled p (MainStep.run (.read n) p) (fun m => if m = n then 1 else 0) := by
  refine ⟨p.core.driveSel, (pinRead p.core).2.env.pins, (pinRead p.core).2.env.pinCount,
    p.reads.set n (p.reads.get n ++ [(pinRead p.core).1]), ?_, ?_⟩
  · simp only [MainStep.run, readStep]
    rw [pinRead_state p.core]
  · intro m
    rw [Quad.get_set]
    split <;> simp_all

theorem sampled_reads (n : LineIdx) (R : Nat) (p : Pass) :
    Sampled p (runSteps (List.replicate R (.read n)) p) (fun m => if m = n then R else 0) := by
  induction R generalizing p with
  | zero => simpa using Sampled.refl p
  | succ R ih =>
    rw [List.replicate_succ, runSteps_cons]
    convert (sampled_read n p).trans (ih _) using 2 with m
    split <;> omega

/-- One sampling pass reads every line `R` times (R131). -/
theorem sampled_pass (R : Nat) (p : Pass) : Sampled p (runSteps (samplingPass R) p) (fun _ => R) := by
  have line : ∀ (n : LineIdx) (q : Pass), Sampled q (runSteps (.drive n :: List.replicate R (.read n)) q)
      (fun m => if m = n then R else 0) := by
    intro n q
    rw [runSteps_cons]
    convert (sampled_drive n q).trans (sampled_reads n R _) using 2 with m
    omega
  have split : samplingPass R = (.drive 0 :: List.replicate R (.read 0)) ++
      ((.drive 1 :: List.replicate R (.read 1)) ++ ((.drive 2 :: List.replicate R (.read 2)) ++
        (.drive 3 :: List.replicate R (.read 3)))) := by
    simp [samplingPass, allLines]
  rw [split]
  simp only [runSteps_append]
  convert (line 0 p).trans ((line 1 _).trans ((line 2 _).trans (line 3 _))) using 2 with m
  fin_cases m <;> simp

/-- All sampling passes read every line `P × R` times (R131, R134). -/
theorem sampled_passes (P R : Nat) (p : Pass) :
    Sampled p (runSteps (samplingSteps P R) p) (fun _ => P * R) := by
  induction P generalizing p with
  | zero => simpa [samplingSteps] using Sampled.refl p
  | succ P ih =>
    have : samplingSteps (P + 1) R = samplingPass R ++ samplingSteps P R := by
      simp [samplingSteps, List.replicate_succ]
    rw [this, runSteps_append]
    convert (sampled_pass R p).trans (ih _) using 2 with m
    rw [Nat.succ_mul, Nat.add_comm]

/-- The driven line is 3 after a sampling pass (R131). -/
theorem driveSel_samplingPass (R : Nat) (p : Pass) : (runSteps (samplingPass R) p).core.driveSel = 3 := by
  have reads : ∀ (k : Nat) (q : Pass),
      (runSteps (List.replicate k (.read 3)) q).core.driveSel = q.core.driveSel := by
    intro k
    induction k with
    | zero => intro q; rfl
    | succ k ih =>
      intro q
      rw [List.replicate_succ, runSteps_cons, ih]
      simp only [MainStep.run, readStep]
      rw [pinRead_state]
  have split : samplingPass R = (.drive 0 :: List.replicate R (.read 0)) ++
      ((.drive 1 :: List.replicate R (.read 1)) ++ ((.drive 2 :: List.replicate R (.read 2)) ++
        (.drive 3 :: List.replicate R (.read 3)))) := by
    simp [samplingPass, allLines]
  rw [split]
  simp only [runSteps_append, runSteps_cons, reads]
  rfl

theorem driveSel_samplingSteps (P R : Nat) (h : 1 ≤ P) (p : Pass) :
    (runSteps (samplingSteps P R) p).core.driveSel = 3 := by
  obtain ⟨k, rfl⟩ : ∃ k, P = k + 1 := ⟨P - 1, by omega⟩
  have : samplingSteps (k + 1) R = samplingSteps k R ++ samplingPass R := by
    simp [samplingSteps, List.replicate_succ', List.flatten_append]
  rw [this, runSteps_append, driveSel_samplingPass]

/-- The four debounced lines of a pass, from the reads of each line (R134, R136). -/
def debouncedLines (c : Cfg) (v : Quad (List Byte)) (db : Quad Line) : Quad Line :=
  Quad.ofFn (fun n => engineCall c (majority (v.get n)) (db.get n))

/-- The global ChangeMask: the OR of the four lines' masks (R136). -/
def orMasks (db : Quad Line) : Byte :=
  (db.get 0).last ||| (db.get 1).last ||| (db.get 2).last ||| (db.get 3).last

/-- What the recording at the end of a pass adds (R137, R144). -/
def recordedIf (chg : Byte) (s : State) : State :=
  if chg = 0 then s else recordBurst s

/-- A whole matrix-scanner invocation, from the reads of each line (R130 to R137). -/
theorem matrixPass_spec (s : State) :
    ∃ (v : Quad (List Byte)) (pins : List Byte) (cnt : Nat) (d : LineIdx),
      (∀ n, (v.get n).length = s.cfg.passes * s.cfg.reads) ∧ (1 ≤ s.cfg.passes → d = 3) ∧
      (runSteps (samplingSteps s.cfg.passes s.cfg.reads) (Pass.start s)).reads = v ∧
      (runSteps (samplingSteps s.cfg.passes s.cfg.reads) (Pass.start s)).core.env.pins = pins ∧
      matrixPass s =
        (recordedIf (orMasks (debouncedLines s.cfg.toCfg v s.db))
          { s with db := debouncedLines s.cfg.toCfg v s.db
                   stability := stabilityOf v
                   driveSel := d
                   env := { s.env with pins := pins, pinCount := cnt } }).report
          (some (orMasks (debouncedLines s.cfg.toCfg v s.db))) none := by
  obtain ⟨d, pins, cnt, v, hq, hv⟩ := sampled_passes s.cfg.passes s.cfg.reads (Pass.start s)
  refine ⟨v, pins, cnt, d, ?_, ?_, ?_, ?_, ?_⟩
  · intro n
    rw [hv n]
    simp [Pass.start]
  · intro hp
    have := driveSel_samplingSteps s.cfg.passes s.cfg.reads hp (Pass.start s)
    rw [hq] at this
    exact this
  · rw [hq]
  · rw [hq]
  · unfold matrixPass matrixSteps
    rw [List.append_assoc, runSteps_append, hq]
    have hdb : ((((s.db.set 0 (engineCall s.cfg.toCfg (majority (v.get 0)) (s.db.get 0))).set 1
        (engineCall s.cfg.toCfg (majority (v.get 1)) (s.db.get 1))).set 2
        (engineCall s.cfg.toCfg (majority (v.get 2)) (s.db.get 2))).set 3
        (engineCall s.cfg.toCfg (majority (v.get 3)) (s.db.get 3))) =
        debouncedLines s.cfg.toCfg v s.db := rfl
    have hch : ∀ n : LineIdx, (debouncedLines s.cfg.toCfg v s.db).get n =
        engineCall s.cfg.toCfg (majority (v.get n)) (s.db.get n) := fun n => by simp [debouncedLines]
    simp only [allLines, List.map_cons, List.map_nil, List.cons_append, List.nil_append, runSteps_cons,
      runSteps_nil, MainStep.run, reduceStep, debounceStep, debounce, setLine, changeMask, Quad.get_ofFn,
      Pass.start, recordStep, Pass.finished, recordedIf, orMasks, hch]
    have h0 : ∀ a : Byte, (0 : Byte) ||| a = a := fun a => BitVec.zero_or
    simp only [Quad.get_set_self, Quad.get_set_ne, ne_eq, Fin.reduceEq, not_false_eq_true, hdb, h0, hch]
    split <;> rfl

/-- A whole row-sampler tick (R143 to R145). -/
theorem rowPass_spec (s : State) :
    rowPass s =
      (recordedIf (engineCall s.cfg.toCfg s.lastSample (s.db.get s.curRow)).last
        { s with rowBuf := s.rowBuf.set s.curRow s.lastSample
                 curRow := s.curRow + 1
                 lastSample := (s.rowBuf.set s.curRow s.lastSample).get (s.curRow + 1)
                 changeFlag := false
                 driveSel := s.curRow + 1
                 edgeEn := true
                 db := s.db.set s.curRow (engineCall s.cfg.toCfg s.lastSample (s.db.get s.curRow)) }).report
        (some (engineCall s.cfg.toCfg s.lastSample (s.db.get s.curRow)).last) (some s.changeFlag) := by
  have h0 : ∀ a : Byte, (0 : Byte) ||| a = a := fun a => BitVec.zero_or
  simp only [rowPass, rowSteps, runSteps_cons, runSteps_nil, MainStep.run, windowStep, debounceStep,
    debounce, setLine, changeMask, Pass.start, recordStep, Pass.finished, recordedIf, pinDrive,
    Quad.get_set_self, h0]
  split <;> rfl

/-- A recording changes `ring_out` and `gie` only, and adds nothing or one snapshot (R137, R160). -/
theorem recordedIf_eq (chg : Byte) (s : State) :
    recordedIf chg s =
      { s with ringOut := s.ringOut ++ (if chg = 0 then [] else (snapshot s).toList)
               gie := s.gie || chg != 0 } := by
  unfold recordedIf
  split
  · rename_i h
    simp [h]
  · rename_i h
    have h' : ¬ chg = 0#8 := h
    simp [h', recordBurst, ringAppend, Quad.toList]

end Sys2Proof.Machine
end

