-- ==== Sys2Proof/Laws/Exec.lean ====
section
/-! SUPPORT. One inversion lemma per operation: exactly when `exec` answers a next state, and which. The proofs
about all operations start from these. -/

namespace Sys2Proof.Machine

variable {s t : State}

theorem exec_reset_next : exec .reset s = .next t ↔ t = (resetAll s).report none none := by
  simp [exec, execReset, @eq_comm State _ t]

theorem exec_tb_next :
    exec .tb s = .next t ↔ t = (takeInterrupt (timerEnabled s) timebaseEvent s).report none none := by
  simp [exec, execTb, @eq_comm State _ t]

theorem exec_tick_next :
    exec .tick s = .next t ↔ t = (takeInterrupt (timerEnabled s) setPending s).report none none := by
  simp [exec, execTick, @eq_comm State _ t]

theorem exec_geti_next : exec .geti s = .next t ↔ t = s.report (some s.scanInterval) none := by
  simp [exec, execGeti, @eq_comm State _ t]

theorem exec_seti_next {v : Byte} :
    exec (.seti v) s = .next t ↔ t = (setInterval v s).report none none := by
  simp [exec, execSeti, @eq_comm State _ t]

theorem exec_dbc_next {n : Nat} {x : Byte} :
    exec (.dbc n x) s = .next t ↔ s.cfg.engine = .counter ∧ ∃ h : n < 4,
      t = (setLine ⟨n, h⟩ (counterCall s.cfg.toCfg x (s.db.get ⟨n, h⟩)) s).report
        (some (counterCall s.cfg.toCfg x (s.db.get ⟨n, h⟩)).last) none := by
  simp [exec, execDbc, needCounter_eq_next, withLine_eq_next, changeMask, @eq_comm State _ t]

theorem exec_dbf_next {n : Nat} {x : Byte} :
    exec (.dbf n x) s = .next t ↔ s.cfg.engine = .fsm ∧ ∃ h : n < 4,
      (∀ i, ((s.db.get ⟨n, h⟩).keys.get i).inRange s.cfg.toCfg = true) ∧
      t = (setLine ⟨n, h⟩ (fsmCall s.cfg.toCfg x (s.db.get ⟨n, h⟩)) s).report
        (some (fsmCall s.cfg.toCfg x (s.db.get ⟨n, h⟩)).last) none := by
  simp only [exec, execDbf, needFsm_eq_next, withLine_eq_next, needCallable_eq_next, callable_iff, changeMask,
    setLine_db, Quad.get_set_self, finish_eq, Host.Outcome.next.injEq]
  constructor
  · rintro ⟨h, hn, hk, rfl⟩
    exact ⟨h, hn, hk h, rfl⟩
  · rintro ⟨h, hn, hk, rfl⟩
    exact ⟨h, hn, fun _ => hk, rfl⟩

theorem exec_scanm_next :
    exec .scanm s = .next t ↔ s.cfg.scanner = .matrix ∧ (∀ n, (s.db.get n).callable s.cfg.toCfg = true) ∧
      t = matrixPass s := by
  simp [exec, execScanm, needMatrix_eq_next, needAllCallable_eq_next, @eq_comm State _ t]

theorem exec_drive_next {n : Nat} :
    exec (.drive n) s = .next t ↔ s.cfg.scanner = .matrix ∧ ∃ h : n < 4,
      t = (pinDrive ⟨n, h⟩ s).report none none := by
  simp [exec, execDrive, needMatrix_eq_next, withLine_eq_next, @eq_comm State _ t]

theorem exec_read_next :
    exec .read s = .next t ↔ s.cfg.scanner = .matrix ∧
      t = (pinRead s).2.report (some (pinRead s).1) none := by
  simp [exec, execRead, needMatrix_eq_next, @eq_comm State _ t]

theorem exec_rowt_next :
    exec .rowt s = .next t ↔ s.cfg.scanner = .rowirq ∧
      (s.db.get s.curRow).callable s.cfg.toCfg = true ∧ t = rowPass s := by
  simp [exec, execRowt, needRowirq_eq_next, needCallable_eq_next, @eq_comm State _ t]

theorem exec_edge_next {v : Byte} :
    exec (.edge v) s = .next t ↔ s.cfg.scanner = .rowirq ∧
      t = (takeInterrupt (edgeEnabled s) (edgeHandler v) s).report none none := by
  simp [exec, execEdge, needRowirq_eq_next, @eq_comm State _ t]

theorem exec_record_next : exec .record s = .next t ↔ t = (recordBurst s).report none none := by
  simp [exec, execRec, @eq_comm State _ t]

theorem exec_append_next {b : Byte} :
    exec (.append b) s = .next t ↔ t = (ringAppend b s).report none none := by
  simp [exec, execAppend, @eq_comm State _ t]

/-- `POLL` is a no-op, or one pass of the build's scanner from the state with `pending` cleared (R153). -/
theorem exec_poll_next :
    exec .poll s = .next t ↔
      (s.pending = false ∧ t = s.report (some 0x00) none) ∨
      (s.pending = true ∧ s.cfg.scanner = .matrix ∧ (∀ n, (s.db.get n).callable s.cfg.toCfg = true) ∧
        t = matrixPass { s with pending := false }) ∨
      (s.pending = true ∧ s.cfg.scanner = .rowirq ∧ (s.db.get s.curRow).callable s.cfg.toCfg = true ∧
        t = rowPass { s with pending := false }) := by
  cases hp : s.pending <;> cases hs : s.cfg.scanner <;>
    simp [exec, execPoll, hp, hs, runPass, needAllCallable_eq_next, needCallable_eq_next, @eq_comm State _ t]

/-- Operations in a row, one at a time. -/
theorem execAll_cons {i : Instr} {is : List Instr} :
    execAll (i :: is) s = .next t ↔ ∃ u, exec i s = .next u ∧ execAll is u = .next t := by
  simp [execAll, andThen_eq_next]

theorem execAll_append {is js : List Instr} :
    execAll (is ++ js) s = .next t ↔ ∃ u, execAll is s = .next u ∧ execAll js u = .next t := by
  induction is generalizing s with
  | nil => simp [execAll]
  | cons i is ih =>
    simp only [List.cons_append, execAll_cons, ih]
    constructor
    · rintro ⟨u, h, v, h1, h2⟩
      exact ⟨v, ⟨u, h, h1⟩, h2⟩
    · rintro ⟨v, ⟨u, h, h1⟩, h2⟩
      exact ⟨u, h, v, h1, h2⟩

end Sys2Proof.Machine
end

