-- ==== Sys2Proof/Laws/Interleave.lean ====
section
/-! SUPPORT. What a step of another agent between two atomic steps of MAIN can do (20_memory.md R57, R61):
`AgentEvent.apply_eq` says it once. Commuting such a step with a step of MAIN is then a rewrite. -/

namespace Sys2Proof.Machine

/-- With both sources enabled, an event that leaves the pass in progress writes the scheduler's variables from those
variables alone, or the edge pair from that pair and the build's scanner alone; an `EDGE` leaves the first three,
any other such event the pair. -/
theorem AgentEvent.apply_eq (e : AgentEvent) (hr : e.endsPass = false) :
    ∃ (P : Bool → Byte → Byte → Bool) (T I : Bool → Byte → Byte → Byte) (L : Scanner → Byte → Bool → Byte)
      (F : Scanner → Byte → Bool → Bool),
      (e.isEdge = true → (∀ p a b, P p a b = p) ∧ (∀ p a b, T p a b = a) ∧ ∀ p a b, I p a b = b) ∧
      (e.isEdge = false → (∀ c l f, L c l f = l) ∧ ∀ c l f, F c l f = f) ∧
      ∀ s, EnablesUp s → e.apply s =
        { s with
          pending := P s.pending s.timerCnt s.scanInterval
          timerCnt := T s.pending s.timerCnt s.scanInterval
          scanInterval := I s.pending s.timerCnt s.scanInterval
          lastSample := L s.cfg.scanner s.lastSample s.changeFlag
          changeFlag := F s.cfg.scanner s.lastSample s.changeFlag } := by
  cases e with
  | tb =>
    refine ⟨fun p a b => if a.toNat + 1 ≥ b.toNat then true else p,
      fun _ a b => if a.toNat + 1 ≥ b.toNat then 0 else a + 1, fun _ _ b => b, fun _ l _ => l, fun _ _ f => f,
      nofun, fun _ => ⟨fun _ _ _ => rfl, fun _ _ _ => rfl⟩, ?_⟩
    intro s h
    simp only [AgentEvent.apply, takeInterrupt, timerEnabled, h.1, timebaseEvent, returnFromInterrupt, if_true]
    split <;> simp [setPending]
  | tick =>
    exact ⟨fun _ _ _ => true, fun _ a _ => a, fun _ _ b => b, fun _ l _ => l, fun _ _ f => f,
      nofun, fun _ => ⟨fun _ _ _ => rfl, fun _ _ _ => rfl⟩,
      fun s h => by simp [AgentEvent.apply, takeInterrupt, timerEnabled, h.1, setPending, returnFromInterrupt]⟩
  | geti =>
    exact ⟨fun p _ _ => p, fun _ a _ => a, fun _ _ b => b, fun _ l _ => l, fun _ _ f => f,
      nofun, fun _ => ⟨fun _ _ _ => rfl, fun _ _ _ => rfl⟩, fun s _ => rfl⟩
  | seti v =>
    exact ⟨fun p _ _ => p, fun _ _ _ => 0, fun _ _ _ => v, fun _ l _ => l, fun _ _ f => f,
      nofun, fun _ => ⟨fun _ _ _ => rfl, fun _ _ _ => rfl⟩, fun s _ => rfl⟩
  | edge v =>
    refine ⟨fun p _ _ => p, fun _ a _ => a, fun _ _ b => b,
      fun c l _ => match c with | .rowirq => v | .matrix => l,
      fun c l f => match c with | .rowirq => nextChangeFlag f l v | .matrix => f,
      fun _ => ⟨fun _ _ _ => rfl, fun _ _ _ => rfl, fun _ _ _ => rfl⟩, nofun, ?_⟩
    intro s h
    simp only [AgentEvent.apply]
    cases s.cfg.scanner with
    | matrix => rfl
    | rowirq => simp [takeInterrupt, edgeEnabled, h.1, h.2, edgeHandler, returnFromInterrupt]
  | reset => cases hr

@[simp] theorem AgentEvent.endsPass_iff (e : AgentEvent) : e.endsPass = true ↔ e = .reset := by
  cases e <;> simp [AgentEvent.endsPass]

theorem AgentEvent.apply_reset (s : State) : AgentEvent.apply .reset s = State.initial s.cfg s.env := rfl

/-- An event leaves the enables up. -/
theorem AgentEvent.apply_enablesUp (e : AgentEvent) {s : State} (h : EnablesUp s) : EnablesUp (e.apply s) := by
  cases hr : e.endsPass with
  | true => rw [(e.endsPass_iff).mp hr]; exact ⟨rfl, rfl⟩
  | false =>
    obtain ⟨P, T, I, L, F, -, -, he⟩ := e.apply_eq hr
    rw [he s h]
    exact h

/-- A step of MAIN leaves the enables up: the two that lower one raise it again (R143, R160). -/
theorem MainStep.run_enablesUp (m : MainStep) {p : Pass} (h : EnablesUp p.core) : EnablesUp (m.run p).core := by
  cases m with
  | read n => simp only [MainStep.run, readStep]; rw [pinRead_state]; exact h
  | record => simp only [MainStep.run, recordStep]; split; exacts [h, ⟨rfl, h.2⟩]
  | window => exact ⟨h.1, rfl⟩
  | _ => exact h

@[simp] theorem runAtomic_nil (x : Activity) : runAtomic [] x = x := rfl

@[simp] theorem runAtomic_cons (a : AtomicStep) (as : List AtomicStep) (x : Activity) :
    runAtomic (a :: as) x = runAtomic as (a.run x) := rfl

theorem runAtomic_append (as bs : List AtomicStep) (x : Activity) :
    runAtomic (as ++ bs) x = runAtomic bs (runAtomic as x) := by
  simp [runAtomic]

/-- `RESET` leaves MAIN idle in the core's reset state, whatever it was doing (R190, R191). -/
@[simp] theorem run_reset (x : Activity) :
    AtomicStep.run (.agent .reset) x = .idle (State.initial x.core.cfg x.core.env) := by
  cases x <;> rfl

/-- While MAIN is idle only the other agents' steps act (R191). -/
theorem runAtomic_idle (as : List AtomicStep) (s : State) :
    runAtomic as (.idle s) = .idle (applyEvents (agentEvents as) s) := by
  induction as generalizing s with
  | nil => rfl
  | cons a as ih => cases a <;> exact ih _

end Sys2Proof.Machine
end

