-- ==== Sys2Proof/Laws/PerInstr.lean ====
section
/-! SUPPORT. A statement about every operation as syntax: its encoding begins with its own code of
30_encoding.md R70, which `opCode` lists once for every operation, and has the length of its format (R71, R76). -/

namespace Sys2Proof.Laws.EncodedForm

/-- The encoding of `i`: byte 0 is its code, no other code of R70 is that byte, and the bytes are as many as the
format has. -/
def Statement (i : Instr) : Prop :=
  (encode i).head? = some (opCode i) ∧ (encode i).length = formatLength (opFormat i) ∧
    ∀ j : Instr, opCode j = opCode i → mnemonicOf j = mnemonicOf i ∧ opFormat j = opFormat i

/-- Two operations with one code are of one row of R70. -/
theorem codes_apart (i j : Instr) (h : opCode j = opCode i) : mnemonicOf j = mnemonicOf i ∧ opFormat j = opFormat i := by
  cases i <;> cases j <;> first | exact ⟨rfl, rfl⟩ | exact absurd h (by simp [opCode])

theorem reset : Statement .reset :=
  ⟨rfl, rfl, codes_apart _⟩

theorem tb : Statement .tb :=
  ⟨rfl, rfl, codes_apart _⟩

theorem tick : Statement .tick :=
  ⟨rfl, rfl, codes_apart _⟩

theorem poll : Statement .poll :=
  ⟨rfl, rfl, codes_apart _⟩

theorem geti : Statement .geti :=
  ⟨rfl, rfl, codes_apart _⟩

theorem seti (v : Byte) : Statement (.seti v) :=
  ⟨rfl, rfl, codes_apart _⟩

theorem dbc (n : Nat) (x : Byte) : Statement (.dbc n x) :=
  ⟨rfl, rfl, codes_apart _⟩

theorem dbf (n : Nat) (x : Byte) : Statement (.dbf n x) :=
  ⟨rfl, rfl, codes_apart _⟩

theorem scanm : Statement .scanm :=
  ⟨rfl, rfl, codes_apart _⟩

theorem drive (n : Nat) : Statement (.drive n) :=
  ⟨rfl, rfl, codes_apart _⟩

theorem read : Statement .read :=
  ⟨rfl, rfl, codes_apart _⟩

theorem rowt : Statement .rowt :=
  ⟨rfl, rfl, codes_apart _⟩

theorem edge (v : Byte) : Statement (.edge v) :=
  ⟨rfl, rfl, codes_apart _⟩

theorem record : Statement .record :=
  ⟨rfl, rfl, codes_apart _⟩

theorem append (b : Byte) : Statement (.append b) :=
  ⟨rfl, rfl, codes_apart _⟩

end Sys2Proof.Laws.EncodedForm
end

