-- ==== Sys2Proof/Tests/Slice0.lean ====
section
/-! SUPPORT. Tests. Expected results are the spec's own worked examples and vectors (95_test_vectors.md V1 to
V81, programs P1 to P5) or hand calculation from a rule. The `wit_` theorems show that the hypotheses of the
obligation of that name can be met. -/

namespace Sys2Proof.Tests

open Sys2Proof.Machine

/-! ## Builds and states -/

/-- REF-S, one stage (95_test_vectors.md). -/
def refS : Cfg :=
  { refCfg with d := 5, dBad := 7, t1 := 1, t2 := 3 }

/-- REF-1. -/
def ref1 : Cfg :=
  { refCfg with d := 1, dBad := 2, t1 := 0 }

def sBuild : ValidCfg := { refS with isValid := by decide }

def s2Build : ValidCfg := { ({ refS with badStages := .two } : Cfg) with isValid := by decide }

def oneBuild : ValidCfg := { ref1 with isValid := by decide }

def rowBuild : ValidCfg := { ({ ref1 with scanner := .rowirq } : Cfg) with isValid := by decide }

def fsBuild : ValidCfg := { ({ refCfg with engine := .fsm } : Cfg) with isValid := by decide }

def fsRowBuild : ValidCfg :=
  { ({ refCfg with engine := .fsm, scanner := .rowirq } : Cfg) with isValid := by decide }

def passes3 : ValidCfg := { ({ refS with passes := 3 } : Cfg) with isValid := by decide }

def shuffled : ValidCfg := { ({ ref1 with reshuffle := true } : Cfg) with isValid := by decide }

/-- After reset in the build `c`, nothing listed. -/
def start (c : ValidCfg) : State :=
  State.initial c Env.initial

/-- With the PIN answers `ps` listed. -/
def answered (ps : List Byte) (s : State) : State :=
  { s with env := { s.env with pins := ps } }

/-- With line 0 replaced. -/
def withLine0 (l : Line) (s : State) : State :=
  setLine 0 l s

/-- A counter line with these bytes. -/
def counterLine (state last stg0 stg1 : Byte) (cnt : List Byte) : Line :=
  { state := state, last := last, stg0 := stg0, stg1 := stg1, cnt := cnt
    keys := Octet.ofFn (fun _ => Key.initial) }

/-- A finite-state line whose lane 0 is `k` and whose other lanes are as after reset. -/
def keyLine (state : Byte) (k : Key) : Line :=
  { Line.initial fsBuild.toCfg with
    state := state
    keys := Octet.ofFn (fun i => if i = 0 then k else Key.initial) }

/-- REF-1 with this interval and this count of the timer. -/
def timer (interval cnt : Byte) : State :=
  { start oneBuild with scanInterval := interval, timerCnt := cnt }

/-- A REF-S state with line 0 in this condition. -/
def onS (state last stg : Byte) (cnt : List Byte) : State :=
  withLine0 (counterLine state last stg stg cnt) (start sBuild)

/-- A finite-state build with lane 0 of line 0 in this condition. -/
def onF (state : Byte) (k : Key) : State :=
  withLine0 (keyLine state k) (start fsBuild)

/-- The answer is a next state that satisfies the test. -/
def after (a : Answer) (p : State → Bool) : Bool :=
  match a with
  | .next s => p s
  | .fault _ => false
  | .refused _ => false

/-- The answer is this refusal. -/
def refusedBy (a : Answer) (r : Refusal) : Bool :=
  match a with
  | .next _ => false
  | .fault _ => false
  | .refused q => q == r

/-! ## WellFormed: each check refuses its ill-formed term (R52, R72) -/

theorem test_wf_dbc : Instr.wellFormed (.dbc 4 0x00) = false ∧ Instr.wellFormed (.dbc 3 0x00) = true := by decide

theorem test_wf_dbf : Instr.wellFormed (.dbf 4 0x00) = false ∧ Instr.wellFormed (.dbf 3 0x00) = true := by decide

theorem test_wf_drive : Instr.wellFormed (.drive 4) = false ∧ Instr.wellFormed (.drive 3) = true := by decide

/-! ## Configuration checks (R12, V81) -/

/-- `D = 0`; no `T1` is below it, so CFG4 fails as well. -/
theorem test_cfg1 : CfgCode.cfg1 ∈ ({ refS with d := 0 } : Cfg).failures := by decide

theorem test_cfg2 : ({ refS with d := 5, dBad := 5 } : Cfg).failures = [.cfg2] := by decide

theorem test_cfg4 : ({ refS with d := 5, t1 := 5 } : Cfg).failures = [.cfg4] := by decide

theorem test_cfg5 : ({ refS with badStages := .two, t1 := 3, t2 := 3 } : Cfg).failures = [.cfg5] := by decide

theorem test_cfg6 :
    ({ refCfg with engine := .fsm, multMax := 1, multStep := 1 } : Cfg).failures = [.cfg6] ∧
    ({ refCfg with engine := .fsm, wCnt := 3, lockedOnPeriod := 2, multMax := 4 } : Cfg).failures = [.cfg6] := by
  decide

theorem test_cfg7 : ({ refS with reads := 2, passes := 1 } : Cfg).failures = [.cfg7] := by decide

theorem test_cfg8 : ({ refS with intervalReset := 256 } : Cfg).failures = [.cfg8] := by decide

/-- `N = 5` for REF-A, 3 for REF-S, 2 for REF-1 (95_test_vectors.md); CFG3 holds by that choice. -/
theorem test_planes : refCfg.planes = 5 ∧ refS.planes = 3 ∧ ref1.planes = 2 := by decide

/-! ## Decoding: the words of R70, R71, bit by bit -/

theorem test_decode_reset : decode [0b0000_0001#8] = .ok (.reset, []) := rfl

theorem test_decode_tb : decode [0b0001_0000#8] = .ok (.tb, []) := rfl

theorem test_decode_tick : decode [0b0001_0001#8] = .ok (.tick, []) := rfl

theorem test_decode_poll : decode [0b0001_0010#8] = .ok (.poll, []) := rfl

theorem test_decode_geti : decode [0b0001_0011#8] = .ok (.geti, []) := rfl

/-- P4: `SETI 3` is `14 03`. -/
theorem test_decode_seti : decode [0b0001_0100#8, 0b0000_0011#8] = .ok (.seti 3, []) := rfl

/-- P5: `DBC 2, 0x40` is `20 02 40`. -/
theorem test_decode_dbc : decode [0b0010_0000#8, 0b0000_0010#8, 0b0100_0000#8] = .ok (.dbc 2 0x40, []) := rfl

theorem test_decode_dbf : decode [0b0010_0001#8, 0b0000_0011#8, 0b1000_0001#8] = .ok (.dbf 3 0x81, []) := rfl

theorem test_decode_scanm : decode [0b0011_0000#8] = .ok (.scanm, []) := rfl

/-- P5: `DRIVE 1` is `31 01`. -/
theorem test_decode_drive : decode [0b0011_0001#8, 0b0000_0001#8] = .ok (.drive 1, []) := rfl

theorem test_decode_read : decode [0b0011_0010#8] = .ok (.read, []) := rfl

theorem test_decode_rowt : decode [0b0011_1000#8] = .ok (.rowt, []) := rfl

/-- P2: `EDGE 0x01` is `39 01`. -/
theorem test_decode_edge : decode [0b0011_1001#8, 0b0000_0001#8] = .ok (.edge 0x01, []) := rfl

theorem test_decode_rec : decode [0b0100_0000#8] = .ok (.record, []) := rfl

theorem test_decode_append : decode [0b0100_0001#8, 0b1000_0000#8] = .ok (.append 0x80, []) := rfl

/-- V81: the encodings a decoder refuses. -/
theorem test_reserved_codes :
    decode [0x00] = .error (.reservedCode 0x00) ∧ decode [0x02] = .error (.reservedCode 0x02) ∧
    decode [0x15] = .error (.reservedCode 0x15) ∧ decode [0x22] = .error (.reservedCode 0x22) ∧
    decode [0x33] = .error (.reservedCode 0x33) ∧ decode [0x42] = .error (.reservedCode 0x42) ∧
    decode [0xFF] = .error (.reservedCode 0xFF) :=
  ⟨rfl, rfl, rfl, rfl, rfl, rfl, rfl⟩

theorem test_reserved_line_bits :
    decode [0x20, 0x04, 0x01] = .error (.reservedLineBits 0x04) ∧
    decode [0x31, 0x80] = .error (.reservedLineBits 0x80) :=
  ⟨rfl, rfl⟩

/-- R76: an operation that the bytes end inside of. -/
theorem test_truncated : decode [0x20, 0x01] = .error .truncated ∧ decode [0x14] = .error .truncated := ⟨rfl, rfl⟩

/-- Program P4's first operations: one after another, byte 0 alone decides the lengths. -/
theorem test_decode_sequence : decode [0x01, 0x14, 0x03, 0x10] = .ok (.reset, [0x14, 0x03, 0x10]) ∧
    decode [0x14, 0x03, 0x10] = .ok (.seti 3, [0x10]) := ⟨rfl, rfl⟩

/-- The table's rows do not overlap: two different rows differ in byte 0, the most significant byte of a word. -/
theorem test_rows_apart :
    (opcodeTable.map (fun r => r.matchWord / 2 ^ (r.nbits - 8))).Nodup ∧
    ∀ r ∈ opcodeTable, r.mask / 2 ^ (r.nbits - 8) = 0xFF := by decide

/-! ## The reset state -/

/-- V80 in the reference build. -/
theorem test_reset_state :
    State.reset.pending = false ∧ State.reset.timerCnt = 0 ∧ State.reset.scanInterval = 1 ∧
    State.reset.edgeEn = true ∧ State.reset.gie = true ∧ State.reset.driveSel = 0 ∧ State.reset.ringOut = [] ∧
    (State.reset.db.get 3).cnt = [0, 0, 0, 0, 0] := by decide

/-- V80: from a state with every kind of element changed. -/
theorem test_reset_op :
    after (exec .reset { start fsBuild with
        db := Quad.ofFn (fun _ => keyLine 0x01 ⟨.on, 2, 2, 4⟩), pending := true, timerCnt := 9
        ringOut := [1], driveSel := 3, stability := 5 })
      (fun t => t.report none none == start fsBuild) = true := by decide

/-! ## Scheduler -/

/-- V60: with interval 3, the third `TB` ticks; R151: a count that has passed the interval ticks at once. -/
theorem test_tb :
    after (exec .tb { start oneBuild with scanInterval := 3, timerCnt := 2 })
      (fun t => t.timerCnt == 0 && t.pending) = true ∧
    after (exec .tb { start oneBuild with scanInterval := 3, timerCnt := 1 })
      (fun t => t.timerCnt == 2 && !t.pending) = true := by decide

/-- V61: with interval 0 every `TB` ticks; no wrap of the sum at 255. -/
theorem test_tb_corners :
    after (exec .tb { start oneBuild with scanInterval := 0 }) (fun t => t.timerCnt == 0 && t.pending) = true ∧
    after (exec .tb { start oneBuild with scanInterval := 255, timerCnt := 255 })
      (fun t => t.timerCnt == 0 && t.pending) = true := by decide

theorem test_tick : after (exec .tick (start oneBuild)) (fun t => t.pending) = true := by decide

/-- V62: `POLL` before any tick is a no-op and consumes no answer. -/
theorem test_poll_idle :
    after (exec .poll (answered [0x01] (start oneBuild)))
      (fun t => t.env.result == some 0x00 && t.env.pins == [0x01]) = true := by decide

/-- P4, pass 2: `D = 1`, the count of lane 0 is 1, the press is accepted and recorded. -/
theorem test_poll_pass :
    after (exec .poll (answered [0x01, 0x00, 0x00, 0x00]
        { withLine0 (counterLine 0 0 0 0 [0x01, 0x00]) (start oneBuild) with pending := true }))
      (fun t => t.env.result == some 0x01 && !t.pending && t.ringOut == [0x01, 0x00, 0x00, 0x00] &&
        t.db.get 0 == counterLine 0x01 0x01 0 0 [0x00, 0x01] && t.driveSel == 3) = true := by decide

/-- V61: `GETI -> 5`, and `SETI 5` clears the count and leaves `pending`. -/
theorem test_geti_seti :
    after (exec .geti { start oneBuild with scanInterval := 5 }) (fun t => t.env.result == some 5) = true ∧
    after (exec (.seti 5) { start oneBuild with timerCnt := 1, pending := true })
      (fun t => t.scanInterval == 5 && t.timerCnt == 0 && t.pending) = true := by decide

/-! ## Counter engine -/

/-- V9 call 9: several lanes at once, with the planes. -/
theorem test_dbc_lanes :
    after (exec (.dbc 0 0x85) (withLine0 (counterLine 0x01 0x00 0 0 [0x84, 0x00, 0x04]) (start sBuild)))
      (fun t => t.env.result == some 0x04 &&
        t.db.get 0 == counterLine 0x05 0x04 0 0 [0x00, 0x84, 0x04]) = true := by decide

/-- V10 (a), (b) and (c): the thresholds, the exact match with a wrap, the forced zero. -/
theorem test_dbc_compares :
    counterCall refS 0xFF (counterLine 0xFF 0x00 0 0 [0xAA, 0xCC, 0xF0]) =
      counterLine 0xFF 0x00 0x1C 0x1C [0x00, 0x00, 0x00] ∧
    counterCall refS 0x00 (counterLine 0xFF 0x00 0 0 [0xAA, 0xCC, 0xF0]) =
      counterLine 0xDF 0x20 0x00 0x00 [0x55, 0x66, 0x78] ∧
    counterCall refS 0x00 (counterLine 0xFF 0x20 0 0 [0xAA, 0xCC, 0xF0]) =
      counterLine 0xFF 0x00 0x00 0x00 [0x55, 0x46, 0x58] := by decide

/-- V5 call 13: the bad release is accepted at `D_BAD`, the count wraps, the flag clears. V8 calls 10 and 21: the
first qualifying bounce of the two-stage detector, and the release that arms it. -/
theorem test_dbc_stages :
    counterCall refS 0x00 (counterLine 0x01 0x00 0x01 0x01 [0x01, 0x01, 0x01]) =
      counterLine 0x00 0x01 0x00 0x00 [0x00, 0x00, 0x00] ∧
    counterCall s2Build.toCfg 0x01 (counterLine 0x01 0x00 0 0 [0x00, 0x01, 0x00]) =
      counterLine 0x01 0x00 0x01 0x00 [0x00, 0x00, 0x00] ∧
    counterCall s2Build.toCfg 0x00 (counterLine 0x01 0x00 0x01 0x00 [0x01, 0x00, 0x01]) =
      counterLine 0x00 0x01 0x00 0x01 [0x00, 0x01, 0x01] := by decide

/-- V10: `EQ(5) = 0x20`, `GT(1) = 0xFC`, `LT(5) = 0x1F`, `EQ(7) = 0x80` in the bit-plane form. -/
theorem test_planes_compare :
    planesEq [0xAA, 0xCC, 0xF0] 5 = 0x20 ∧ planesGt [0xAA, 0xCC, 0xF0] 1 = 0xFC ∧
    planesLt [0xAA, 0xCC, 0xF0] 5 = 0x1F ∧ planesEq [0xAA, 0xCC, 0xF0] 7 = 0x80 := by decide

/-! ## Finite-state engine -/

/-- V28 call 5: key 0 stays ON with its countdown reset, key 1 presses, key 7 is bumped in its dead zone. -/
theorem test_dbf_lanes :
    fsmCall fsBuild.toCfg 0x03
        { Line.initial fsBuild.toCfg with
          state := 0x81
          keys := ⟨⟨.on, 2, 2, 1⟩, ⟨.turningOn, 0, 0, 1⟩, Key.initial, Key.initial, Key.initial, Key.initial,
            Key.initial, ⟨.lockedOn, 0, 0, 3⟩⟩ } =
      { Line.initial fsBuild.toCfg with
        state := 0x83
        last := 0x02
        keys := ⟨⟨.on, 2, 2, 1⟩, ⟨.lockedOn, 0, 0, 1⟩, Key.initial, Key.initial, Key.initial, Key.initial,
          Key.initial, ⟨.lockedOn, 0, 0, 4⟩⟩ } := by decide

/-- 30_encoding.md R78: the phase codes, and the two codes that are no phase. -/
theorem test_phase_codes :
    [Phase.off, .turningOn, .lockedOn, .on, .turningOff, .lockedOff].map Phase.code = [0, 1, 2, 3, 4, 5] ∧
    Phase.ofCode 5 = some .lockedOff ∧ Phase.ofCode 6 = none ∧ Phase.ofCode 7 = none := by decide

/-- V22 calls 4, 7, 9, 10; V24 call 8; V25 call 8; V26 call 8; V27 call 9. -/
theorem test_dbf_transitions :
    keyCall fsBuild.toCfg true ⟨.lockedOn, 1, 0, 1⟩ = (⟨.on, 2, 2, 1⟩, .nothing) ∧
    keyCall fsBuild.toCfg false ⟨.on, 2, 1, 1⟩ = (⟨.turningOff, 2, 2, 1⟩, .nothing) ∧
    keyCall fsBuild.toCfg false ⟨.turningOff, 2, 1, 1⟩ = (⟨.lockedOff, 0, 0, 1⟩, .off) ∧
    keyCall fsBuild.toCfg false ⟨.lockedOff, 0, 0, 1⟩ = (⟨.off, 1, 0, 1⟩, .nothing) ∧
    keyCall fsBuild.toCfg true ⟨.turningOff, 2, 2, 1⟩ = (⟨.on, 2, 1, 2⟩, .nothing) ∧
    keyCall fsBuild.toCfg true ⟨.turningOff, 2, 1, 1⟩ = (⟨.on, 2, 0, 2⟩, .nothing) ∧
    keyCall fsBuild.toCfg false ⟨.turningOn, 0, 0, 4⟩ = (⟨.off, 0, 0, 4⟩, .nothing) ∧
    keyCall fsBuild.toCfg true ⟨.lockedOff, 0, 0, 1⟩ = (⟨.lockedOff, 0, 0, 2⟩, .nothing) := by decide

/-! ## Matrix scanner -/

/-- V40: three passes of one read, the majority and the stability flags. -/
theorem test_scanm_majority :
    after (exec .scanm (answered [0x01, 0x00, 0x00, 0x80, 0x01, 0x00, 0x10, 0x00, 0x00, 0x00, 0x00, 0x80]
        (start passes3)))
      (fun t => t.stability == 0x0D && t.env.result == some 0x00 && t.driveSel == 3 && t.ringOut == [] &&
        (t.db.get 0).cnt == [0x01, 0x00, 0x00] && (t.db.get 3).cnt == [0x80, 0x00, 0x00] &&
        (t.db.get 2).cnt == [0x00, 0x00, 0x00] && t.env.pins == []) = true := by decide

/-- V43, the second scan: two lines change, one recording. -/
theorem test_scanm_records :
    after (exec .scanm (answered [0x01, 0x00, 0x00, 0x80]
        { start oneBuild with db := ⟨counterLine 0 0 0 0 [0x01, 0x00], counterLine 0 0 0 0 [0x00, 0x00],
            counterLine 0 0 0 0 [0x00, 0x00], counterLine 0 0 0 0 [0x80, 0x00]⟩ }))
      (fun t => t.env.result == some 0x81 && t.ringOut == [0x01, 0x00, 0x00, 0x80]) = true := by decide

/-- V44. -/
theorem test_drive_read :
    after (exec (.drive 2) (start oneBuild)) (fun t => t.driveSel == 2) = true ∧
    after (exec .read (answered [0x81, 0x80] (start oneBuild)))
      (fun t => t.env.result == some 0x81 && t.env.pins == [0x80]) = true := by decide

/-! ## Row sampler -/

/-- V50, the second visit of row 0: the press is accepted, row 1's buffered sample is restored. -/
theorem test_rowt :
    after (exec .rowt { start rowBuild with
        lastSample := 0x04, rowBuf := ⟨0x04, 0x00, 0x01, 0x00⟩
        db := (start rowBuild).db.set 0 (counterLine 0 0 0 0 [0x04, 0x00]) })
      (fun t => t.env.result == some 0x04 && t.env.chgd == some false && t.curRow == 1 && t.driveSel == 1 &&
        t.lastSample == 0x00 && t.rowBuf == ⟨0x04, 0x00, 0x01, 0x00⟩ &&
        t.ringOut == [0x04, 0x00, 0x00, 0x00]) = true := by decide

/-- V50, row 3 to row 0: the round robin wraps and restores `row_buf[0]`. -/
theorem test_rowt_wraps :
    after (exec .rowt { start rowBuild with curRow := 3, driveSel := 3, rowBuf := ⟨0x04, 0x00, 0x01, 0x00⟩ })
      (fun t => t.curRow == 0 && t.lastSample == 0x04 && t.env.result == some 0x00) = true := by decide

/-- R141, the worked example: the flag accumulates. -/
theorem test_edge :
    after (exec (.edge 0x04) (start rowBuild)) (fun t => t.lastSample == 0x04 && t.changeFlag) = true ∧
    after (exec (.edge 0x00) { start rowBuild with lastSample := 0x04, changeFlag := true })
      (fun t => t.lastSample == 0x00 && t.changeFlag) = true ∧
    after (exec (.edge 0x00) (start rowBuild)) (fun t => !t.changeFlag) = true := by decide

/-! ## Recorder -/

/-- V70, rows 1 to 6. -/
theorem test_reshuffle :
    reshuffle ⟨0x01, 0x00, 0x00, 0x80⟩ = ⟨0x01, 0x00, 0x00, 0x80⟩ ∧
    reshuffle ⟨0x02, 0x00, 0x00, 0x00⟩ = ⟨0x10, 0x00, 0x00, 0x00⟩ ∧
    reshuffle ⟨0x00, 0x01, 0x00, 0x00⟩ = ⟨0x02, 0x00, 0x00, 0x00⟩ ∧
    reshuffle ⟨0xFF, 0x00, 0x00, 0x00⟩ = ⟨0x11, 0x11, 0x11, 0x11⟩ ∧
    reshuffle ⟨0x12, 0x34, 0x56, 0x78⟩ = ⟨0x50, 0x86, 0xAF, 0x0C⟩ ∧
    unshuffle ⟨0x12, 0x34, 0x56, 0x78⟩ = ⟨0xAA, 0x99, 0xB4, 0x40⟩ := by decide

/-- The four stable states of V72. -/
def lines72 : Quad Line :=
  ⟨counterLine 0x12 0 0 0 [0, 0], counterLine 0x34 0 0 0 [0, 0], counterLine 0x56 0 0 0 [0, 0],
    counterLine 0x78 0 0 0 [0, 0]⟩

/-- V72. -/
theorem test_rec_append :
    after (exec .record { start oneBuild with db := lines72 })
      (fun t => t.ringOut == [0x12, 0x34, 0x56, 0x78]) = true ∧
    after (exec .record { start shuffled with db := lines72 })
      (fun t => t.ringOut == [0x50, 0x86, 0xAF, 0x0C]) = true ∧
    after (exec (.append 0x80) { start oneBuild with ringOut := [0x01] })
      (fun t => t.ringOut == [0x01, 0x80]) = true := by decide

/-! ## Builds -/

/-- V81: `DBF` in a counter build, `EDGE` in a matrix build. -/
theorem test_not_in_build :
    refusedBy (exec (.dbf 0 0x01) (start sBuild)) .notInBuild = true ∧
    refusedBy (exec (.edge 0x04) (start sBuild)) .notInBuild = true ∧
    refusedBy (exec (.dbc 0 0x01) (start fsBuild)) .notInBuild = true ∧
    refusedBy (exec .scanm (start rowBuild)) .notInBuild = true := by decide

/-! ## Placing an operation -/

/-- A placed operation is what the next step performs: `SETI 3` as the table's word 0x1403, `DBF` with its build. -/
theorem test_withFetchWord :
    after (step (State.reset.withFetchWord 16 0x1403)) (fun t => t.scanInterval == 3) = true ∧
    after (step (State.reset.withFetchWord 24 0x210001))
      (fun t => (t.db.get 0).keys.o0 == ⟨.turningOn, 0, 0, 1⟩) = true := by decide

/-! ## Witnesses: the hypotheses of each obligation can be met, at the boundaries where its clauses meet -/

theorem wit_DecodeEncode : Instr.wellFormed (.dbc 3 0xFF) = true ∧ Instr.wellFormed (.drive 0) = true := by decide

theorem wit_DecodeOnlyEncodings : decode [0x31, 0x03, 0x07] = .ok (.drive 3, [0x07]) := rfl

theorem wit_ReservedRefused :
    (0x15 : Byte) ∉ ([0x01, 0x10, 0x11, 0x12, 0x13, 0x14, 0x20, 0x21, 0x30, 0x31, 0x32, 0x38, 0x39, 0x40, 0x41] :
      List Byte) ∧
    ((0x31 : Byte) ∈ ([0x20, 0x21, 0x31] : List Byte) ∧ ∃ j, 2 ≤ j ∧ j ≤ 7 ∧ (0x04 : Byte).getLsbD j = true) ∧
    (∃ j, 2 ≤ j ∧ j ≤ 7 ∧ (0x80 : Byte).getLsbD j = true) ∧
    (∃ s : State, s.env.trace ≠ [] ∧ decode s.env.trace = .error (.reservedCode 0xFF)) :=
  ⟨by decide, ⟨by decide, 2, by decide⟩, ⟨7, by decide⟩, withTrace [0xFF] State.reset, by decide, rfl⟩

theorem wit_LengthByFirstByte :
    decode (0x41 :: [0x80, 0x01]) = .ok (.append 0x80, [0x01]) ∧
    decode (0x21 :: [0x00, 0x01]) = .ok (.dbf 0 0x01, []) ∧ decode (0x40 :: [0x41]) = .ok (.record, [0x41]) :=
  ⟨rfl, rfl, rfl⟩

/-- The row of `DBC`: its largest word matches, the word with bit 2 of the line byte set does not. -/
theorem wit_TableWordsDecode :
    (⟨"DBC", 24, 0x200000, 0xFFFC00⟩ : OpcodeRow) ∈ opcodeTable ∧ 0x2003FF < 2 ^ 24 ∧
    rowMatches ⟨"DBC", 24, 0x200000, 0xFFFC00⟩ 0x2003FF = true ∧ decodeTableWord 24 0x2003FF = some (.dbc 3 0xFF) ∧
    rowMatches ⟨"DBC", 24, 0x200000, 0xFFFC00⟩ 0x2004FF = false ∧ decodeTableWord 24 0x2004FF = none := by decide

theorem wit_StepRunsOperation :
    decode (withTrace [0x14, 0x03, 0x10] State.reset).env.trace = .ok (.seti 3, [0x10]) := rfl

theorem wit_EmptyTraceFreeStep : State.reset.env.trace = [] := rfl

/-- A valid configuration, and one that is not. -/
theorem wit_ConfigValidation : refS.valid = true ∧ ({ refS with d := 7 } : Cfg).valid = false := by decide

/-- Reset, then a `SETI`, a `TB` below the interval and a `POLL`: no tick has fired. -/
theorem wit_PollBeforeTick :
    exec .reset State.reset = .next State.reset ∧ NoTickFires [.seti 3, .tb, .poll] State.reset ∧
    after (execAll [.seti 3, .tb, .poll] State.reset) (fun u => u.timerCnt == 1 && !u.pending) = true := by
  refine ⟨rfl, ⟨rfl, ?_⟩, by decide⟩
  rintro t ⟨⟩
  refine ⟨by decide, ?_⟩
  rintro t ⟨⟩
  exact ⟨rfl, fun _ _ => trivial⟩

/-- The two clauses of `TB` meet at a count one below the interval. -/
theorem wit_TimerEvents :
    (let s := timer 3 2;
      s.gie = true ∧ s.timerCnt.toNat + 1 ≥ s.scanInterval.toNat) ∧
    (let s := timer 4 2;
      s.gie = true ∧ s.timerCnt.toNat + 1 < s.scanInterval.toNat) ∧
    (let s := timer 0 0;
      s.gie = true ∧ s.timerCnt.toNat + 1 ≥ s.scanInterval.toNat) ∧
    (let s := timer 255 254;
      s.gie = true ∧ s.timerCnt.toNat + 1 ≥ s.scanInterval.toNat) := by decide

theorem wit_TicksAbsorbed : (start oneBuild).gie = true := rfl

/-- Interval 0 with count 0 (`k = 0` and `k = 1`), and interval 255 with count 254. -/
theorem wit_FireCount :
    (let s := timer 0 0;
      s.gie = true ∧ s.timerCnt.toNat < max s.scanInterval.toNat 1 ∧
      0 < max s.scanInterval.toNat 1 - s.timerCnt.toNat ∧ 1 = max s.scanInterval.toNat 1 - s.timerCnt.toNat) ∧
    (let s := timer 255 254;
      s.gie = true ∧ s.timerCnt.toNat < max s.scanInterval.toNat 1 ∧
      1 = max s.scanInterval.toNat 1 - s.timerCnt.toNat) := by decide

theorem wit_PollRunsPass :
    (start oneBuild).pending = false ∧ (start oneBuild).cfg.scanner = .matrix ∧
    (start rowBuild).cfg.scanner = .rowirq ∧
    (∀ n, ((start oneBuild).db.get n).callable (start oneBuild).cfg.toCfg = true) ∧
    (∀ n, ((start fsBuild).db.get n).callable (start fsBuild).cfg.toCfg = true) := by decide

/-- A `POLL` that runs a pass, then an `EDGE`. -/
theorem wit_AtMostOnePassPerTick :
    after (exec .poll { start rowBuild with pending := true }) (fun t => !t.pending && t.curRow == 1) = true ∧
    (∀ t, NoTickFires [.edge 0x01] t) ∧
    after (execAll [.poll, .edge 0x01] { start rowBuild with pending := true }) (fun u => u.lastSample == 1) = true :=
  ⟨by decide, fun _ => ⟨rfl, fun _ _ => trivial⟩, by decide⟩

theorem wit_MaskedRequests :
    ({ start rowBuild with gie := false } : State).gie = false ∧ (start rowBuild).cfg.scanner = .rowirq ∧
    ({ start rowBuild with edgeEn := false } : State).edgeEn = false := by decide

theorem wit_CounterBuild : (start sBuild).cfg.engine = .counter ∧ (start s2Build).cfg.badStages = .two := by decide

/-- `DbcStages`, the thresholds: on a pressed key a count of `T1` is no bounce above it, `T1 + 1` and `D - 1` are,
`D` is not; and a release on a BAD lane. -/
theorem wit_DbcStages :
    overThreshold refS 0x01 (counterLine 0x01 0 0 0 [0x01, 0x00, 0x00]) 1 0 = false ∧
    overThreshold refS 0x01 (counterLine 0x01 0 0 0 [0x00, 0x01, 0x00]) 1 0 = true ∧
    overThreshold refS 0x01 (counterLine 0x01 0 0 0 [0x00, 0x00, 0x01]) 1 0 = true ∧
    overThreshold refS 0x01 (counterLine 0x01 0 0 0 [0x01, 0x00, 0x01]) 1 0 = false ∧
    acceptsRelease refS 0x00 (counterLine 0x01 0 0x01 0x01 [0x01, 0x01, 0x01]) 0 = true := by decide

theorem wit_DebounceFrame :
    after (exec (.dbc 3 0xFF) (start sBuild)) (fun t => t.env.result == some 0x00) = true ∧
    after (exec (.dbf 3 0xFF) (start fsBuild)) (fun t => t.env.result == some 0x00) = true := by decide

theorem wit_BitPlanesAgree : (counterLine 0xFF 0 0 0 [0xAA, 0xCC, 0xF0]).cnt.length = sBuild.planes := by decide

/-- Lane 0 from a zero count on REF-1: `tgt = 1`, runs of one and of two differing samples. -/
theorem wit_CounterLatency :
    countAt ((start oneBuild).db.get 0).cnt 0 = 0 ∧ lane ((start oneBuild).db.get 0).last 0 = false ∧
    (∀ x ∈ ([0x01, 0x01] : List Byte), lane x 0 ≠ lane ((start oneBuild).db.get 0).state 0) ∧
    (start oneBuild).cfg.d = 1 := by decide

/-- The call after an acceptance, on REF-S (V3). -/
theorem wit_FlipBackLatency :
    (onS 0x01 0x01 0 [0, 1, 1]).cfg.engine = .counter ∧
    lane ((onS 0x01 0x01 0 [0, 1, 1]).db.get 0).last 0 = true ∧
    (∀ x ∈ ([0, 0, 0, 0, 0, 0, 0] : List Byte), lane x 0 ≠ lane ((onS 0x01 0x01 0 [0, 1, 1]).db.get 0).state 0) ∧
    ([0, 0, 0, 0, 0, 0, 0] : List Byte).length = (onS 0x01 0x01 0 [0, 1, 1]).cfg.d + 2 := by decide

/-- A pressed key with a zero count on REF-S, and a bounce of length 3. -/
theorem wit_BounceVerdict :
    (onS 0x01 0 0 [0, 0, 0]).cfg.engine = .counter ∧ countAt ((onS 0x01 0 0 [0, 0, 0]).db.get 0).cnt 0 = 0 ∧
    lane ((onS 0x01 0 0 [0, 0, 0]).db.get 0).last 0 = false ∧
    lane ((onS 0x01 0 0 [0, 0, 0]).db.get 0).state 0 = true ∧ (∀ x ∈ ([0, 0, 0] : List Byte), lane x 0 = false) ∧
    lane 0x01 0 = true ∧ ([0, 0, 0] : List Byte).length ≤ (onS 0x01 0 0 [0, 0, 0]).cfg.d := by decide

/-- A bad pressed key one call before its release is accepted (V5 call 13), and two (V5 call 12). -/
theorem wit_BadClearsOnRelease :
    (let s := onS 0x01 0 1 [1, 1, 1];
      lane (s.db.get 0).state 0 = true ∧ (s.db.get 0).stage 0 = .bad ∧
      after (exec (.dbc 0 0x00) s) (fun t => !lane (t.db.get 0).state 0) = true) ∧
    (let s := onS 0x01 0 1 [0, 1, 1];
      lane (s.db.get 0).state 0 = true ∧ (s.db.get 0).stage 0 = .bad ∧
      after (exec (.dbc 0 0x00) s) (fun t => lane (t.db.get 0).state 0) = true) := by decide

theorem wit_ExactMatchIsReached :
    CountBelowTarget (start sBuild) ∧
    after (exec (.dbc 0 0x01) (start sBuild)) (fun t => t.env.result == some 0x00) = true :=
  ⟨by
    show ∀ n i, lane ((start sBuild).db.get n).last i = false →
      ((start sBuild).db.get n).count i ≤ targetDelay (start sBuild).cfg.toCfg ((start sBuild).db.get n) i
    decide, by decide⟩

/-- A line whose lane 0 is in each of the six phases, inside its bounds, at the boundaries of the clauses of
`DbfOffAndTurningOn`, `DbfDeadZones`, `DbfOnAndTurningOff` and `DbfEmits`. -/
theorem wit_FsmLine :
    ∀ k ∈ ([⟨.off, 0, 0, 1⟩, ⟨.turningOn, 0, 0, 4⟩, ⟨.lockedOn, 0, 0, 1⟩, ⟨.lockedOn, 1, 0, 1⟩, ⟨.on, 2, 2, 1⟩,
        ⟨.on, 2, 1, 1⟩, ⟨.on, 2, 0, 1⟩] : List Key) ++
        [⟨.turningOff, 2, 2, 1⟩, ⟨.turningOff, 2, 1, 1⟩, ⟨.lockedOff, 0, 0, 1⟩, ⟨.lockedOff, 2, 0, 4⟩],
      (onF 0x00 k).cfg.engine = .fsm ∧
      ∀ i, (((onF 0x00 k).db.get 0).keys.get i).inRange (onF 0x00 k).cfg.toCfg = true := by decide

theorem wit_MultiplierNeverFalls :
    after (exec (.dbf 0 0x00) (withLine0 (keyLine 0x01 ⟨.lockedOn, 1, 0, 3⟩) (start fsBuild)))
      (fun t => (t.db.get 0).keys.o0 == ⟨.lockedOn, 0, 0, 4⟩) = true := by decide

theorem wit_FsmFirstTwoSamples :
    (start fsBuild).cfg.engine = .fsm ∧
    (∀ j, (((start fsBuild).db.get 0).keys.get j).inRange (start fsBuild).cfg.toCfg = true) ∧
    (((start fsBuild).db.get 0).keys.get 0).phase = .off ∧ lane 0x01 0 = true ∧ lane 0x00 0 = false ∧
    (((start fsBuild).db.get 0).keys.get 0).mult < (start fsBuild).cfg.multMax := by decide

/-- ON with a fresh countdown: `KON × m = TOFF × m = 2`, `LOFF × m = 1`, so runs of 3, 4 and 5 calls. -/
theorem wit_FsmShortestRelease :
    let s := onF 0x01 ⟨.on, 2, 2, 1⟩
    s.cfg.engine = .fsm ∧ (∀ j, ((s.db.get 0).keys.get j).inRange s.cfg.toCfg = true) ∧
    ((s.db.get 0).keys.get 0).phase = .on ∧ lane (s.db.get 0).state 0 = true ∧
    ((s.db.get 0).keys.get 0).countdown = s.cfg.keyOnChatterWindow * ((s.db.get 0).keys.get 0).mult ∧
    (∀ x ∈ ([0, 0, 0, 0, 0] : List Byte), lane x 0 = false) := by decide

theorem wit_FsmHeldKey :
    (let s := onF 0x01 ⟨.lockedOn, 1, 0, 1⟩;
      s.cfg.engine = .fsm ∧ (∀ j, ((s.db.get 0).keys.get j).inRange s.cfg.toCfg = true) ∧
      ((s.db.get 0).keys.get 0).phase = .lockedOn ∧ ∀ x ∈ ([0, 0] : List Byte), lane x 0 = false) ∧
    (let s := onF 0x00 ⟨.lockedOff, 0, 0, 1⟩;
      s.cfg.engine = .fsm ∧ (∀ j, ((s.db.get 0).keys.get j).inRange s.cfg.toCfg = true) ∧
      ((s.db.get 0).keys.get 0).phase = .lockedOff ∧ ∀ x ∈ ([1, 1] : List Byte), lane x 0 = true) := by decide

theorem wit_BuildRefusals :
    (start fsBuild).cfg.engine = .fsm ∧ (start sBuild).cfg.engine = .counter ∧
    (start fsRowBuild).cfg.scanner = .rowirq ∧ (start sBuild).cfg.scanner = .matrix ∧ 4 ≤ 4 := by decide

/-- A multiplier of 0 and one above MULT_MAX, in a matrix build and in a row-sampler build. -/
theorem wit_KeyBoundsRefused :
    (∀ m ∈ ([0, 5] : List Nat), (((onF 0x00 ⟨.off, 0, 0, m⟩).db.get 0).keys.get 0).inRange fsBuild.toCfg = false) ∧
    (start fsBuild).cfg.engine = .fsm ∧ (start fsBuild).cfg.scanner = .matrix ∧
    (start fsRowBuild).cfg.engine = .fsm ∧ (start fsRowBuild).cfg.scanner = .rowirq ∧
    (start fsRowBuild).curRow = 0 := by decide

theorem wit_DriveAndRead :
    (start oneBuild).cfg.scanner = .matrix ∧ (answered [0x81] (start oneBuild)).env.pins = 0x81 :: [] ∧
    (start oneBuild).env.pins = [] := by decide

theorem wit_SamplingOrder : 1 ≤ 1 ∧ 1 * 4 * 1 ≤ (answered [1, 0, 0, 0x80] (start oneBuild)).env.pins.length := by
  decide

theorem wit_ScanmPass :
    (start passes3).cfg.scanner = .matrix ∧
    (∀ n, ((start passes3).db.get n).callable (start passes3).cfg.toCfg = true) ∧
    passes3.passes * 4 * passes3.reads ≤ (List.replicate 12 (0 : Byte)).length := by decide

theorem wit_MajorityNeverTies :
    passes3.scanner = .matrix ∧ ([1, 0, 1] : List Byte).length = passes3.passes * passes3.reads := by decide

theorem wit_EdgeEffect :
    (start rowBuild).cfg.scanner = .rowirq ∧ (start rowBuild).edgeEn = true ∧ (start rowBuild).gie = true := by decide

/-- The first and the last row, in a counter and in a finite-state build. -/
theorem wit_RowtTick :
    (start rowBuild).cfg.scanner = .rowirq ∧
    (∀ n, ((start rowBuild).db.get n).callable (start rowBuild).cfg.toCfg = true) ∧
    (∀ n, ((start fsRowBuild).db.get n).callable (start fsRowBuild).cfg.toCfg = true) := by decide

/-- The four ticks of a round, in a build where they run. -/
theorem wit_RoundOfFour :
    (start rowBuild).cfg.scanner = .rowirq ∧
    (∀ n, ((start rowBuild).db.get n).callable (start rowBuild).cfg.toCfg = true) := by decide

theorem wit_RecordAppends :
    (start oneBuild).cfg.reshuffle = false ∧ (start shuffled).cfg.reshuffle = true ∧
    (3 : LineIdx).val = (7 : LaneIdx).val / 2 ∧ (7 : LaneIdx).val = 4 * ((7 : LaneIdx).val % 2) + (3 : LineIdx).val := by
  decide

theorem wit_RingWholeSnapshots :
    after (exec .record (start oneBuild)) (fun t => t.ringOut == [0, 0, 0, 0]) = true := by decide

theorem wit_OnlyWritersWrite : after (exec .read (answered [1] (start oneBuild))) (fun t => t.pending == false) = true := by
  decide

theorem wit_MaskIsFlips :
    PhaseTellsState (start fsBuild) ∧
    after (exec (.dbf 0 0x01) (start fsBuild)) (fun t => t.env.result == some 0x00) = true ∧
    after (exec (.dbc 0 0x01) (start sBuild)) (fun t => t.env.result == some 0x00) = true :=
  ⟨by
    show ∀ n i, lane ((start fsBuild).db.get n).state i = true ↔
      (((start fsBuild).db.get n).keys.get i).phase = .lockedOn ∨ (((start fsBuild).db.get n).keys.get i).phase = .on ∨
      (((start fsBuild).db.get n).keys.get i).phase = .turningOff
    decide, by decide, by decide⟩

theorem wit_BuildNeverWritten : after (step (withTrace [0x01] State.reset)) (fun t => t.env.trace == []) = true := by
  decide

theorem wit_NothingFails :
    FsmInv (start fsBuild) ∧ Instr.wellFormed (.dbf 3 0) = true ∧ inBuild fsBuild.toCfg (.dbf 3 0) = true :=
  ⟨fun _ => ⟨by
      show ∀ n i, (((start fsBuild).db.get n).keys.get i).inRange (start fsBuild).cfg.toCfg = true
      decide, wit_MaskIsFlips.1⟩, by decide, by decide⟩

/-- A state with every invariant, in a counter build, from which a step answers a next state. -/
theorem wit_StepKeepsInvariants :
    SystemInv State.reset ∧ CounterInv State.reset ∧
    after (step (withTrace [0x10] State.reset)) (fun t => t.pending) = true := by
  refine ⟨⟨⟨rfl, rfl⟩, ?_, .inl rfl, ?_, ?_⟩, fun _ => ⟨?_, ?_, ?_, ?_⟩, ?_⟩
  · unfold StabilityHighZero; decide
  · unfold WatchedRowDriven; decide
  · unfold AbsentAtReset; decide
  · unfold PlanesFit; decide
  · unfold BadOnlyPressed; decide
  · unfold CountBelowTarget; decide
  · unfold OneStageOnly; decide
  · decide

/-- With a tick pending. -/
def ticked (s : State) : State :=
  { s with pending := true }

/-- An interleaving of a matrix pass: its atomic steps, with a `TICK` after the first. -/
theorem wit_MatrixPollAtomic :
    (let as : List AtomicStep := .main (.drive 0) :: .agent .tick :: ((matrixSteps 1 1).tail.map .main)
     mainSteps as = matrixSteps (ticked (start oneBuild)).cfg.passes (ticked (start oneBuild)).cfg.reads ∧
     .reset ∉ agentEvents as) ∧
    (ticked (start oneBuild)).cfg.scanner = .matrix ∧ (ticked (start oneBuild)).pending = true ∧
    EnablesUp (ticked (start oneBuild)) ∧
    (∀ n, ((ticked (start oneBuild)).db.get n).callable (ticked (start oneBuild)).cfg.toCfg = true) :=
  ⟨by decide, rfl, rfl, ⟨rfl, rfl⟩, by decide⟩

/-- An interleaving of a row-sampler tick: a `TICK` before the window, an `EDGE` between the debounce call and the
recording; and, for the second clause, a pass cut after its window. -/
theorem wit_RowPollAtomic :
    (let as : List AtomicStep := [.main .debounceRow, .agent (.edge 0x01), .main .record]
     mainSteps as = [.debounceRow, .record] ∧ .reset ∉ agentEvents as) ∧
    .reset ∉ [AgentEvent.tick] ∧ (∀ m ∈ mainSteps [.main .window, .agent .tick], m ∈ rowSteps) ∧
    (ticked (start rowBuild)).cfg.scanner = .rowirq ∧ (ticked (start rowBuild)).pending = true ∧
    EnablesUp (ticked (start rowBuild)) ∧
    ((ticked (start rowBuild)).db.get (ticked (start rowBuild)).curRow).callable
      (ticked (start rowBuild)).cfg.toCfg = true :=
  ⟨by decide, by decide, by decide, rfl, rfl, ⟨rfl, rfl⟩, by decide⟩

/-- R56, R190, R191: a `RESET` after the window of a row-sampler pass leaves MAIN idle in the state after reset; the
debounce call and the recording of that pass no longer happen, and a later `EDGE` acts on the reset core. -/
theorem test_reset_inside_pass :
    runAtomic [.main .window, .agent .reset, .main .debounceRow, .main .record]
      (.inPass (Pass.start (ticked { start rowBuild with lastSample := 0x01, curRow := 2, driveSel := 2 }))) =
      .idle (start rowBuild) ∧
    (runAtomic [.agent .reset, .agent (.edge 0x04)] (.inPass (Pass.start (start rowBuild)))).core.lastSample = 0x04 := by
  decide

/-- log 21: an `EDGE` between the steps of a pass of a matrix build, where the agent does not exist (R7, R172). -/
theorem test_edge_absent_in_matrix_pass :
    AgentEvent.apply (.edge 0x04) (start oneBuild) = start oneBuild ∧
    (AgentEvent.apply (.edge 0x04) (start rowBuild)).lastSample = 0x04 := by decide

end Sys2Proof.Tests
end

section
/-! Configuration validation: each check of `Cfg.passes?` as the arithmetic condition of 00_scope.md R12, what `boot`
answers, and obligation O9. -/

namespace Sys2Proof.Machine

variable (c : Cfg)

/-- A valid configuration gives the machine in the state after reset (R12, R190). -/
theorem boot_of_valid (e : Env) (h : c.valid = true) :
    boot c e = .next (State.initial { c with isValid := h } e) :=
  dif_pos h

/-- An invalid configuration is refused before reset, with its failing checks (R12, R171). -/
theorem boot_of_not_valid (e : Env) (h : ¬ c.valid = true) : boot c e = .refused (.invalidConfig c.failures) :=
  dif_neg h

/-- CFG6 bounds the longest of the four windows, which is to bound each of them. -/
theorem longestWindow_mul_lt_iff (m b : Nat) :
    c.longestWindow * m < b ↔
      ∀ P ∈ [c.lockedOnPeriod, c.keyOnChatterWindow, c.turningOffChatterWindow, c.lockedOffPeriod], P * m < b := by
  simp only [Cfg.longestWindow, ← Nat.mul_max_mul_right, max_lt_iff, List.forall_mem_cons, List.not_mem_nil,
    IsEmpty.forall_iff, implies_true, and_true, and_assoc]

/-- CFG6 in a finite-state build, window by window. -/
theorem fsmOk_iff :
    c.fsmOk = true ↔
      1 ≤ c.lockedOnPeriod ∧ 1 ≤ c.keyOnChatterWindow ∧ 1 ≤ c.turningOffChatterWindow ∧
      1 ≤ c.lockedOffPeriod ∧ 1 ≤ c.multStep ∧ 1 + c.multStep ≤ c.multMax ∧ c.multMax < 2 ^ c.wMult ∧
      (∀ P ∈ [c.lockedOnPeriod, c.keyOnChatterWindow, c.turningOffChatterWindow, c.lockedOffPeriod],
        P * c.multMax < 2 ^ c.wCnt) := by
  rw [← longestWindow_mul_lt_iff]
  simp only [Cfg.fsmOk, Bool.and_eq_true, decide_eq_true_eq, and_assoc]

theorem passes_cfg1_iff : c.passes? .cfg1 = true ↔ 1 ≤ c.d :=
  decide_eq_true_iff

theorem passes_cfg2_iff : c.passes? .cfg2 = true ↔ c.d < c.dBad :=
  decide_eq_true_iff

theorem passes_cfg3_iff : c.passes? .cfg3 = true ↔ c.dBad < 2 ^ c.planes ∧ c.d < 2 ^ c.planes := by
  simp only [Cfg.passes?, Bool.and_eq_true, decide_eq_true_eq]

theorem passes_cfg4_iff : c.passes? .cfg4 = true ↔ c.t1 < c.d ∧ c.t1 < 2 ^ c.planes := by
  simp only [Cfg.passes?, Bool.and_eq_true, decide_eq_true_eq]

/-- CFG5 asks something of a two-stage build only. -/
theorem passes_cfg5_iff : c.passes? .cfg5 = true ↔ (c.badStages = .two → c.t1 < c.t2 ∧ c.t2 < c.d) := by
  cases h : c.badStages with
  | one => simp [Cfg.passes?, h]
  | two => simp [Cfg.passes?, h]

/-- CFG6 asks something of a finite-state build only. -/
theorem passes_cfg6_iff : c.passes? .cfg6 = true ↔ (c.engine = .fsm → c.fsmOk = true) := by
  cases h : c.engine with
  | counter => simp [Cfg.passes?, h]
  | fsm => simp [Cfg.passes?, h]

/-- CFG7 asks something of a matrix build only. -/
theorem passes_cfg7_iff :
    c.passes? .cfg7 = true ↔ (c.scanner = .matrix → 1 ≤ c.reads ∧ 1 ≤ c.passes ∧ Odd (c.reads * c.passes)) := by
  cases h : c.scanner with
  | rowirq => simp [Cfg.passes?, h]
  | matrix => simp [Cfg.passes?, h, Nat.odd_iff, and_assoc]

theorem passes_cfg8_iff : c.passes? .cfg8 = true ↔ c.intervalReset < 2 ^ 8 :=
  decide_eq_true_iff

/-- CFG9 holds in every build: the model has four lines by type (log 14). -/
theorem passes_cfg9_iff : c.passes? .cfg9 = true ↔ (c.reshuffle = true → lineCount = 4) :=
  iff_of_true rfl fun _ => rfl

variable {c}

/-- What `boot` answers, for any reading `holds` of the nine checks that agrees with `Cfg.passes?` on each. -/
theorem boot_decides {holds : CfgCode → Prop} (hk : ∀ k, c.passes? k = true ↔ holds k) (e : Env) :
    ((∀ k, holds k) → ∃ h : c.valid = true, boot c e = .next (State.initial { c with isValid := h } e)) ∧
    ((¬ ∀ k, holds k) → ∃ codes, boot c e = .refused (.invalidConfig codes) ∧ ∀ k, k ∈ codes ↔ ¬ holds k) := by
  have hvalid : c.valid = true ↔ ∀ k, holds k := (cfg_valid_iff c).trans (forall_congr' hk)
  constructor
  · intro hall
    exact ⟨hvalid.mpr hall, boot_of_valid c e _⟩
  · intro hfail
    refine ⟨c.failures, boot_of_not_valid c e (mt hvalid.mp hfail), fun k => ?_⟩
    rw [cfg_mem_failures, ← hk k, Bool.not_eq_true]

/-- Settles O9: `boot` decides by `Cfg.passes?`, and check by check that is the condition R12 writes out. -/
theorem configValidation : Obligations.ConfigValidation := by
  intro c e holds
  refine boot_decides (fun k => ?_) e
  cases k with
  | cfg1 => exact passes_cfg1_iff c
  | cfg2 => exact passes_cfg2_iff c
  | cfg3 => exact passes_cfg3_iff c
  | cfg4 => exact passes_cfg4_iff c
  | cfg5 => exact passes_cfg5_iff c
  | cfg6 => exact (passes_cfg6_iff c).trans (imp_congr_right fun _ => fsmOk_iff c)
  | cfg7 => exact passes_cfg7_iff c
  | cfg8 => exact passes_cfg8_iff c
  | cfg9 => exact passes_cfg9_iff c

end Sys2Proof.Machine
end

section
/-! What a step can do: `Effect` lists it once, operation by operation, with exactly the elements that may change
(10_state.md R36, column W); `exec_effect` and `step_effect` tie it to `exec` and `step`. The proofs about every
operation and every step start from these. Obligation O53. -/

namespace Sys2Proof.Machine

/-- What an operation that completes may leave of `s`, one constructor per group of operations that write the same
elements. The environment after it is arbitrary in each. -/
inductive Effect (s : State) : Instr → State → Prop
  /-- every element at its reset value (R190) -/
  | reset (e : Env) : Effect s .reset (State.initial s.cfg e)
  /-- the count restarts, goes on below the interval, or stays where `TB` is masked (R151) -/
  | tb (p : Bool) (k : Byte) (e : Env) (hk : k = 0 ∨ k = s.timerCnt ∨ k.toNat < s.scanInterval.toNat) :
    Effect s .tb { s with pending := p, timerCnt := k, env := e }
  | tick (p : Bool) (e : Env) : Effect s .tick { s with pending := p, env := e }
  /-- an operation that writes no element of the core; `POLL` is one where no tick is pending (R153) -/
  | outputOnly {i : Instr} (hi : i = .poll ∨ i = .geti ∨ i = .read) (e : Env) : Effect s i { s with env := e }
  | seti (v : Byte) (e : Env) : Effect s (.seti v) { s with scanInterval := v, timerCnt := 0, env := e }
  /-- a debounce call on its own (R90, R110) -/
  | call {i : Instr} (n : LineIdx) (x : Byte)
      (hi : i = .dbc n.val x ∧ s.cfg.engine = .counter ∨ i = .dbf n.val x ∧ s.cfg.engine = .fsm)
      (hk : (s.db.get n).callable s.cfg.toCfg = true) (e : Env) :
    Effect s i { s with db := s.db.set n (engineCall s.cfg.toCfg x (s.db.get n)), env := e }
  /-- a pass of the matrix scanner, from the reads `v` of each line (R130, R153) -/
  | matrix {i : Instr} {p : Bool} (hi : i = .scanm ∧ p = s.pending ∨ i = .poll ∧ p = false)
      (hs : s.cfg.scanner = .matrix) (hk : ∀ n, (s.db.get n).callable s.cfg.toCfg = true)
      (v : Quad (List Byte)) (d : LineIdx) (recorded : Bool) (r : List Byte) (e : Env) :
    Effect s i { s with
      pending := p, db := debouncedLines s.cfg.toCfg v s.db, stability := stabilityOf v, driveSel := d
      gie := s.gie || recorded, ringOut := r, env := e }
  | drive (n : LineIdx) (hs : s.cfg.scanner = .matrix) (e : Env) :
    Effect s (.drive n.val) { s with driveSel := n, env := e }
  /-- a tick of the row sampler (R142, R153) -/
  | row {i : Instr} {p : Bool} (hi : i = .rowt ∧ p = s.pending ∨ i = .poll ∧ p = false)
      (hs : s.cfg.scanner = .rowirq) (hk : (s.db.get s.curRow).callable s.cfg.toCfg = true)
      (q : Quad Byte) (l : Byte) (recorded : Bool) (r : List Byte) (e : Env) :
    Effect s i { s with
      pending := p, db := s.db.set s.curRow (engineCall s.cfg.toCfg s.lastSample (s.db.get s.curRow))
      driveSel := s.curRow + 1, curRow := s.curRow + 1, rowBuf := q, lastSample := l, changeFlag := false
      edgeEn := true, gie := s.gie || recorded, ringOut := r, env := e }
  | edge (v : Byte) (hs : s.cfg.scanner = .rowirq) (l : Byte) (f : Bool) (e : Env) :
    Effect s (.edge v) { s with lastSample := l, changeFlag := f, env := e }
  | record (r : List Byte) (e : Env) : Effect s .record { s with gie := true, ringOut := r, env := e }
  | append (b : Byte) (r : List Byte) (e : Env) : Effect s (.append b) { s with ringOut := r, env := e }

variable {s t : State} {i : Instr}

/-- What `TB` writes, delivered or masked (R151, R173). -/
theorem takeInterrupt_timebaseEvent (b : Bool) (s : State) :
    ∃ p k, takeInterrupt b timebaseEvent s = { s with pending := p, timerCnt := k } ∧
      (k = 0 ∨ k = s.timerCnt ∨ k.toNat < s.scanInterval.toNat) := by
  cases b with
  | false => exact ⟨s.pending, s.timerCnt, rfl, .inr (.inl rfl)⟩
  | true =>
    rw [takeInterrupt_true, timebaseEvent]
    split
    next => exact ⟨true, 0, rfl, .inl rfl⟩
    next hk => exact ⟨s.pending, s.timerCnt + 1, rfl, .inr (.inr (by bv_omega))⟩

theorem takeInterrupt_setPending (b : Bool) (s : State) :
    ∃ p, takeInterrupt b setPending s = { s with pending := p } := by
  cases b with
  | false => exact ⟨s.pending, rfl⟩
  | true => exact ⟨true, rfl⟩

theorem takeInterrupt_edgeHandler (b : Bool) (v : Byte) (s : State) :
    ∃ l f, takeInterrupt b (edgeHandler v) s = { s with lastSample := l, changeFlag := f } := by
  cases b with
  | false => exact ⟨s.lastSample, s.changeFlag, rfl⟩
  | true => exact ⟨v, nextChangeFlag s.changeFlag s.lastSample v, rfl⟩

/-- What a matrix pass writes (`matrixPass_spec`, `recordedIf_eq`). -/
theorem matrixPass_frame (s : State) :
    ∃ v d recorded r e, matrixPass s = { s with
      db := debouncedLines s.cfg.toCfg v s.db, stability := stabilityOf v, driveSel := d
      gie := s.gie || recorded, ringOut := r, env := e } := by
  obtain ⟨v, pins, cnt, d, -, -, -, -, hm⟩ := matrixPass_spec s
  rw [hm, recordedIf_eq]
  exact ⟨v, d, _, _, _, rfl⟩

/-- What a row-sampler tick writes (`rowPass_spec`, `recordedIf_eq`). -/
theorem rowPass_frame (s : State) :
    ∃ q l recorded r e, rowPass s = { s with
      db := s.db.set s.curRow (engineCall s.cfg.toCfg s.lastSample (s.db.get s.curRow))
      driveSel := s.curRow + 1, curRow := s.curRow + 1, rowBuf := q, lastSample := l, changeFlag := false
      edgeEn := true, gie := s.gie || recorded, ringOut := r, env := e } := by
  rw [rowPass_spec, recordedIf_eq]
  exact ⟨_, _, _, _, _, rfl⟩

/-- An operation that completes has its effect. -/
theorem exec_effect (h : exec i s = .next t) : Effect s i t := by
  cases i with
  | reset =>
    obtain rfl := exec_reset_next.mp h
    exact .reset _
  | tb =>
    obtain ⟨p, k, ht, hk⟩ := takeInterrupt_timebaseEvent (timerEnabled s) s
    rw [exec_tb_next.mp h, ht]
    exact .tb p k _ hk
  | tick =>
    obtain ⟨p, ht⟩ := takeInterrupt_setPending (timerEnabled s) s
    rw [exec_tick_next.mp h, ht]
    exact .tick p _
  | poll =>
    rcases exec_poll_next.mp h with ⟨-, rfl⟩ | ⟨-, hs, hk, rfl⟩ | ⟨-, hs, hk, rfl⟩
    · exact .outputOnly (.inl rfl) _
    · obtain ⟨v, d, b, r, e, ht⟩ := matrixPass_frame { s with pending := false }
      rw [ht]
      exact .matrix (.inr ⟨rfl, rfl⟩) hs hk v d b r e
    · obtain ⟨q, l, b, r, e, ht⟩ := rowPass_frame { s with pending := false }
      rw [ht]
      exact .row (.inr ⟨rfl, rfl⟩) hs hk q l b r e
  | geti =>
    obtain rfl := exec_geti_next.mp h
    exact .outputOnly (.inr (.inl rfl)) _
  | seti v =>
    obtain rfl := exec_seti_next.mp h
    exact .seti v _
  | dbc n x =>
    obtain ⟨he, hn, rfl⟩ := exec_dbc_next.mp h
    rw [← engineCall_counter he]
    exact .call ⟨n, hn⟩ x (.inl ⟨rfl, he⟩) ((callable_iff _ _).mpr (by simp [he])) _
  | dbf n x =>
    obtain ⟨he, hn, hk, rfl⟩ := exec_dbf_next.mp h
    rw [← engineCall_fsm he]
    exact .call ⟨n, hn⟩ x (.inr ⟨rfl, he⟩) ((callable_iff _ _).mpr fun _ => hk) _
  | scanm =>
    obtain ⟨hs, hk, rfl⟩ := exec_scanm_next.mp h
    obtain ⟨v, d, b, r, e, ht⟩ := matrixPass_frame s
    rw [ht]
    exact .matrix (.inl ⟨rfl, rfl⟩) hs hk v d b r e
  | drive n =>
    obtain ⟨hs, hn, rfl⟩ := exec_drive_next.mp h
    exact .drive ⟨n, hn⟩ hs _
  | read =>
    obtain ⟨-, rfl⟩ := exec_read_next.mp h
    rw [pinRead_state]
    exact .outputOnly (.inr (.inr rfl)) _
  | rowt =>
    obtain ⟨hs, hk, rfl⟩ := exec_rowt_next.mp h
    obtain ⟨q, l, b, r, e, ht⟩ := rowPass_frame s
    rw [ht]
    exact .row (.inl ⟨rfl, rfl⟩) hs hk q l b r e
  | edge v =>
    obtain ⟨hs, rfl⟩ := exec_edge_next.mp h
    obtain ⟨l, f, ht⟩ := takeInterrupt_edgeHandler (edgeEnabled s) v s
    rw [ht]
    exact .edge v hs l f _
  | record =>
    obtain rfl := exec_record_next.mp h
    exact .record _ _
  | append b =>
    obtain rfl := exec_append_next.mp h
    exact .append b _ _

/-- No effect depends on the environment before. -/
theorem Effect.of_env {e₀ : Env} (h : Effect { s with env := e₀ } i t) : Effect s i t := by
  cases h with
  | reset e => exact .reset e
  | tb p k e hk => exact .tb p k e hk
  | tick p e => exact .tick p e
  | outputOnly hi e => exact .outputOnly hi e
  | seti v e => exact .seti v e
  | call n x hi hk e => exact .call (s := s) n x hi hk e
  | matrix hi hs hk v d b r e => exact .matrix (s := s) hi hs hk v d b r e
  | drive n hs e => exact .drive (s := s) n hs e
  | row hi hs hk q l b r e => exact .row (s := s) hi hs hk q l b r e
  | edge v hs l f e => exact .edge (s := s) v hs l f e
  | record r e => exact .record r e
  | append b r e => exact .append b r e

/-- A step has the effect of some operation; one in which no agent acts changes the core no more than a `GETI`. -/
theorem step_effect (h : step s = .next t) : ∃ i, Effect s i t := by
  rcases step_cases h with ⟨i, s', hf, he⟩ | rfl
  · refine ⟨i, ?_⟩
    rcases fetch_perform hf with ⟨rest, -, rfl⟩ | ⟨-, rfl, -, -⟩
    · exact (exec_effect he).of_env
    · exact (exec_effect he).of_env
  · exact ⟨.geti, .outputOnly (.inr (.inl rfl)) _⟩

/-- No operation writes the configuration (R40(a)). -/
theorem Effect.cfg_eq (h : Effect s i t) : t.cfg = s.cfg := by
  cases h <;> rfl

/-- Settles O53: no effect of a step is on the build. -/
theorem buildNeverWritten : Obligations.BuildNeverWritten := by
  intro s t h
  obtain ⟨i, he⟩ := step_effect h
  exact he.cfg_eq

end Sys2Proof.Machine
end

section
/-! What a debounce call keeps of a line: the counter engine's invariant `CounterLine` and the finite-state engine's
`FsmLine`, each the line's share of `CounterInv` and `FsmInv` (10_state.md section 7). Obligation O52. -/

namespace Sys2Proof.Machine

/-! ## The counter engine (R24, R37(d), R38(b), R38(d)) -/

/-- The counter engine's invariant of one line. -/
structure CounterLine (c : Cfg) (l : Line) : Prop where
  planes : l.cnt.length = c.planes
  badPressed : ∀ i, lane l.bad i = true → lane l.state i = true
  belowTarget : ∀ i, lane l.last i = false → l.count i ≤ targetDelay c l i
  oneStage : c.badStages = .one → ∀ i, l.stage i = .clean ∨ l.stage i = .bad

theorem counterInv_iff (s : State) :
    CounterInv s ↔ (s.cfg.engine = .counter → ∀ n, CounterLine s.cfg.toCfg (s.db.get n)) := by
  refine imp_congr_right fun _ => ?_
  constructor
  · rintro ⟨hp, hb, hc, ho⟩ n
    exact ⟨hp n, hb n, hc n, fun h => ho h n⟩
  · intro h
    exact ⟨fun n => (h n).planes, fun n => (h n).badPressed, fun n => (h n).belowTarget,
      fun hv n => (h n).oneStage hv⟩

theorem counterLine_initial (c : Cfg) : CounterLine c (Line.initial c) where
  planes := List.length_replicate ..
  badPressed i hi := by simp [Line.initial, Line.bad] at hi
  belowTarget i _ := by simp [Line.initial, Line.count, countAt_replicate_zero]
  oneStage _ i := .inl (by simp [Line.initial, Line.stage, Stage.ofBits])

/-- R98: a lane ends BAD only when it releases nothing, and was BAD or bounced over a threshold. -/
theorem nextStage_eq_bad {v : BadStages} {g : Stage} {rel over1 over2 : Bool}
    (h : nextStage v g rel over1 over2 = .bad) : rel = false ∧ (g = .bad ∨ over1 = true ∨ over2 = true) := by
  cases v <;> cases g <;> cases rel <;> cases over1 <;> simp_all [nextStage]

/-- R98: only an accepted release ends BAD. -/
theorem nextStage_bad (v : BadStages) (over1 over2 : Bool) : nextStage v .bad false over1 over2 = .bad := by
  cases v <;> simp [nextStage]

/-- R98: the one-stage detector knows CLEAN and BAD only. -/
theorem nextStage_one {g : Stage} (h : g = .clean ∨ g = .bad) (rel over1 over2 : Bool) :
    nextStage .one g rel over1 over2 = .clean ∨ nextStage .one g rel over1 over2 = .bad := by
  cases rel <;> cases over1 <;> simp [nextStage, h]

theorem state_of_overThreshold {c : Cfg} {x : Byte} {l : Line} {T : Nat} {i : LaneIdx}
    (h : overThreshold c x l T i = true) : lane l.state i = true ∧ differs x l i = false := by
  simp only [overThreshold, stableActive, Bool.and_eq_true, Bool.not_eq_true'] at h
  exact ⟨h.1.1.2, h.1.1.1⟩

variable {x : Byte} {l : Line} {i : LaneIdx}

/-- R38(b): a lane that a call leaves BAD is pressed, and was so, because a release ends BAD. -/
theorem counterCall_bad_pressed {c : Cfg} (hb : lane l.bad i = true → lane l.state i = true)
    (h : lane (counterCall c x l).bad i = true) : lane (counterCall c x l).state i = true := by
  rw [← Line.stage_bad_iff, counterCall_stage] at h
  obtain ⟨hrel, hwas⟩ := nextStage_eq_bad h
  have hst : lane l.state i = true := by
    rcases hwas with hg | ho | ho
    · exact hb ((Line.stage_bad_iff l i).mp hg)
    · exact (state_of_overThreshold ho).1
    · exact (state_of_overThreshold ho).1
  have hacc : accepts c x l i = false := by simpa [acceptsRelease, hst] using hrel
  simp [hst, hacc]

/-- A call that accepts nothing never shortens a lane's target: it does not end BAD, and `D < D_BAD` (CFG2). -/
theorem targetDelay_le_counterCall {c : ValidCfg} (h : accepts c.toCfg x l i = false) :
    targetDelay c.toCfg l i ≤ targetDelay c.toCfg (counterCall c.toCfg x l) i := by
  have hd := c.d_lt_dBad
  have hstay : l.stage i = .bad → (counterCall c.toCfg x l).stage i = .bad := by
    intro hg
    rw [counterCall_stage, stageAfter, acceptsRelease, h, hg]
    exact nextStage_bad ..
  unfold targetDelay
  split
  next hg => rw [if_pos (hstay hg)]
  next => split <;> omega

/-- R99, R94: a lane that does not accept has not reached its target, so counting one more stays within it. -/
theorem countAfter_le_target {c : Cfg} (hc : lane l.last i = false → l.count i ≤ targetDelay c l i)
    (h : accepts c x l i = false) : countAfter c x l i ≤ targetDelay c l i := by
  unfold countAfter
  split
  next => exact Nat.zero_le _
  next hl =>
    have hl : lane l.last i = false := by simpa using hl
    have hle := hc hl
    split
    next hd =>
      have hne : l.count i ≠ targetDelay c l i := by simpa [accepts, hd, effCount, hl] using h
      have heff : effCount l i = l.count i := by simp [effCount, hl]
      calc (effCount l i + 1) % 2 ^ c.planes ≤ l.count i + 1 := heff ▸ Nat.mod_le _ _
        _ ≤ targetDelay c l i := by omega
    next => exact Nat.zero_le _

theorem counterLine_counterCall {c : ValidCfg} (x : Byte) (h : CounterLine c.toCfg l) :
    CounterLine c.toCfg (counterCall c.toCfg x l) where
  planes := counterCall_planes ..
  badPressed i := counterCall_bad_pressed (h.badPressed i)
  belowTarget i hi := by
    rw [counterCall_lane_last] at hi
    rw [counterCall_count]
    exact (countAfter_le_target (h.belowTarget i) hi).trans (targetDelay_le_counterCall hi)
  oneStage hv i := by
    rw [counterCall_stage, stageAfter, hv]
    exact nextStage_one (h.oneStage hv i) ..

/-! ## The finite-state engine (R28, R38(e)) -/

/-- The phases in which the stable bit is 1 (R38(e)). -/
def Phase.pressed : Phase → Bool
  | .off => false
  | .turningOn => false
  | .lockedOn => true
  | .on => true
  | .turningOff => true
  | .lockedOff => false

theorem Phase.pressed_iff (p : Phase) : p.pressed = true ↔ p = .lockedOn ∨ p = .on ∨ p = .turningOff := by
  cases p <;> simp [Phase.pressed]

/-- A window times a multiplier is at most the longer of two windows times that multiplier. -/
theorem mul_le_longer_mul (a b m : Nat) : a * m ≤ max a b * m ∧ b * m ≤ max a b * m :=
  ⟨Nat.mul_le_mul_right m (Nat.le_max_left a b), Nat.mul_le_mul_right m (Nat.le_max_right a b)⟩

/-- The bounds of a key record (log 13), with what a dead zone asks besides as implications from the phase. -/
theorem Key.inRange_iff (c : Cfg) (k : Key) :
    k.inRange c = true ↔
      (1 ≤ k.mult ∧ k.mult ≤ c.multMax) ∧
      k.countdown ≤ max c.keyOnChatterWindow c.turningOffChatterWindow * k.mult ∧
      k.cycles ≤ max c.lockedOnPeriod c.lockedOffPeriod * k.mult ∧
      (k.phase = .lockedOn → k.cycles < c.lockedOnPeriod * k.mult) ∧
      (k.phase = .lockedOff → k.cycles < c.lockedOffPeriod * k.mult) := by
  obtain ⟨hon, hoff⟩ := mul_le_longer_mul c.lockedOnPeriod c.lockedOffPeriod k.mult
  simp only [Key.inRange, Bool.and_eq_true, decide_eq_true_eq, and_assoc]
  cases hp : k.phase with
  | lockedOn => simp; omega
  | lockedOff => simp; omega
  | _ => simp

variable {c : Cfg} {k : Key}

/-- A call keeps a multiplier within its maximum or raises it towards it (R119). -/
theorem keyCall_mult_bounds (hk : k.mult ≤ c.multMax) (x : Bool) :
    k.mult ≤ (keyCall c x k).1.mult ∧ (keyCall c x k).1.mult ≤ c.multMax := by
  rcases keyCall_mult c x k with h | h
  · exact ⟨h.ge, h ▸ hk⟩
  · exact ⟨h ▸ le_bumped hk, h ▸ bumped_le ..⟩

/-- R114 to R118, R120: a call starts a countdown at one of the two chatter windows, or lets it go down. -/
theorem keyCall_countdown_le (x : Bool)
    (h : k.countdown ≤ max c.keyOnChatterWindow c.turningOffChatterWindow * k.mult) :
    (keyCall c x k).1.countdown ≤ max c.keyOnChatterWindow c.turningOffChatterWindow * k.mult := by
  obtain ⟨hon, hoff⟩ := mul_le_longer_mul c.keyOnChatterWindow c.turningOffChatterWindow k.mult
  rcases keyCall_cases c x k with ⟨-, e⟩ | ⟨-, e⟩ | ⟨-, e⟩ | ⟨-, e⟩ | ⟨-, e⟩ | ⟨-, e⟩ <;>
    simp only [e, callOff, callTurningOn, callLockedOn, callOn, callTurningOff, callLockedOff, dec_eq] <;>
    (repeat' split) <;> simp only <;> omega

/-- R113 to R118: a call keeps `cycles`, restarts it, or counts one more inside a dead zone, and ends in a dead zone
only with a restarted count or one below the zone's window. -/
theorem keyCall_cycles (x : Bool) :
    let k' := (keyCall c x k).1
    (k'.cycles = 0 ∨ k'.cycles = k.cycles ∨
      k'.cycles = k.cycles + 1 ∧ (k.phase = .lockedOn ∨ k.phase = .lockedOff)) ∧
    (k'.phase = .lockedOn → k'.cycles = 0 ∨ k'.cycles < c.lockedOnPeriod * k.mult) ∧
    (k'.phase = .lockedOff → k'.cycles = 0 ∨ k'.cycles < c.lockedOffPeriod * k.mult) := by
  rcases keyCall_cases c x k with ⟨h, e⟩ | ⟨h, e⟩ | ⟨h, e⟩ | ⟨h, e⟩ | ⟨h, e⟩ | ⟨h, e⟩ <;>
    simp only [e, callOff, callTurningOn, callLockedOn, callOn, callTurningOff, callLockedOff] <;>
    (repeat' split) <;> simp [h] <;> omega

/-- R28, R120: a call keeps a key record inside its bounds, in a build whose dead zones are not empty (CFG6). -/
theorem keyCall_inRange (hlon : 1 ≤ c.lockedOnPeriod) (hloff : 1 ≤ c.lockedOffPeriod) (x : Bool)
    (h : k.inRange c = true) : (keyCall c x k).1.inRange c = true := by
  obtain ⟨⟨hpos, hmax⟩, hdown, hcyc, hon, hoff⟩ := (Key.inRange_iff c k).mp h
  obtain ⟨hup, hmax'⟩ := keyCall_mult_bounds hmax x
  have hdown' := keyCall_countdown_le x hdown
  obtain ⟨hcyc', hon', hoff'⟩ := keyCall_cycles (c := c) (k := k) x
  have grow : ∀ w, w * k.mult ≤ w * (keyCall c x k).1.mult := fun w => Nat.mul_le_mul_left w hup
  have pos : ∀ w, 1 ≤ w → 1 ≤ w * (keyCall c x k).1.mult := fun w hw => Nat.mul_pos hw (hpos.trans hup)
  obtain ⟨hlonMax, hloffMax⟩ := mul_le_longer_mul c.lockedOnPeriod c.lockedOffPeriod k.mult
  refine (Key.inRange_iff ..).mpr
    ⟨⟨hpos.trans hup, hmax'⟩, hdown'.trans (grow _), ?_, fun hp => ?_, fun hp => ?_⟩
  · refine le_trans ?_ (grow _)
    rcases hcyc' with h0 | hs | ⟨h1, hp | hp⟩
    · omega
    · omega
    · have := hon hp; omega
    · have := hoff hp; omega
  · rcases hon' hp with h0 | hlt
    · exact h0 ▸ pos _ hlon
    · exact hlt.trans_le (grow _)
  · rcases hoff' hp with h0 | hlt
    · exact h0 ▸ pos _ hloff
    · exact hlt.trans_le (grow _)

/-- R112, R38(e): where the stable bit agrees with the phase it does so after the call, and the change bit tells
whether it flipped. -/
theorem keyCall_emit (c : Cfg) (x : Bool) (k : Key) :
    (keyCall c x k).2.stateBit k.phase.pressed = (keyCall c x k).1.phase.pressed ∧
    (keyCall c x k).2.changeBit = (k.phase.pressed != (keyCall c x k).1.phase.pressed) := by
  rcases keyCall_cases c x k with ⟨h, e⟩ | ⟨h, e⟩ | ⟨h, e⟩ | ⟨h, e⟩ | ⟨h, e⟩ | ⟨h, e⟩ <;>
    simp only [e, callOff, callTurningOn, callLockedOn, callOn, callTurningOff, callLockedOff] <;>
    (repeat' split) <;> simp [h, Phase.pressed, Emit.stateBit, Emit.changeBit]

/-- The finite-state engine's invariant of one line. -/
def FsmLine (c : Cfg) (l : Line) : Prop :=
  ∀ i, (l.keys.get i).inRange c = true ∧ lane l.state i = (l.keys.get i).phase.pressed

theorem phaseTellsState_iff (s : State) :
    PhaseTellsState s ↔ ∀ n i, lane (s.db.get n).state i = ((s.db.get n).keys.get i).phase.pressed := by
  refine forall_congr' fun n => forall_congr' fun i => ?_
  rw [← Phase.pressed_iff]
  exact Bool.eq_iff_iff.symm

theorem fsmInv_iff (s : State) :
    FsmInv s ↔ (s.cfg.engine = .fsm → ∀ n, FsmLine s.cfg.toCfg (s.db.get n)) := by
  refine imp_congr_right fun _ => ?_
  rw [phaseTellsState_iff]
  simp only [KeysInRange, FsmLine, forall_and]

theorem fsmLine_initial {c : ValidCfg} (h : c.engine = .fsm) : FsmLine c.toCfg (Line.initial c.toCfg) := by
  obtain ⟨-, hmax⟩ := c.mult_bounds h
  intro i
  refine ⟨(Key.inRange_iff ..).mpr ?_, ?_⟩
  · simp only [Line.initial, Octet.get_ofFn, Key.initial, reduceCtorEq, false_implies, and_true]
    omega
  · simp [Line.initial, Key.initial, Phase.pressed]

theorem fsmLine_fsmCall {c : ValidCfg} (he : c.engine = .fsm) (x : Byte) (h : FsmLine c.toCfg l) :
    FsmLine c.toCfg (fsmCall c.toCfg x l) := by
  obtain ⟨hlon, -, -, hloff⟩ := c.windows_pos he
  intro i
  obtain ⟨hk, hst⟩ := h i
  rw [fsmCall_key, fsmCall_lane_state, hst]
  exact ⟨keyCall_inRange hlon hloff _ hk, (keyCall_emit ..).1⟩

/-! ## The ChangeMask (R37(c), R38(a)) -/

theorem counterCall_last_eq_flips (c : Cfg) (x : Byte) (l : Line) :
    (counterCall c x l).last = l.state ^^^ (counterCall c x l).state :=
  byte_ext fun i => by simp

theorem fsmCall_last_eq_flips (c : Cfg) (x : Byte) {l : Line}
    (h : ∀ i, lane l.state i = (l.keys.get i).phase.pressed) :
    (fsmCall c x l).last = l.state ^^^ (fsmCall c x l).state :=
  byte_ext fun i => by
    obtain ⟨hst, hch⟩ := keyCall_emit c (lane x i) (l.keys.get i)
    rw [lane_xor, fsmCall_lane_last, fsmCall_lane_state, h i, hst, hch]

/-- Settles O52: the result of a debounce call is the line's new `last`, which each engine makes the flipped bits. -/
theorem maskIsFlips : Obligations.MaskIsFlips := by
  intro s t n x
  constructor
  · intro h
    obtain ⟨-, hn, rfl⟩ := exec_dbc_next.mp h
    simp [counterCall_last_eq_flips _ x]
  · intro hp h
    obtain ⟨-, hn, -, rfl⟩ := exec_dbf_next.mp h
    simp [fsmCall_last_eq_flips _ x ((phaseTellsState_iff s).mp hp n)]

end Sys2Proof.Machine
end

section
/-! The lines of `db` under an operation: each is reset, stays, or goes through the build's engine, in the
operations that contain a debounce call on it (10_state.md R36). Obligations O51 and O35. -/

namespace Sys2Proof.Machine

variable {s t : State} {i : Instr}

/-- The operation contains, or may contain, a debounce call on line `n`: a pass, or the call of the build's engine. -/
def CallsLine (c : Cfg) (i : Instr) (n : LineIdx) : Prop :=
  (i = .scanm ∨ i = .rowt ∨ i = .poll) ∨
  (∃ x, i = .dbc n.val x ∧ c.engine = .counter) ∨ ∃ x, i = .dbf n.val x ∧ c.engine = .fsm

/-- What an operation can do to a line (R83). -/
theorem Effect.line_cases (h : Effect s i t) (n : LineIdx) :
    (i = .reset ∧ t.db.get n = Line.initial s.cfg.toCfg) ∨ t.db.get n = s.db.get n ∨
      (CallsLine s.cfg.toCfg i n ∧ (s.db.get n).callable s.cfg.toCfg = true ∧
        ∃ x, t.db.get n = engineCall s.cfg.toCfg x (s.db.get n)) := by
  cases h with
  | reset e => exact .inl ⟨rfl, Quad.get_ofFn ..⟩
  | call m x hi hk e =>
    by_cases hn : n = m
    · subst hn
      refine .inr (.inr ⟨.inr ?_, hk, x, Quad.get_set_self ..⟩)
      rcases hi with hi | hi
      · exact .inl ⟨x, hi⟩
      · exact .inr ⟨x, hi⟩
    · exact .inr (.inl (Quad.get_set_ne _ _ hn))
  | matrix hi hs hk v d b r e =>
    exact .inr (.inr ⟨.inl (by tauto), hk n, majority (v.get n), Quad.get_ofFn ..⟩)
  | row hi hs hk q l b r e =>
    by_cases hn : n = s.curRow
    · subst hn
      exact .inr (.inr ⟨.inl (by tauto), hk, s.lastSample, Quad.get_set_self ..⟩)
    · exact .inr (.inl (Quad.get_set_ne _ _ hn))
  | _ => exact .inr (.inl rfl)

/-! Which elements of a line each engine writes (R36) -/

theorem engineCall_keys_of_counter {c : Cfg} (h : c.engine = .counter) (x : Byte) (l : Line) :
    (engineCall c x l).keys = l.keys := by
  rw [engineCall_counter h, counterCall_keys]

theorem engineCall_planes_of_fsm {c : Cfg} (h : c.engine = .fsm) (x : Byte) (l : Line) :
    (engineCall c x l).stg0 = l.stg0 ∧ (engineCall c x l).stg1 = l.stg1 ∧ (engineCall c x l).cnt = l.cnt := by
  rw [engineCall_fsm h]
  exact ⟨rfl, rfl, rfl⟩

/-- R36, the rows of `db`: who writes `state` and `last`, the counter engine's planes, and the key records. -/
theorem Effect.line_writers (h : Effect s i t) (n : LineIdx) :
    let pass : Prop := i = .scanm ∨ i = .rowt ∨ i = .poll
    ((t.db.get n).state = (s.db.get n).state ∧ (t.db.get n).last = (s.db.get n).last ∨
      i = .reset ∨ pass ∨ (∃ x, i = .dbc n.val x) ∨ ∃ x, i = .dbf n.val x) ∧
    ((t.db.get n).stg0 = (s.db.get n).stg0 ∧ (t.db.get n).stg1 = (s.db.get n).stg1 ∧
        (t.db.get n).cnt = (s.db.get n).cnt ∨
      i = .reset ∨ (pass ∧ s.cfg.engine = .counter) ∨ ∃ x, i = .dbc n.val x) ∧
    ((t.db.get n).keys = (s.db.get n).keys ∨
      i = .reset ∨ (pass ∧ s.cfg.engine = .fsm) ∨ ∃ x, i = .dbf n.val x) := by
  intro pass
  rcases h.line_cases n with ⟨hr, -⟩ | heq | ⟨hc, -, x, hx⟩
  · simp [hr]
  · simp [heq]
  · rw [hx]
    rcases hc with hp | ⟨y, rfl, he⟩ | ⟨y, rfl, he⟩
    · refine ⟨.inr (.inr (.inl hp)), ?_⟩
      cases he : s.cfg.engine with
      | counter => exact ⟨.inr (.inr (.inl ⟨hp, rfl⟩)), .inl (engineCall_keys_of_counter he ..)⟩
      | fsm => exact ⟨.inl (engineCall_planes_of_fsm he ..), .inr (.inr (.inl ⟨hp, rfl⟩))⟩
    · exact ⟨.inr (.inr (.inr (.inl ⟨y, rfl⟩))), .inr (.inr (.inr ⟨y, rfl⟩)),
        .inl (engineCall_keys_of_counter he ..)⟩
    · exact ⟨.inr (.inr (.inr (.inr ⟨y, rfl⟩))), .inl (engineCall_planes_of_fsm he ..),
        .inr (.inr (.inr ⟨y, rfl⟩))⟩

/-- Settles O51: the rows of `db` are `Effect.line_writers`; the other rows are read off the effect, which names the
elements it writes. -/
theorem onlyWritersWrite : Obligations.OnlyWritersWrite := by
  intro s t i h pass
  have he := exec_effect h
  have hl := he.line_writers
  cases he with
  | matrix hi hs hk v d b r e =>
    have hp : i = .scanm ∨ i = .poll := by tauto
    rcases hp with rfl | rfl
    · simp_all [pass]
    · simp_all [pass]
  | row hi hs hk q l b r e =>
    have hp : i = .rowt ∨ i = .poll := by tauto
    rcases hp with rfl | rfl
    · simp_all [pass]
    · simp_all [pass]
  | _ => simp_all [pass]

/-- A debounce call never lowers a multiplier of a line that the engine can be given (R119). -/
theorem le_mult_engineCall {c : Cfg} {l : Line} (hk : l.callable c = true) (x : Byte) (j : LaneIdx) :
    (l.keys.get j).mult ≤ ((engineCall c x l).keys.get j).mult := by
  cases he : c.engine with
  | counter => rw [engineCall_keys_of_counter he]
  | fsm =>
    obtain ⟨⟨-, hmax⟩, -⟩ := (Key.inRange_iff ..).mp ((callable_iff c l).mp hk he j)
    rw [engineCall_fsm he, fsmCall_key]
    exact (keyCall_mult_bounds hmax _).1

/-- Settles O35: a line stays as it is or goes through the build's engine, which bumps a multiplier or leaves it. -/
theorem multiplierNeverFalls : Obligations.MultiplierNeverFalls := by
  intro s t i hi h n j
  rcases (exec_effect h).line_cases n with ⟨hr, -⟩ | heq | ⟨-, hk, x, hx⟩
  · exact absurd hr hi
  · rw [heq]
  · exact hx ▸ le_mult_engineCall hk x j

end Sys2Proof.Machine
end

section
/-! The invariants of 10_state.md section 7 at reset and along every step. The counter and the finite-state invariant,
and what `AbsentAtReset` says of the lines, are kept line by line (`step_keeps_lines`); the scanners' and the
scheduler's elements are read off the effect of the step. Obligations O55 to O58. -/

namespace Sys2Proof.Machine

variable {s t : State} {i : Instr}

theorem initial_line (c : ValidCfg) (e : Env) (n : LineIdx) :
    (State.initial c e).db.get n = Line.initial c.toCfg :=
  Quad.get_ofFn ..

/-- A property of lines that a reset line has and a debounce call of the build's engine keeps holds of every line
after an operation when it did before. -/
theorem Effect.keeps_lines {I : Line → Prop} (hinit : I (Line.initial s.cfg.toCfg))
    (hcall : ∀ x l, I l → I (engineCall s.cfg.toCfg x l)) (h : Effect s i t) (hs : ∀ n, I (s.db.get n)) :
    ∀ n, I (t.db.get n) := by
  intro n
  rcases h.line_cases n with ⟨-, hr⟩ | heq | ⟨-, -, x, hx⟩
  · exact hr ▸ hinit
  · exact heq ▸ hs n
  · exact hx ▸ hcall x _ (hs n)

/-! ## The engines -/

/-- Settles O57: a counter call keeps each line's share of the invariant. -/
theorem stepKeepsCounterInv : Obligations.StepKeepsCounterInv := by
  intro s t hs h
  obtain ⟨i, h⟩ := step_effect h
  rw [counterInv_iff] at hs ⊢
  rw [h.cfg_eq]
  intro he
  refine h.keeps_lines (counterLine_initial _) (fun x l hl => ?_) (hs he)
  rw [engineCall_counter he]
  exact counterLine_counterCall x hl

/-- Settles O58: a finite-state call keeps each line's share of the invariant. -/
theorem stepKeepsFsmInv : Obligations.StepKeepsFsmInv := by
  intro s t hs h
  obtain ⟨i, h⟩ := step_effect h
  rw [fsmInv_iff] at hs ⊢
  rw [h.cfg_eq]
  intro he
  refine h.keeps_lines (fsmLine_initial he) (fun x l hl => ?_) (hs he)
  rw [engineCall_fsm he]
  exact fsmLine_fsmCall he x hl

/-! ## Scanners, scheduler and enables -/

/-- What a line holds of the engine that the build lacks: its reset value (log 3). -/
def AbsentLine (c : Cfg) (l : Line) : Prop :=
  (c.engine = .counter → l.keys = Octet.ofFn (fun _ => Key.initial)) ∧
  (c.engine = .fsm → l.stg0 = 0 ∧ l.stg1 = 0 ∧ l.cnt = List.replicate c.planes 0)

/-- What the state holds of the scanner that the build lacks: its reset value (log 3). -/
def AbsentScanner (s : State) : Prop :=
  (s.cfg.scanner = .matrix →
    s.curRow = 0 ∧ s.lastSample = 0 ∧ s.changeFlag = false ∧ s.rowBuf = Quad.ofFn (fun _ => 0)) ∧
  (s.cfg.scanner = .rowirq → s.stability = 0)

theorem absentAtReset_iff (s : State) :
    AbsentAtReset s ↔ AbsentScanner s ∧ ∀ n, AbsentLine s.cfg.toCfg (s.db.get n) := by
  simp only [AbsentAtReset, AbsentScanner, AbsentLine, forall_and, forall_comm (α := LineIdx), and_assoc]

theorem absentLine_initial (c : Cfg) : AbsentLine c (Line.initial c) :=
  ⟨fun _ => rfl, fun _ => ⟨rfl, rfl, rfl⟩⟩

theorem absentLine_engineCall {c : Cfg} (x : Byte) {l : Line} (h : AbsentLine c l) :
    AbsentLine c (engineCall c x l) := by
  refine ⟨fun he => engineCall_keys_of_counter he x l ▸ h.1 he, fun he => ?_⟩
  obtain ⟨h0, h1, hc⟩ := engineCall_planes_of_fsm he x l
  rw [h0, h1, hc]
  exact h.2 he

/-- R31, R135: the four upper bits of the reduction are 0. -/
theorem stabilityOf_high (v : Quad (List Byte)) : (stabilityOf v).extractLsb' 4 4 = 0 := by
  unfold stabilityOf
  generalize readsDisagree v.q0 = b0
  generalize readsDisagree v.q1 = b1
  generalize readsDisagree v.q2 = b2
  generalize readsDisagree v.q3 = b3
  revert b0 b1 b2 b3
  decide

theorem stabilityHighZero_initial (c : ValidCfg) (e : Env) : StabilityHighZero (State.initial c e) := by
  change (0 : Byte).extractLsb' 4 4 = 0
  decide

theorem systemInv_initial (c : ValidCfg) (e : Env) : SystemInv (State.initial c e) := by
  refine ⟨⟨rfl, rfl⟩, stabilityHighZero_initial c e, .inl rfl, fun _ => rfl,
    (absentAtReset_iff _).mpr ⟨?_, fun n => ?_⟩⟩
  · exact ⟨fun _ => ⟨rfl, rfl, rfl, rfl⟩, fun _ => rfl⟩
  · rw [initial_line]
    exact absentLine_initial _

theorem Effect.keeps_enablesUp (h : Effect s i t) (hs : EnablesUp s) : EnablesUp t := by
  obtain ⟨hg, he⟩ := hs
  cases h with
  | reset e => exact ⟨rfl, rfl⟩
  | matrix hi hm hk v d b r e => exact ⟨by simp [hg], he⟩
  | row hi hr hk q l b r e => exact ⟨by simp [hg], rfl⟩
  | record r e => exact ⟨rfl, he⟩
  | _ => exact ⟨hg, he⟩

theorem Effect.keeps_stabilityHighZero (h : Effect s i t) (hs : StabilityHighZero s) : StabilityHighZero t := by
  cases h with
  | reset e => exact stabilityHighZero_initial s.cfg e
  | matrix hi hm hk v d b r e => exact stabilityOf_high v
  | _ => exact hs

/-- R151, R156: only `TB` raises the count, and only below the interval; `SETI` restarts it. -/
theorem Effect.keeps_timerBelow (h : Effect s i t) (hs : TimerBelow s) : TimerBelow t := by
  cases h with
  | reset e => exact .inl rfl
  | seti v e => exact .inl rfl
  | tb p k e hk =>
    rcases hk with h0 | rfl | hlt
    · exact .inl h0
    · exact hs
    · exact .inr hlt
  | _ => exact hs

/-- R140: the window drives the row it moves on to, and `DRIVE` and the matrix scanner are not in the build. -/
theorem Effect.keeps_watchedRowDriven (h : Effect s i t) (hs : WatchedRowDriven s) : WatchedRowDriven t := by
  cases h with
  | reset e => exact fun _ => rfl
  | row hi hr hk q l b r e => exact fun _ => rfl
  | matrix hi hm hk v d b r e => exact fun hr => absurd (hm.symm.trans hr) nofun
  | drive n hm e => exact fun hr => absurd (hm.symm.trans hr) nofun
  | _ => exact hs

/-- Each scanner's pass, and `EDGE`, write only what its own build has (R36, R75). -/
theorem Effect.keeps_absentScanner (h : Effect s i t) (hs : AbsentScanner s) : AbsentScanner t := by
  cases h with
  | reset e => exact ⟨fun _ => ⟨rfl, rfl, rfl, rfl⟩, fun _ => rfl⟩
  | matrix hi hm hk v d b r e => exact ⟨hs.1, fun hr => absurd (hm.symm.trans hr) nofun⟩
  | row hi hr hk q l b r e => exact ⟨fun hm => absurd (hr.symm.trans hm) nofun, hs.2⟩
  | edge v hr l f e => exact ⟨fun hm => absurd (hr.symm.trans hm) nofun, hs.2⟩
  | _ => exact hs

/-- Settles O56: the parts of the invariant one by one. -/
theorem stepKeepsSystemInv : Obligations.StepKeepsSystemInv := by
  intro s t ⟨hup, hhigh, htimer, hrow, habsent⟩ h
  obtain ⟨i, h⟩ := step_effect h
  obtain ⟨hscanner, hlines⟩ := (absentAtReset_iff s).mp habsent
  refine ⟨h.keeps_enablesUp hup, h.keeps_stabilityHighZero hhigh, h.keeps_timerBelow htimer,
    h.keeps_watchedRowDriven hrow, (absentAtReset_iff t).mpr ⟨h.keeps_absentScanner hscanner, ?_⟩⟩
  rw [h.cfg_eq]
  exact h.keeps_lines (absentLine_initial _) (fun x _ => absentLine_engineCall x) hlines

/-- Settles O55: every line is a reset line, and the other elements hold their reset values. -/
theorem resetInv : Obligations.ResetInv := by
  intro c e
  refine ⟨systemInv_initial c e, (counterInv_iff _).mpr fun _ n => ?_, (fsmInv_iff _).mpr fun he n => ?_⟩
  · rw [initial_line]
    exact counterLine_initial _
  · rw [initial_line]
    exact fsmLine_initial he

end Sys2Proof.Machine
end

section
/-! What an operation appends to the ring history: the recorder burst of a pass or of `REC` adds the snapshot of the
stable states it leaves, and nothing else that the core performs adds a byte (45_recorder.md R161, R162). Obligation
O50. -/

namespace Sys2Proof.Machine

/-- Between `s` and `t` the history has not grown, or by the one whole snapshot of the stable states of `t`. -/
def GrownBySnapshot (s t : State) : Prop :=
  t.ringOut = s.ringOut ∨ t.ringOut = s.ringOut ++ (snapshot t).toList

/-- The recording at the end of a pass (R137, R144). -/
theorem recordedIf_grownBySnapshot (chg : Byte) (s : State) : GrownBySnapshot s (recordedIf chg s) := by
  unfold recordedIf
  split
  · exact .inl rfl
  · exact .inr (recordBurst_ringOut s)

theorem matrixPass_grownBySnapshot (s : State) : GrownBySnapshot s (matrixPass s) := by
  obtain ⟨v, pins, cnt, d, -, -, -, -, hm⟩ := matrixPass_spec s
  rw [hm]
  exact recordedIf_grownBySnapshot _ _

theorem rowPass_grownBySnapshot (s : State) : GrownBySnapshot s (rowPass s) := by
  rw [rowPass_spec]
  exact recordedIf_grownBySnapshot _ _

/-- Settles O50: only a pass, `REC`, `RESET` and `APPEND` write the history (O51), and the first two append through the
recorder burst. -/
theorem ringWholeSnapshots : Obligations.RingWholeSnapshots := by
  intro s t i h hreset happend
  change GrownBySnapshot s t
  obtain ⟨-, -, -, -, -, -, -, -, -, hring⟩ := onlyWritersWrite s t i h
  rcases hring with heq | rfl | rfl | (rfl | rfl | rfl) | ⟨b, rfl⟩
  · exact .inl heq
  · exact absurd rfl hreset
  · obtain rfl := exec_record_next.mp h
    exact .inr (recordBurst_ringOut s)
  · obtain ⟨-, -, rfl⟩ := exec_scanm_next.mp h
    exact matrixPass_grownBySnapshot s
  · obtain ⟨-, -, rfl⟩ := exec_rowt_next.mp h
    exact rowPass_grownBySnapshot s
  · rcases exec_poll_next.mp h with ⟨-, rfl⟩ | ⟨-, -, -, rfl⟩ | ⟨-, -, -, rfl⟩
    · exact .inl rfl
    · exact matrixPass_grownBySnapshot _
    · exact rowPass_grownBySnapshot _
  · exact absurd rfl (happend b)

end Sys2Proof.Machine
end

section
/-! Steps of the other agents exchanged with each other and with MAIN's (20_memory.md R57, R61): an event reads and
writes nothing of the environment, an `EDGE` commutes with every event of TIMER and HOST, and every event but `RESET`
commutes with every step of MAIN, an `EDGE` with all but the window. So the events of an interleaving can be taken
together (`runAtomic_inPass`). -/

namespace Sys2Proof.Machine

variable {s : State} {p : Pass} {e : AgentEvent} {es : List AgentEvent} {m : MainStep} {ms : List MainStep}
  {as : List AtomicStep}

@[simp] theorem applyEvents_nil (s : State) : applyEvents [] s = s := rfl

@[simp] theorem applyEvents_cons (e : AgentEvent) (es : List AgentEvent) (s : State) :
    applyEvents (e :: es) s = applyEvents es (e.apply s) := rfl

theorem applyEvents_append (es fs : List AgentEvent) (s : State) :
    applyEvents (es ++ fs) s = applyEvents fs (applyEvents es s) :=
  List.foldl_append

@[simp] theorem mainSteps_main (m : MainStep) (as : List AtomicStep) :
    mainSteps (.main m :: as) = m :: mainSteps as := rfl

@[simp] theorem mainSteps_agent (e : AgentEvent) (as : List AtomicStep) :
    mainSteps (.agent e :: as) = mainSteps as := rfl

@[simp] theorem agentEvents_main (m : MainStep) (as : List AtomicStep) :
    agentEvents (.main m :: as) = agentEvents as := rfl

@[simp] theorem agentEvents_agent (e : AgentEvent) (as : List AtomicStep) :
    agentEvents (.agent e :: as) = e :: agentEvents as := rfl

theorem AgentEvent.endsPass_eq_false (h : e ≠ .reset) : e.endsPass = false :=
  Bool.eq_false_iff.mpr (mt e.endsPass_iff.mp h)

theorem applyEvents_enablesUp (es : List AgentEvent) (h : EnablesUp s) : EnablesUp (applyEvents es s) := by
  induction es generalizing s with
  | nil => exact h
  | cons e es ih => exact ih (e.apply_enablesUp h)

/-! ## Events and the environment -/

theorem takeInterrupt_env {handler : State → State}
    (h : ∀ s v, handler { s with env := v } = { handler s with env := v }) (enabled : Bool) (s : State) (v : Env) :
    takeInterrupt enabled handler { s with env := v } = { takeInterrupt enabled handler s with env := v } := by
  cases enabled with
  | false => rfl
  | true => exact h s v

theorem timebaseEvent_env (s : State) (v : Env) :
    timebaseEvent { s with env := v } = { timebaseEvent s with env := v } := by
  by_cases h : s.timerCnt.toNat + 1 ≥ s.scanInterval.toNat
  · simp only [timebaseEvent, if_pos h]
    rfl
  · simp only [timebaseEvent, if_neg h]

/-- An event neither reads nor writes the environment. -/
theorem AgentEvent.apply_env (e : AgentEvent) (s : State) (v : Env) :
    e.apply { s with env := v } = { e.apply s with env := v } := by
  cases e with
  | tb => exact takeInterrupt_env timebaseEvent_env (timerEnabled s) s v
  | tick => exact takeInterrupt_env (fun _ _ => rfl) (timerEnabled s) s v
  | edge b =>
    simp only [AgentEvent.apply]
    cases s.cfg.scanner with
    | matrix => rfl
    | rowirq => exact takeInterrupt_env (fun _ _ => rfl) (edgeEnabled s) s v
  | _ => rfl

theorem AgentEvent.apply_env_eq (e : AgentEvent) (s : State) : (e.apply s).env = s.env := by
  have h := congrArg State.env (e.apply_env s s.env)
  exact h

theorem applyEvents_env (es : List AgentEvent) (s : State) (v : Env) :
    applyEvents es { s with env := v } = { applyEvents es s with env := v } := by
  induction es generalizing s with
  | nil => rfl
  | cons e es ih => rw [applyEvents_cons, e.apply_env, ih, applyEvents_cons]

theorem applyEvents_env_eq (es : List AgentEvent) (s : State) : (applyEvents es s).env = s.env := by
  have h := congrArg State.env (applyEvents_env es s s.env)
  exact h

/-- Events after an operation do not depend on what it has reported (log 6). -/
theorem applyEvents_report (es : List AgentEvent) (s : State) (r : Option Byte) (c : Option Bool) :
    applyEvents es (s.report r c) = (applyEvents es s).report r c := by
  unfold State.report
  rw [applyEvents_env, applyEvents_env_eq]

/-- An event does not write the build (R62). -/
theorem AgentEvent.apply_cfg (e : AgentEvent) (s : State) : (e.apply s).cfg = s.cfg := by
  cases e with
  | tb =>
    obtain ⟨_, _, h, -⟩ := takeInterrupt_timebaseEvent (timerEnabled s) s
    simp only [AgentEvent.apply, h]
  | tick =>
    obtain ⟨_, h⟩ := takeInterrupt_setPending (timerEnabled s) s
    simp only [AgentEvent.apply, h]
  | edge v =>
    obtain ⟨_, _, h⟩ := takeInterrupt_edgeHandler (edgeEnabled s) v s
    simp only [AgentEvent.apply, h]
    split <;> rfl
  | _ => rfl

/-! ## An `EDGE` among events of TIMER and HOST -/

/-- An `EDGE` and another event write and read apart from each other (R61(b)). -/
theorem AgentEvent.apply_comm_of_isEdge {e f : AgentEvent} (he : e.isEdge = true) (hf : f.isEdge = false)
    (hr : f ≠ .reset) (hup : EnablesUp s) : e.apply (f.apply s) = f.apply (e.apply s) := by
  have hre : e ≠ .reset := by rintro rfl; cases he
  obtain ⟨P, T, I, L, F, hid, -, heq⟩ := e.apply_eq (endsPass_eq_false hre)
  obtain ⟨P', T', I', L', F', -, hid', heq'⟩ := f.apply_eq (endsPass_eq_false hr)
  obtain ⟨hP, hT, hI⟩ := hid he
  obtain ⟨hL, hF⟩ := hid' hf
  rw [heq _ (f.apply_enablesUp hup), heq' _ hup, heq' _ (e.apply_enablesUp hup), heq _ hup]
  simp only [hP, hT, hI, hL, hF]

theorem applyEvents_apply_of_isEdge (hes : ∀ f ∈ es, f.isEdge = true) (he : e.isEdge = false) (hr : e ≠ .reset)
    (hup : EnablesUp s) : applyEvents es (e.apply s) = e.apply (applyEvents es s) := by
  induction es generalizing s with
  | nil => rfl
  | cons f es ih =>
    rw [List.forall_mem_cons] at hes
    rw [applyEvents_cons, AgentEvent.apply_comm_of_isEdge hes.1 he hr hup, ih hes.2 (f.apply_enablesUp hup),
      applyEvents_cons]

/-- The `EDGE`s of a run of events may all be ordered before the others. -/
theorem applyEvents_edges_first (hr : .reset ∉ es) (hup : EnablesUp s) :
    applyEvents es s =
      applyEvents (es.filter (fun e => !e.isEdge)) (applyEvents (es.filter (fun e => e.isEdge)) s) := by
  induction es generalizing s with
  | nil => rfl
  | cons e es ih =>
    rw [List.mem_cons, not_or] at hr
    rw [applyEvents_cons, ih hr.2 (e.apply_enablesUp hup)]
    cases he : e.isEdge with
    | true => simp [he]
    | false =>
      rw [applyEvents_apply_of_isEdge (fun f hf => (List.mem_filter.mp hf).2) he (Ne.symm hr.1) hup]
      simp [he]

/-- `EDGE`s write the edge pair only, and read nothing of `pending` (R141). -/
theorem applyEvents_edges_frame (hes : ∀ e ∈ es, e.isEdge = true) (hup : EnablesUp s) :
    ∃ l f, ∀ b, applyEvents es { s with pending := b } =
      { s with pending := b, lastSample := l, changeFlag := f } := by
  induction es generalizing s with
  | nil => exact ⟨s.lastSample, s.changeFlag, fun _ => rfl⟩
  | cons e es ih =>
    rw [List.forall_mem_cons] at hes
    obtain ⟨he, hes⟩ := hes
    have hre : e ≠ .reset := by rintro rfl; cases he
    obtain ⟨P, T, I, L, F, hid, -, heq⟩ := e.apply_eq (AgentEvent.endsPass_eq_false hre)
    obtain ⟨hP, hT, hI⟩ := hid he
    obtain ⟨l, f, hlf⟩ := ih (s := { s with
      lastSample := L s.cfg.scanner s.lastSample s.changeFlag
      changeFlag := F s.cfg.scanner s.lastSample s.changeFlag }) hes hup
    refine ⟨l, f, fun b => ?_⟩
    rw [applyEvents_cons, heq { s with pending := b } hup]
    simp only [hP, hT, hI]
    exact hlf b

/-! ## Events and MAIN's steps -/

/-- The pass once the other agents have taken the steps `es`: they act on the core alone (R177). -/
def Pass.afterEvents (es : List AgentEvent) (p : Pass) : Pass :=
  { p with core := applyEvents es p.core }

theorem Pass.afterEvents_append (es fs : List AgentEvent) (p : Pass) :
    p.afterEvents (es ++ fs) = (p.afterEvents es).afterEvents fs := by
  simp only [Pass.afterEvents, applyEvents_append]

/-- Events at the end of a pass, or after the whole operation that the pass is. -/
theorem Pass.afterEvents_core_quiet (es : List AgentEvent) (p : Pass) :
    (p.afterEvents es).core.quiet = (applyEvents es p.finished).quiet := by
  rw [Pass.finished, applyEvents_report, report_quiet]
  rfl

/-- A step of MAIN exchanged with an event (R61(c)): only the window reads or writes what an `EDGE` does, and no step
of MAIN reads or writes the scheduler's variables. -/
theorem MainStep.run_afterEvent (hr : e ≠ .reset) (hw : m = .window → e.isEdge = false) (hup : EnablesUp p.core) :
    m.run (p.afterEvents [e]) = (m.run p).afterEvents [e] := by
  obtain ⟨P, T, I, L, F, -, hid, heq⟩ := e.apply_eq (AgentEvent.endsPass_eq_false hr)
  simp only [Pass.afterEvents, applyEvents_cons, applyEvents_nil]
  rw [heq _ hup, heq _ (m.run_enablesUp hup)]
  cases m with
  | read n =>
    simp only [MainStep.run, readStep, pinRead]
    split <;> rfl
  | record =>
    simp only [MainStep.run, recordStep]
    split <;> rfl
  | window =>
    obtain ⟨hL, hF⟩ := hid (hw rfl)
    simp only [MainStep.run, windowStep, hL, hF]
    rfl
  | _ => rfl

theorem MainStep.run_afterEvents (hr : .reset ∉ es) (hw : m = .window → ∀ e ∈ es, e.isEdge = false)
    (hup : EnablesUp p.core) : m.run (p.afterEvents es) = (m.run p).afterEvents es := by
  induction es generalizing p with
  | nil => rfl
  | cons e es ih =>
    rw [List.mem_cons, not_or] at hr
    simp only [List.forall_mem_cons] at hw
    have hsplit (q : Pass) : q.afterEvents (e :: es) = (q.afterEvents [e]).afterEvents es := rfl
    rw [hsplit, ih hr.2 (fun h => (hw h).2) (e.apply_enablesUp hup),
      MainStep.run_afterEvent (Ne.symm hr.1) (fun h => (hw h).1) hup, hsplit]

/-- A run of MAIN's steps exchanged with a run of events. -/
theorem runSteps_afterEvents (hr : .reset ∉ es) (hw : .window ∈ ms → ∀ e ∈ es, e.isEdge = false)
    (hup : EnablesUp p.core) : runSteps ms (p.afterEvents es) = (runSteps ms p).afterEvents es := by
  induction ms generalizing p with
  | nil => rfl
  | cons m ms ih =>
    rw [runSteps_cons, MainStep.run_afterEvents hr (fun h => hw (by simp [h])) hup,
      ih (fun h => hw (by simp [h])) (m.run_enablesUp hup), runSteps_cons]

/-- The events of an interleaving, with none that ends the pass and no `EDGE` across the window, may all be ordered
after MAIN's steps. -/
theorem runAtomic_inPass (hr : .reset ∉ agentEvents as)
    (hw : .window ∈ mainSteps as → ∀ e ∈ agentEvents as, e.isEdge = false) (hup : EnablesUp p.core) :
    runAtomic as (.inPass p) = .inPass ((runSteps (mainSteps as) p).afterEvents (agentEvents as)) := by
  induction as generalizing p with
  | nil => rfl
  | cons a as ih =>
    cases a with
    | main m => exact ih hr (fun h => hw (.tail m h)) (m.run_enablesUp hup)
    | agent e =>
      rw [agentEvents_agent, List.mem_cons, not_or] at hr
      simp only [mainSteps_agent, agentEvents_agent, List.forall_mem_cons] at hw
      have hstep : AtomicStep.run (.agent e) (.inPass p) = .inPass (p.afterEvents [e]) := by
        simp only [AtomicStep.run, AgentEvent.endsPass_eq_false (Ne.symm hr.1)]
        rfl
      rw [runAtomic_cons, hstep, ih hr.2 (fun h => (hw h).2) (e.apply_enablesUp hup),
        runSteps_afterEvents (by simpa using hr.1) (by simpa using fun h => (hw h).1) hup]
      rfl

/-- With no step of MAIN between them the events act on the core one after another. -/
theorem runAtomic_map_agent (hr : .reset ∉ es) (p : Pass) :
    runAtomic (es.map .agent) (.inPass p) = .inPass (p.afterEvents es) := by
  induction es generalizing p with
  | nil => rfl
  | cons e es ih =>
    rw [List.mem_cons, not_or] at hr
    rw [List.map_cons, runAtomic_cons, AtomicStep.run, AgentEvent.endsPass_eq_false (Ne.symm hr.1)]
    exact ih hr.2 _

end Sys2Proof.Machine
end

section
/-! A pass taken as one atomic step (20_memory.md R61(d)), and a `RESET` that ends it (70_reset_and_hazards.md R191,
log 18). Obligations O59 and O60. -/

namespace Sys2Proof.Machine

variable {s : State} {as : List AtomicStep}

/-! ## A `RESET` inside the pass -/

/-- What MAIN's steps among `as` and every event keep of the core, the interleaving keeps. -/
theorem runAtomic_keeps {I : State → Prop}
    (hmain : ∀ m ∈ mainSteps as, ∀ p : Pass, I p.core → I (m.run p).core)
    (hevent : ∀ (e : AgentEvent) (t : State), I t → I (e.apply t)) {x : Activity} (hx : I x.core) :
    I (runAtomic as x).core := by
  induction as generalizing x with
  | nil => exact hx
  | cons a as ih =>
    cases a with
    | main m =>
      rw [mainSteps_main, List.forall_mem_cons] at hmain
      refine ih hmain.2 ?_
      cases x with
      | inPass p => exact hmain.1 p hx
      | idle t => exact hx
    | agent e =>
      refine ih hmain ?_
      cases x with
      | inPass p =>
        simp only [AtomicStep.run]
        split <;> exact hevent e p.core hx
      | idle t => exact hevent e t hx

/-- Wherever a `RESET` falls, the steps after it start from the reset state of the core it finds. -/
theorem runAtomic_cut (pre post : List AtomicStep) (x : Activity) :
    runAtomic (pre ++ .agent .reset :: post) x = .idle (applyEvents (agentEvents post)
      (State.initial (runAtomic pre x).core.cfg (runAtomic pre x).core.env)) := by
  rw [runAtomic_append, runAtomic_cons, run_reset, runAtomic_idle]

/-- The build and the environment, which a `RESET` leaves (log 17), are those of `s`, but for the answers of the PIN
agent that have been taken since. -/
def AnswersTaken (s t : State) : Prop :=
  t.cfg = s.cfg ∧ ∃ k cnt, t.env = { s.env with pins := s.env.pins.drop k, pinCount := cnt }

theorem AnswersTaken.of_eq {t u : State} (h : AnswersTaken s t) (hc : u.cfg = t.cfg) (he : u.env = t.env) :
    AnswersTaken s u := by
  unfold AnswersTaken
  rw [hc, he]
  exact h

theorem answersTaken_pinRead {t : State} (h : AnswersTaken s t) : AnswersTaken s (pinRead t).2 := by
  obtain ⟨hc, k, cnt, he⟩ := h
  cases hp : t.env.pins with
  | nil =>
    rw [pinRead_nil hp]
    exact ⟨hc, k, t.env.pinCount + 1, by rw [he]⟩
  | cons a rest =>
    rw [pinRead_cons hp]
    have hrest : s.env.pins.drop (k + 1) = rest := by
      have hdrop : s.env.pins.drop k = a :: rest := (congrArg Env.pins he).symm.trans hp
      rw [← List.tail_drop, hdrop, List.tail_cons]
    exact ⟨hc, k + 1, cnt, by rw [he, hrest]⟩

/-- A step of MAIN other than a read leaves the build and the environment. -/
theorem MainStep.run_cfg_env {m : MainStep} (hm : ∀ n, m ≠ .read n) (p : Pass) :
    (m.run p).core.cfg = p.core.cfg ∧ (m.run p).core.env = p.core.env := by
  cases m with
  | read n => exact absurd rfl (hm n)
  | record => simp only [MainStep.run, recordStep]; split <;> exact ⟨rfl, rfl⟩
  | _ => exact ⟨rfl, rfl⟩

theorem answersTaken_run (m : MainStep) (p : Pass) (h : AnswersTaken s p.core) : AnswersTaken s (m.run p).core := by
  by_cases hm : ∀ n, m ≠ .read n
  · obtain ⟨hc, he⟩ := m.run_cfg_env hm p
    exact h.of_eq hc he
  · obtain ⟨n, rfl⟩ : ∃ n, m = .read n := by simpa using hm
    exact answersTaken_pinRead h

/-! ## The obligations -/

theorem window_notMem_matrixSteps (passes reads : Nat) : .window ∉ matrixSteps passes reads := by
  simp [matrixSteps, samplingSteps, samplingPass]

/-- An interleaving of a row-sampler tick, as the tick with the `EDGE`s before its window ordered before it and every
other event after it: the debounce call and the recording are exchanged with `as`, the window too with the events of
TIMER and HOST. -/
theorem runAtomic_row {pre : List AgentEvent} {p : Pass} (hm : mainSteps as = [.debounceRow, .record])
    (hpre : .reset ∉ pre) (has : .reset ∉ agentEvents as) (hup : EnablesUp p.core) :
    runAtomic (pre.map .agent ++ .main .window :: as) (.inPass p) =
      .inPass ((runSteps rowSteps (p.afterEvents (pre.filter (fun e => e.isEdge)))).afterEvents
        (pre.filter (fun e => !e.isEdge) ++ agentEvents as)) := by
  have hedges : p.afterEvents pre =
      (p.afterEvents (pre.filter (fun e => e.isEdge))).afterEvents (pre.filter (fun e => !e.isEdge)) :=
    congrArg (fun t => { p with core := t }) (applyEvents_edges_first hpre hup)
  have hothers : .reset ∉ pre.filter (fun e => !e.isEdge) := fun h => hpre (List.mem_of_mem_filter h)
  have hnoEdge : ∀ e ∈ pre.filter (fun e => !e.isEdge), e.isEdge = false := fun e he => by
    simpa using (List.mem_filter.mp he).2
  calc runAtomic (pre.map .agent ++ .main .window :: as) (.inPass p)
      = runAtomic as (.inPass (MainStep.run .window (p.afterEvents pre))) := by
        rw [runAtomic_append, runAtomic_map_agent hpre]
        rfl
    _ = .inPass ((runSteps rowSteps (p.afterEvents pre)).afterEvents (agentEvents as)) := by
        rw [runAtomic_inPass has (by simp [hm]) (MainStep.run_enablesUp _ (applyEvents_enablesUp pre hup)), hm]
        rfl
    _ = _ := by
        rw [hedges, runSteps_afterEvents hothers (fun _ => hnoEdge) (applyEvents_enablesUp _ hup),
          Pass.afterEvents_append]

/-- A whole `POLL` of a row-sampler build after some `EDGE`s, as the run of its atomic steps. -/
theorem exec_poll_row {es : List AgentEvent} (hes : ∀ e ∈ es, e.isEdge = true) (hup : EnablesUp s)
    (hs : s.cfg.scanner = .rowirq) (hp : s.pending = true) (hk : (s.db.get s.curRow).callable s.cfg.toCfg = true) :
    exec .poll (applyEvents es s) =
      .next (runSteps rowSteps ((Pass.start { s with pending := false }).afterEvents es)).finished := by
  obtain ⟨l, f, hframe⟩ := applyEvents_edges_frame hes hup
  have hpolled : applyEvents es s = { s with lastSample := l, changeFlag := f } := hframe s.pending
  have hcleared : (Pass.start { s with pending := false }).afterEvents es =
      Pass.start { s with pending := false, lastSample := l, changeFlag := f } :=
    congrArg Pass.start (hframe false)
  rw [hpolled, hcleared]
  exact exec_poll_next.mpr (.inr (.inr ⟨hp, hs, hk, rfl⟩))

/-- Settles O59: no step of a matrix pass is a window, so all events may be ordered after it; a `RESET` starts afresh
from the build and what the pass has left of the environment. -/
theorem matrixPollAtomic : Obligations.MatrixPollAtomic := by
  intro s hs hp start
  refine ⟨fun as hup hk hm hr => ?_, fun pre post => ?_⟩
  · have hw : .window ∉ mainSteps as := hm ▸ window_notMem_matrixSteps _ _
    refine ⟨_, _, runAtomic_inPass hr (fun h => absurd h hw) hup,
      exec_poll_next.mpr (.inr (.inl ⟨hp, hs, hk, rfl⟩)), ?_, ?_⟩
    · rw [hm]; rfl
    · rw [Pass.afterEvents_core_quiet, hm]; rfl
  · obtain ⟨hc, k, cnt, he⟩ : AnswersTaken s (runAtomic pre start).core :=
      runAtomic_keeps (fun m _ p => answersTaken_run m p)
        (fun e t h => h.of_eq (e.apply_cfg t) (e.apply_env_eq t)) ⟨rfl, 0, s.env.pinCount, rfl⟩
    refine ⟨k, cnt, _, _, runAtomic_cut pre post start, exec_reset_next.mpr rfl, ?_⟩
    rw [applyEvents_report, report_quiet, hc, he]
    rfl

/-- Settles O60: of the events before the window the `EDGE`s may come first, and the others pass the whole tick, as
every event after the window passes the rest of it. -/
theorem rowPollAtomic : Obligations.RowPollAtomic := by
  intro s hs hp start
  refine ⟨fun pre as hup hk hm hpre has => ?_, fun pre post hm => ?_⟩
  · have hedges : ∀ e ∈ pre.filter (fun e => e.isEdge), e.isEdge = true := fun e he => (List.mem_filter.mp he).2
    exact ⟨_, _, runAtomic_row hm hpre has hup, exec_poll_row hedges hup hs hp hk, rfl, rfl,
      Pass.afterEvents_core_quiet _ _⟩
  · have hcore : (runAtomic pre start).core.cfg = s.cfg ∧ (runAtomic pre start).core.env = s.env := by
      refine runAtomic_keeps (I := fun t => t.cfg = s.cfg ∧ t.env = s.env) (fun m hmem p h => ?_)
        (fun e t h => ?_) ⟨rfl, rfl⟩
      · have hread : ∀ n, m ≠ .read n := by
          rintro n rfl
          exact absurd (hm _ hmem) (by simp [rowSteps])
        obtain ⟨hc, he⟩ := m.run_cfg_env hread p
        exact ⟨hc.trans h.1, he.trans h.2⟩
      · exact ⟨(e.apply_cfg t).trans h.1, (e.apply_env_eq t).trans h.2⟩
    obtain ⟨hc, he⟩ := hcore
    refine ⟨_, _, runAtomic_cut pre post start, exec_reset_next.mpr rfl, ?_⟩
    rw [applyEvents_report, report_quiet, hc, he]
    rfl

end Sys2Proof.Machine
end

section
/-! What the decoder reads, byte for byte (30_encoding.md R70 to R76): `decode_encode` and `decode_ok` say once that it
answers exactly the well-formed operations, on exactly their encodings. Obligations O1 to O4 and O6. -/

namespace Sys2Proof

open Machine

variable {i : Instr} {op b : Byte} {n : Nat} {bs rest : List Byte}

/-! ## The line byte (R71, R74) -/

theorem extractLsb_high_eq_zero_iff (b : Byte) : b.extractLsb' 2 6 = 0 ↔ b.toNat < 4 := by
  rw [← BitVec.toNat_inj, BitVec.extractLsb'_toNat, Nat.shiftRight_eq_div_pow]
  simp only [BitVec.ofNat_eq_ofNat, BitVec.toNat_ofNat]
  omega

/-- A line byte below 4 is the index itself. -/
theorem lineField_of_lt (h : b.toNat < 4) : lineField b = .ok b.toNat := by
  rw [lineField, if_pos ((extractLsb_high_eq_zero_iff b).mpr h), BitVec.extractLsb'_toNat]
  exact congrArg _ (Nat.mod_eq_of_lt h)

theorem lineField_of_ge (h : 4 ≤ b.toNat) : lineField b = .error (.reservedLineBits b) :=
  if_neg (mt (extractLsb_high_eq_zero_iff b).mp (Nat.not_lt.mpr h))

theorem lineField_ofNat (h : n < 4) : lineField (BitVec.ofNat 8 n) = .ok n := by
  have hn : (BitVec.ofNat 8 n).toNat = n := Nat.mod_eq_of_lt (by omega)
  rw [lineField_of_lt (hn.symm ▸ h), hn]

theorem lineField_ok (h : lineField b = .ok n) : n < 4 ∧ b = BitVec.ofNat 8 n := by
  rcases Nat.lt_or_ge b.toNat 4 with hb | hb
  · rw [lineField_of_lt hb] at h
    cases h
    exact ⟨hb, by simp⟩
  · rw [lineField_of_ge hb] at h
    cases h

/-- A line byte with a reserved bit set is 4 or more. -/
theorem toNat_ge_four_of_reservedBit {j : Nat} (hj : 2 ≤ j) (h : b.getLsbD j = true) : 4 ≤ b.toNat :=
  calc 2 ^ 2 ≤ 2 ^ j := Nat.pow_le_pow_right (by decide) hj
    _ ≤ b.toNat := Nat.ge_two_pow_of_testBit h

/-! ## The readers of the four formats (R71) -/

theorem takeL_line (mk : Nat → Instr) (h : n < 4) (rest : List Byte) :
    takeL mk (BitVec.ofNat 8 n :: rest) = .ok (mk n, rest) := by
  simp [takeL, lineField_ofNat h]

theorem takeLV_line (mk : Nat → Byte → Instr) (h : n < 4) (x : Byte) (rest : List Byte) :
    takeLV mk (BitVec.ofNat 8 n :: x :: rest) = .ok (mk n x, rest) := by
  simp [takeLV, lineField_ofNat h]

theorem takeL_reserved (mk : Nat → Instr) (h : 4 ≤ b.toNat) (rest : List Byte) :
    takeL mk (b :: rest) = .error (.reservedLineBits b) := by
  simp [takeL, lineField_of_ge h]

theorem takeLV_reserved (mk : Nat → Byte → Instr) (h : 4 ≤ b.toNat) (rest : List Byte) :
    takeLV mk (b :: rest) = .error (.reservedLineBits b) := by
  simp [takeLV, lineField_of_ge h]

theorem takeZ_ok {j : Instr} (h : takeZ j bs = .ok (i, rest)) : i = j ∧ bs = rest := by
  cases h
  exact ⟨rfl, rfl⟩

theorem takeV_ok {mk : Byte → Instr} (h : takeV mk bs = .ok (i, rest)) : ∃ v, i = mk v ∧ bs = v :: rest := by
  cases bs with
  | nil => cases h
  | cons v bs =>
    cases h
    exact ⟨v, rfl, rfl⟩

theorem takeL_ok {mk : Nat → Instr} (h : takeL mk bs = .ok (i, rest)) :
    ∃ n < 4, i = mk n ∧ bs = BitVec.ofNat 8 n :: rest := by
  cases bs with
  | nil => cases h
  | cons b bs =>
    simp only [takeL] at h
    split at h
    next => cases h
    next n hb =>
      obtain ⟨hn, rfl⟩ := lineField_ok hb
      cases h
      exact ⟨n, hn, rfl, rfl⟩

theorem takeLV_ok {mk : Nat → Byte → Instr} (h : takeLV mk bs = .ok (i, rest)) :
    ∃ n < 4, ∃ x, i = mk n x ∧ bs = BitVec.ofNat 8 n :: x :: rest := by
  cases bs with
  | nil => cases h
  | cons b bs =>
    simp only [takeLV] at h
    split at h
    next => cases h
    next n hb =>
      obtain ⟨hn, rfl⟩ := lineField_ok hb
      cases bs with
      | nil => cases h
      | cons x bs =>
        cases h
        exact ⟨n, hn, x, rfl, rfl⟩

/-! ## The decoder (R71, R74, R76) -/

/-- A value of byte 0 that is the code of no operation is refused by name (R74). -/
theorem decode_of_unlisted (h : ∀ j, op ≠ opCode j) (bs : List Byte) :
    decode (op :: bs) = .error (.reservedCode op) := by
  have hval (j : Instr) : op.toNat ≠ (opCode j).toNat := fun e => h j (BitVec.eq_of_toNat_eq e)
  simp only [decode]
  split
  next e => exact absurd e (hval .reset)
  next e => exact absurd e (hval .tb)
  next e => exact absurd e (hval .tick)
  next e => exact absurd e (hval .poll)
  next e => exact absurd e (hval .geti)
  next e => exact absurd e (hval (.seti 0))
  next e => exact absurd e (hval (.dbc 0 0))
  next e => exact absurd e (hval (.dbf 0 0))
  next e => exact absurd e (hval .scanm)
  next e => exact absurd e (hval (.drive 0))
  next e => exact absurd e (hval .read)
  next e => exact absurd e (hval .rowt)
  next e => exact absurd e (hval (.edge 0))
  next e => exact absurd e (hval .record)
  next e => exact absurd e (hval (.append 0))
  next => rfl

/-- What decodes is an operation's own encoding, followed by what is left (R71). -/
theorem decode_ok (h : decode bs = .ok (i, rest)) : i.wellFormed = true ∧ bs = encode i ++ rest := by
  cases bs with
  | nil => cases h
  | cons op bs =>
    obtain ⟨j, rfl⟩ : ∃ j, op = opCode j := by
      by_contra hop
      rw [decode_of_unlisted (not_exists.mp hop)] at h
      cases h
    cases j with
    | seti _ | edge _ | append _ =>
      obtain ⟨v, rfl, rfl⟩ := takeV_ok h
      exact ⟨rfl, rfl⟩
    | dbc _ _ | dbf _ _ =>
      obtain ⟨n, hn, x, rfl, rfl⟩ := takeLV_ok h
      exact ⟨decide_eq_true hn, rfl⟩
    | drive _ =>
      obtain ⟨n, hn, rfl, rfl⟩ := takeL_ok h
      exact ⟨decide_eq_true hn, rfl⟩
    | _ =>
      obtain ⟨rfl, rfl⟩ := takeZ_ok h
      exact ⟨rfl, rfl⟩

theorem decode_encode (hi : i.wellFormed = true) (rest : List Byte) : decode (encode i ++ rest) = .ok (i, rest) := by
  cases i with
  | dbc n x => exact takeLV_line .dbc (of_decide_eq_true hi) x rest
  | dbf n x => exact takeLV_line .dbf (of_decide_eq_true hi) x rest
  | drive n => exact takeL_line .drive (of_decide_eq_true hi) rest
  | _ => rfl

theorem length_encode (i : Instr) :
    (encode i).length = if opCode i ∈ ([0x14, 0x39, 0x41, 0x31] : List Byte) then 2
      else if opCode i ∈ ([0x20, 0x21] : List Byte) then 3 else 1 := by
  cases i <;> rfl

theorem opCode_mem (i : Instr) :
    opCode i ∈
      ([0x01, 0x10, 0x11, 0x12, 0x13, 0x14, 0x20, 0x21, 0x30, 0x31, 0x32, 0x38, 0x39, 0x40, 0x41] : List Byte) := by
  cases i <;> simp [opCode]

theorem decode_reservedLine (hop : op ∈ ([0x20, 0x21, 0x31] : List Byte)) (hb : 4 ≤ b.toNat) (rest : List Byte) :
    decode (op :: b :: rest) = .error (.reservedLineBits b) := by
  simp only [List.mem_cons, List.not_mem_nil, or_false] at hop
  rcases hop with rfl | rfl | rfl
  · exact takeLV_reserved .dbc hb rest
  · exact takeLV_reserved .dbf hb rest
  · exact takeL_reserved .drive hb rest

/-- A step on bytes that are no operation is a refusal, with the decoder's reason (R74). -/
theorem step_undecodable {s : State} {e : DecodeError} (hne : s.env.trace ≠ []) (he : decode s.env.trace = .error e) :
    step s = .refused (.undecodable e) := by
  have hfetch : fetch s = .bad e := by
    obtain ⟨b, bs, ht⟩ := List.exists_cons_of_ne_nil hne
    rw [ht] at he
    simp only [fetch, ht, he]
  simp only [step, hfetch]

/-! ## The obligations -/

/-- Settles O1: reader by reader, the operand bytes give the operands back. -/
theorem decodeEncode : Obligations.DecodeEncode :=
  fun _ rest hi => decode_encode hi rest

/-- Settles O2: only the code of an operation is read, and then its operand bytes. -/
theorem decodeOnlyEncodings : Obligations.DecodeOnlyEncodings :=
  fun _ _ _ => decode_ok

/-- Settles O3: an unlisted code is the code of no operation, and a line byte with a reserved bit set is 4 or more. -/
theorem reservedRefused : Obligations.ReservedRefused :=
  ⟨fun op rest hop => decode_of_unlisted (fun j (hj : op = opCode j) => hop (hj ▸ opCode_mem j)) rest,
    fun _ _ rest hop ⟨_, hj, _, hb⟩ => decode_reservedLine hop (toNat_ge_four_of_reservedBit hj hb) rest,
    fun _ _ => step_undecodable⟩

/-- Settles O4: the bytes read are the encoding, and its byte 0 fixes its length. -/
theorem lengthByFirstByte : Obligations.LengthByFirstByte := by
  intro op rest rest' i h
  have hbytes := (decode_ok h).2
  obtain rfl : op = opCode i := (List.cons.inj hbytes).1
  rw [hbytes, List.length_append, length_encode, Nat.add_comm]

/-- Settles O6: the decoder evaluated on each word. -/
theorem writtenOutWords : Obligations.WrittenOutWords :=
  ⟨rfl, rfl, rfl, rfl, rfl, rfl, rfl⟩

end Sys2Proof
end

section
/-! The opcode table as the decoder reads it (30_encoding.md R71): a row is that of an operation (`rowOf`), a word matches
it when byte 0 is the operation's code and a line byte is below 4 (`rowMatches_rowOf`), and such words are those that
decode to it (`exists_decode_iff`). Obligation O5. -/

namespace Sys2Proof

variable {i j : Instr} {w a k : Nat} {op b0 b1 b2 : Byte}

/-! ## The rows -/

/-- The line byte is byte 1 in formats L and LV; the other formats have none (R71). -/
def Format.hasLine : Format → Bool
  | .z | .v => false
  | .l | .lv => true

/-- How many low bits of a table word are operand bits: the value byte, the line index, or the line index and the
sample (R71). -/
def Format.freeBits : Format → Nat
  | .z => 0
  | .v => 8
  | .l => 2
  | .lv => 10

/-- The row of an operation: `match` is its code in byte 0, `mask` every bit that is no operand bit (R71). -/
def rowOf (j : Instr) : OpcodeRow where
  mnemonic := mnemonicOf j
  nbits := 8 * formatLength (opFormat j)
  matchWord := (opCode j).toNat * 2 ^ (8 * formatLength (opFormat j) - 8)
  mask := 2 ^ (8 * formatLength (opFormat j)) - 2 ^ (opFormat j).freeBits

theorem exists_rowOf {r : OpcodeRow} (h : r ∈ opcodeTable) : ∃ j, r = rowOf j := by
  have hrows : opcodeTable = ([.reset, .tb, .tick, .poll, .geti, .seti 0, .dbc 0 0, .dbf 0 0, .scanm, .drive 0, .read,
    .rowt, .edge 0, .record, .append 0] : List Instr).map rowOf := rfl
  rw [hrows, List.mem_map] at h
  obtain ⟨j, -, hj⟩ := h
  exact ⟨j, hj.symm⟩

/-! ## Words that match -/

/-- Masking off the low `a` bits of a word of `k` bits. -/
theorem and_highMask (ha : a ≤ k) (hw : w < 2 ^ k) : w &&& (2 ^ k - 2 ^ a) = w / 2 ^ a * 2 ^ a := by
  have hmask : 2 ^ k - 2 ^ a = 2 ^ k - (2 ^ a - 1 + 1) := by rw [Nat.sub_add_cancel Nat.one_le_two_pow]
  have hlow : 2 ^ a - 1 < 2 ^ k :=
    lt_of_lt_of_le (Nat.sub_one_lt_of_lt (Nat.two_pow_pos a)) (Nat.pow_le_pow_right (by decide) ha)
  refine Nat.eq_of_testBit_eq fun i => ?_
  rw [hmask, Nat.testBit_and, Nat.testBit_two_pow_sub_succ hlow, Nat.testBit_two_pow_sub_one, Nat.testBit_mul_two_pow,
    Nat.testBit_div_two_pow]
  rcases Nat.lt_or_ge i a with hi | hi
  · simp [hi]
  · rcases Nat.lt_or_ge i k with hk | hk
    · simp [hk, hi]
    · simp [Nat.testBit_eq_false_of_lt (lt_of_lt_of_le hw (Nat.pow_le_pow_right (by decide) hk)), hi]

theorem freeBits_le (f : Format) : f.freeBits ≤ 8 * formatLength f := by
  cases f <;> decide

/-- Format by format, the bits under the mask are the code and, where there is a line byte, its bits 7:2. -/
theorem masked_eq_code_iff (f : Format) (hw : w < 2 ^ (8 * formatLength f))
    (hbytes : wordBytes (8 * formatLength f) w = [b0, b1, b2]) :
    w &&& (2 ^ (8 * formatLength f) - 2 ^ f.freeBits) = op.toNat * 2 ^ (8 * formatLength f - 8) ↔
      b0 = op ∧ (f.hasLine = true → b1.toNat < 4) := by
  rw [and_highMask (freeBits_le f) hw, ← BitVec.toNat_inj]
  cases f <;> cases hbytes <;> simp [formatLength, Format.freeBits, Format.hasLine] at hw ⊢ <;> omega

theorem rowMatches_rowOf (hw : w < 2 ^ (rowOf j).nbits) (hbytes : wordBytes (rowOf j).nbits w = [b0, b1, b2]) :
    rowMatches (rowOf j) w = true ↔ b0 = opCode j ∧ ((opFormat j).hasLine = true → b1.toNat < 4) :=
  beq_iff_eq.trans (masked_eq_code_iff _ hw hbytes)

/-! ## Words that decode -/

/-- Operations of one mnemonic have one code. -/
theorem opCode_eq_of_mnemonic (h : mnemonicOf i = mnemonicOf j) : opCode i = opCode j := by
  revert h
  cases i <;> cases j <;> simp [mnemonicOf, opCode]

theorem opCode_mem_of_hasLine (h : (opFormat j).hasLine = true) : opCode j ∈ ([0x20, 0x21, 0x31] : List Byte) := by
  cases j with
  | dbc _ _ | dbf _ _ | drive _ => simp [opCode]
  | _ => cases h

/-- Three bytes decode to an operation of `j`'s row when byte 0 is its code and the line byte, if it has one, is the
index of a line. -/
theorem exists_decode_iff :
    (∃ i rest, decode [b0, b1, b2] = .ok (i, rest) ∧ mnemonicOf i = mnemonicOf j) ↔
      b0 = opCode j ∧ ((opFormat j).hasLine = true → b1.toNat < 4) := by
  constructor
  · rintro ⟨i, rest, hdec, hm⟩
    obtain rfl : b0 = opCode i := (List.cons.inj (decode_ok hdec).2).1
    have hcode := opCode_eq_of_mnemonic hm
    refine ⟨hcode, fun hline => Nat.lt_of_not_le fun hb => ?_⟩
    rw [decode_reservedLine (hcode ▸ opCode_mem_of_hasLine hline) hb] at hdec
    cases hdec
  · rintro ⟨rfl, hline⟩
    obtain ⟨n, hn, rfl⟩ : ∃ n, b1.toNat = n ∧ b1 = BitVec.ofNat 8 n := ⟨_, rfl, by simp⟩
    rw [hn] at hline
    cases j with
    | seti _ => exact ⟨.seti _, [b2], rfl, rfl⟩
    | edge _ => exact ⟨.edge _, [b2], rfl, rfl⟩
    | append _ => exact ⟨.append _, [b2], rfl, rfl⟩
    | dbc _ _ => exact ⟨.dbc n b2, [], takeLV_line .dbc (hline rfl) b2 [], rfl⟩
    | dbf _ _ => exact ⟨.dbf n b2, [], takeLV_line .dbf (hline rfl) b2 [], rfl⟩
    | drive _ => exact ⟨.drive n, [b2], takeL_line .drive (hline rfl) [b2], rfl⟩
    | _ => exact ⟨_, [_, b2], rfl, rfl⟩

theorem decodeTableWord_eq_some {nbits : Nat} :
    decodeTableWord nbits w = some i ↔ ∃ rest, decode (wordBytes nbits w) = .ok (i, rest) := by
  unfold decodeTableWord
  split <;> simp_all

/-- A word of the table is three bytes to the decoder. -/
theorem exists_wordBytes_rowOf (j : Instr) (w : Nat) : ∃ b0 b1 b2, wordBytes (rowOf j).nbits w = [b0, b1, b2] := by
  simp only [rowOf]
  cases opFormat j <;> exact ⟨_, _, _, rfl⟩

/-- Settles O5: of a row's word both sides say that byte 0 is the row's code and a line byte is below 4. -/
theorem tableWordsDecode : Obligations.TableWordsDecode := by
  intro r hr w hw
  obtain ⟨j, rfl⟩ := exists_rowOf hr
  obtain ⟨b0, b1, b2, hbytes⟩ := exists_wordBytes_rowOf j w
  rw [rowMatches_rowOf hw hbytes, ← exists_decode_iff]
  simp only [decodeTableWord_eq_some, hbytes, exists_and_right]
  rfl

end Sys2Proof
end

section
/-! Operations outside the build and lines out of range (30_encoding.md R75, 20_memory.md R52): what each build check
answers where it fails. Obligation O39. -/

namespace Sys2Proof.Machine

variable {s t : State} {k : Answer}

/-! ## The build checks (R75) -/

theorem needCounter_of_counter (h : s.cfg.engine = .counter) : needCounter s k = k := by
  simp [needCounter, h]

theorem needCounter_of_fsm (h : s.cfg.engine = .fsm) : needCounter s k = .refused .notInBuild := by
  simp [needCounter, h]

theorem needFsm_of_fsm (h : s.cfg.engine = .fsm) : needFsm s k = k := by
  simp [needFsm, h]

theorem needFsm_of_counter (h : s.cfg.engine = .counter) : needFsm s k = .refused .notInBuild := by
  simp [needFsm, h]

theorem needMatrix_of_matrix (h : s.cfg.scanner = .matrix) : needMatrix s k = k := by
  simp [needMatrix, h]

theorem needMatrix_of_rowirq (h : s.cfg.scanner = .rowirq) : needMatrix s k = .refused .notInBuild := by
  simp [needMatrix, h]

theorem needRowirq_of_matrix (h : s.cfg.scanner = .matrix) : needRowirq s k = .refused .notInBuild := by
  simp [needRowirq, h]

/-! ## The operations of every build -/

/-- A pass may stop on a key record (U13), but belongs to every build. -/
theorem runPass_ne_notInBuild (s : State) : runPass s ≠ .refused .notInBuild := by
  unfold runPass
  split
  · unfold needAllCallable; split <;> simp
  · unfold needCallable; split <;> simp

theorem execPoll_ne_notInBuild (s : State) : execPoll s ≠ .refused .notInBuild := by
  unfold execPoll
  split
  · exact runPass_ne_notInBuild _
  · exact nofun

/-- The eight operations that need neither an engine nor a scanner (R75). -/
theorem exec_ne_notInBuild (s : State) (x : Byte) {i : Instr}
    (hi : i ∈ [Instr.reset, .tb, .tick, .poll, .geti, .seti x, .record, .append x]) :
    exec i s ≠ .refused .notInBuild := by
  cases i with
  | poll => exact execPoll_ne_notInBuild s
  | reset | tb | tick | geti | seti _ | record | append _ => exact nofun
  | _ => simp at hi

/-! ## The line driven (R75) -/

theorem driveSel_of_reset (h : exec .reset s = .next t) : t.driveSel = 0 := by
  rw [exec_reset_next.mp h]
  rfl

/-- `ROWT` drives the row it goes on to. -/
theorem driveSel_of_rowt (h : exec .rowt s = .next t) : t.driveSel = t.curRow := by
  obtain ⟨-, -, rfl⟩ := exec_rowt_next.mp h
  obtain ⟨q, l, b, r, e, hpass⟩ := rowPass_frame s
  rw [hpass]

/-- Settles O39: the build check comes before the line check, and each answers by name. -/
theorem buildRefusals : Obligations.BuildRefusals := by
  intro s n x
  refine ⟨needCounter_of_fsm, needFsm_of_counter,
    fun h => ⟨needMatrix_of_rowirq h, needMatrix_of_rowirq h, needMatrix_of_rowirq h⟩,
    fun h => ⟨needRowirq_of_matrix h, needRowirq_of_matrix h⟩,
    fun _ => exec_ne_notInBuild s x,
    fun _ => ⟨driveSel_of_reset, driveSel_of_rowt⟩,
    fun hn => ⟨fun h => ?_, fun h => ?_, fun h => ?_⟩⟩
  · exact (needCounter_of_counter h).trans (withLine_of_ge hn _)
  · exact (needFsm_of_fsm h).trans (withLine_of_ge hn _)
  · exact (needMatrix_of_matrix h).trans (withLine_of_ge hn _)

end Sys2Proof.Machine
end

section
/-! The bit-plane form of the counter engine (40_counter_engine.md R101, R102) lane by lane, and its agreement with the
per-lane form. Obligation O25. -/

namespace Sys2Proof.Machine

/-! ## Numbers across planes -/

/-- Planes of one length are the numbers they hold, lane by lane. -/
theorem planes_ext {ps qs : List Byte} (hlen : ps.length = qs.length) (h : ∀ i, countAt ps i = countAt qs i) :
    ps = qs := by
  induction ps generalizing qs with
  | nil => exact (List.length_eq_zero_iff.mp hlen.symm).symm
  | cons p ps ih =>
    obtain _ | ⟨q, qs⟩ := qs
    · simp at hlen
    · have hlow : p = q := byte_ext fun i => by
        have := h i
        cases hp : lane p i <;> cases hq : lane q i <;> simp [countAt, hp, hq] at this ⊢ <;> omega
      have hhigh : ps = qs := ih (by simpa using hlen) fun i => by
        have := h i
        simp only [countAt, hlow] at this
        omega
      rw [hlow, hhigh]

/-- Masking every plane with one byte clears the numbers of the lanes outside the mask. -/
theorem countAt_map_and (ps : List Byte) (m : Byte) (i : LaneIdx) :
    countAt (ps.map (· &&& m)) i = if lane m i then countAt ps i else 0 := by
  induction ps with
  | nil => simp [countAt]
  | cons p ps ih =>
    simp only [List.map_cons, countAt, lane_and, ih]
    cases lane m i <;> simp

theorem length_ripple (keep carry : Byte) (ps : List Byte) : (ripple keep carry ps).length = ps.length := by
  induction ps generalizing carry with
  | nil => rfl
  | cons p ps ih => simp [ripple, ih]

/-- R101: the ripple adds the carry in every kept lane, modulo the planes' range, and clears every other lane. -/
theorem countAt_ripple (keep carry : Byte) (ps : List Byte) (i : LaneIdx) :
    countAt (ripple keep carry ps) i =
      if lane keep i then (countAt ps i + (lane carry i).toNat) % 2 ^ ps.length else 0 := by
  induction ps generalizing carry with
  | nil => simp [ripple, countAt, Nat.mod_one]
  | cons p ps ih =>
    have hsum : (lane p i).toNat + 2 * countAt ps i + (lane carry i).toNat =
        (lane p i != lane carry i).toNat + 2 * (countAt ps i + (lane p i && lane carry i).toNat) := by
      cases lane p i <;> cases lane carry i <;> simp <;> omega
    have hbit : ∀ (b : Bool) (m : Nat), (b.toNat + 2 * m) % 2 = b.toNat ∧ (b.toNat + 2 * m) / 2 = m := by
      intro b m
      have := Bool.toNat_le b
      omega
    rw [ripple, countAt, countAt, ih, List.length_cons, Nat.pow_succ', Nat.mod_mul, hsum, (hbit _ _).1, (hbit _ _).2,
      lane_and, lane_xor, lane_and]
    cases lane keep i <;> simp

/-- R102: `EQ(K)` compares every lane's number with `K`. -/
theorem lane_planesEq {ps : List Byte} {K : Nat} (hK : K < 2 ^ ps.length) (i : LaneIdx) :
    lane (planesEq ps K) i = decide (countAt ps i = K) := by
  induction ps generalizing K with
  | nil =>
    have : K = 0 := by simpa using hK
    simp [planesEq, countAt, this]
  | cons p ps ih =>
    have hK' : K / 2 < 2 ^ ps.length := by
      rw [List.length_cons, Nat.pow_succ] at hK
      omega
    rw [planesEq, lane_and, ih hK', countAt, Bool.eq_iff_iff]
    split <;> cases hp : lane p i <;> simp [hp] <;> omega

/-- The equality that the loop of `GT(K)` carries is `EQ(K)`. -/
theorem planesGtEq_snd (ps : List Byte) (K : Nat) : (planesGtEq ps K).2 = planesEq ps K := by
  induction ps generalizing K with
  | nil => rfl
  | cons p ps ih =>
    rcases Nat.mod_two_eq_zero_or_one K with h | h <;> simp [planesGtEq, planesEq, h, ih, BitVec.and_comm]

/-- R102: `GT(K)` compares every lane's number with `K`. -/
theorem lane_planesGt {ps : List Byte} {K : Nat} (hK : K < 2 ^ ps.length) (i : LaneIdx) :
    lane (planesGt ps K) i = decide (K < countAt ps i) := by
  induction ps generalizing K with
  | nil => simp [planesGt, planesGtEq, countAt]
  | cons p ps ih =>
    have hK' : K / 2 < 2 ^ ps.length := by
      rw [List.length_cons, Nat.pow_succ] at hK
      omega
    have hgt := ih hK'
    have heq := lane_planesEq hK' i
    rw [planesGt] at hgt
    rw [planesGt, planesGtEq, planesGtEq_snd, countAt, Bool.eq_iff_iff]
    split <;> cases hp : lane p i <;> simp [hp, hgt, heq] <;> omega

/-- R102: `LT(K)` compares every lane's number with `K`. -/
theorem lane_planesLt {ps : List Byte} {K : Nat} (hK : K < 2 ^ ps.length) (i : LaneIdx) :
    lane (planesLt ps K) i = decide (countAt ps i < K) := by
  rw [planesLt, lane_and, lane_not, lane_not, lane_planesGt hK, lane_planesEq hK, Bool.eq_iff_iff]
  simp
  omega

/-! ## The stage planes -/

/-- R102: the two stage planes hold the stage of R98 in every lane. -/
theorem stage_stagePlanes (v : BadStages) (stg1 stg0 rel over1 over2 : Byte) (i : LaneIdx) :
    Stage.ofBits (lane (stagePlanes v stg1 stg0 rel over1 over2).1 i)
        (lane (stagePlanes v stg1 stg0 rel over1 over2).2 i) =
      nextStage v (Stage.ofBits (lane stg1 i) (lane stg0 i)) (lane rel i) (lane over1 i) (lane over2 i) := by
  cases v with
  | one =>
    simp only [stagePlanes, lane_and, lane_or, lane_not]
    cases lane stg1 i <;> cases lane stg0 i <;> cases lane rel i <;> cases lane over1 i <;> rfl
  | two =>
    simp only [stagePlanes, lane_and, lane_or, lane_not]
    generalize lane over2 i = o2
    cases lane stg1 i <;> cases lane stg0 i <;> cases lane rel i <;> cases lane over1 i <;> cases o2 <;> rfl

/-! ## The record, lane by lane -/

theorem Stage.bit0_ofBits (b1 b0 : Bool) : (Stage.ofBits b1 b0).bit0 = b0 := by
  cases b1 <;> cases b0 <;> rfl

theorem Stage.bit1_ofBits (b1 b0 : Bool) : (Stage.ofBits b1 b0).bit1 = b1 := by
  cases b1 <;> cases b0 <;> rfl

/-- Two records are equal when every lane of them is. -/
theorem Line.ext_lanes {l m : Line} (hstate : ∀ i, lane l.state i = lane m.state i)
    (hlast : ∀ i, lane l.last i = lane m.last i) (hstage : ∀ i, l.stage i = m.stage i)
    (hplanes : l.cnt.length = m.cnt.length) (hcount : ∀ i, l.count i = m.count i) (hkeys : l.keys = m.keys) :
    l = m := by
  have h0 : l.stg0 = m.stg0 := byte_ext fun i => by
    simpa [Line.stage, Stage.bit0_ofBits] using congrArg Stage.bit0 (hstage i)
  have h1 : l.stg1 = m.stg1 := byte_ext fun i => by
    simpa [Line.stage, Stage.bit1_ofBits] using congrArg Stage.bit1 (hstage i)
  have hcnt := planes_ext hplanes hcount
  have hst := byte_ext hstate
  have hla := byte_ext hlast
  cases l
  cases m
  simp_all

/-- The planes with the lanes cleared that accepted in the previous call (R92, R102). -/
def effPlanes (l : Line) : List Byte :=
  l.cnt.map (· &&& ~~~l.last)

theorem countAt_effPlanes (l : Line) (i : LaneIdx) : countAt (effPlanes l) i = effCount l i := by
  rw [effPlanes, countAt_map_and, lane_not, effCount, Line.count]
  cases lane l.last i <;> rfl

/-- `q & GT(T) & LT(D)`, the lanes in which a bounce over the threshold `T` ends (R97, R102). -/
def overPlanes (c : Cfg) (x : Byte) (l : Line) (T : Nat) : Byte :=
  ~~~(x ^^^ l.state) &&& l.state &&& planesGt (effPlanes l) T &&& planesLt (effPlanes l) c.d

theorem counterCallPlanes_last (c : Cfg) (x : Byte) (l : Line) :
    (counterCallPlanes c x l).last = (x ^^^ l.state) &&&
      ((~~~l.bad &&& planesEq (effPlanes l) c.d) ||| (l.bad &&& planesEq (effPlanes l) c.dBad)) := rfl

theorem counterCallPlanes_lane_state (c : Cfg) (x : Byte) (l : Line) (i : LaneIdx) :
    lane (counterCallPlanes c x l).state i = (lane l.state i != lane (counterCallPlanes c x l).last i) :=
  lane_xor ..

theorem counterCallPlanes_stage (c : Cfg) (x : Byte) (l : Line) (i : LaneIdx) :
    (counterCallPlanes c x l).stage i =
      nextStage c.badStages (l.stage i) (lane ((counterCallPlanes c x l).last &&& l.state) i)
        (lane (overPlanes c x l c.t1) i) (lane (overPlanes c x l c.t2) i) :=
  stage_stagePlanes ..

theorem counterCallPlanes_planes (c : Cfg) (x : Byte) (l : Line) :
    (counterCallPlanes c x l).cnt.length = l.cnt.length :=
  length_ripple ..

section
variable {c : ValidCfg} {l : Line} (hl : l.cnt.length = c.planes) (x : Byte) (i : LaneIdx)
include hl

theorem lt_two_pow_effPlanes {K : Nat} (hK : K < 2 ^ c.planes) : K < 2 ^ (effPlanes l).length := by
  rwa [effPlanes, List.length_map, hl]

/-- R102, R94: the acceptances of the bit-plane form. -/
theorem counterCallPlanes_lane_last : lane (counterCallPlanes c.toCfg x l).last i = accepts c.toCfg x l i := by
  have hd := lt_two_pow_effPlanes hl c.toCfg.d_lt_planes
  have hdBad := lt_two_pow_effPlanes hl c.toCfg.dBad_lt_planes
  simp only [counterCallPlanes_last, lane_and, lane_or, lane_xor, lane_not, lane_planesEq hd, lane_planesEq hdBad,
    countAt_effPlanes, accepts, differs, targetDelay, Line.stage_bad_iff]
  cases lane l.bad i <;> simp [Bool.beq_eq_decide_eq]

/-- R102, R97: the bounces of the bit-plane form. -/
theorem lane_overPlanes {T : Nat} (hT : T < 2 ^ c.planes) :
    lane (overPlanes c.toCfg x l T) i = overThreshold c.toCfg x l T i := by
  have hT := lt_two_pow_effPlanes hl hT
  have hd := lt_two_pow_effPlanes hl c.toCfg.d_lt_planes
  simp only [overPlanes, lane_and, lane_not, lane_xor, lane_planesGt hT, lane_planesLt hd, countAt_effPlanes,
    overThreshold, stableActive, differs]

/-- R102, R98: the stages of the bit-plane form; a one-stage build does not use `T2`, which need not fit the planes. -/
theorem counterCallPlanes_stage_eq : (counterCallPlanes c.toCfg x l).stage i = stageAfter c.toCfg x l i := by
  have hT1 : c.t1 < 2 ^ c.planes := c.t1_lt_d.trans c.toCfg.d_lt_planes
  rw [counterCallPlanes_stage, stageAfter, lane_and, counterCallPlanes_lane_last hl, lane_overPlanes hl x i hT1]
  cases hv : c.badStages with
  | one => rfl
  | two =>
    have hT2 : c.t2 < 2 ^ c.planes := (c.two_stages hv).2.trans c.toCfg.d_lt_planes
    rw [lane_overPlanes hl x i hT2]
    rfl

/-- R101, R99: the counts of the bit-plane form. -/
theorem counterCallPlanes_count : (counterCallPlanes c.toCfg x l).count i = countAfter c.toCfg x l i := by
  have hkeep : lane ((x ^^^ l.state) &&& ~~~l.last) i = (differs x l i && !lane l.last i) := by
    simp [differs]
  refine (countAt_ripple ..).trans ?_
  rw [hkeep, hl, countAfter, effCount, Line.count]
  cases lane l.last i <;> cases differs x l i <;> simp

end

/-- Settles O25: every lane of the record after the call is the same in both forms. -/
theorem bitPlanesAgree : Obligations.BitPlanesAgree := by
  intro c x l hl
  have hlast := counterCallPlanes_lane_last hl x
  refine Line.ext_lanes (fun i => ?_) (fun i => ?_) (fun i => ?_) ?_ (fun i => ?_) rfl
  · rw [counterCallPlanes_lane_state, hlast, counterCall_lane_state]
  · rw [hlast, counterCall_lane_last]
  · rw [counterCallPlanes_stage_eq hl, counterCall_stage]
  · rw [counterCallPlanes_planes, hl, counterCall_planes]
  · rw [counterCallPlanes_count hl, counterCall_count]

end Sys2Proof.Machine
end

section
/-! One `DBC` on one line: the record it leaves, read lane by lane (40_counter_engine.md R91 to R99), and what it leaves
alone. Obligations O21, O22, O23, O24, O29 and O30. -/

namespace Sys2Proof.Machine

variable {s t : State}

/-- What a completed `DBC` leaves of its own line (R90). -/
theorem line_of_exec_dbc {n : LineIdx} {x : Byte} (h : exec (.dbc n.val x) s = .next t) :
    t.db.get n = counterCall s.cfg.toCfg x (s.db.get n) := by
  obtain ⟨-, hn, rfl⟩ := exec_dbc_next.mp h
  simp

/-- A `DBC` on one of the four lines completes in a counter build (R90), and reports the line's new `last` (R96). -/
theorem exists_exec_dbc (h : s.cfg.engine = .counter) (n : LineIdx) (x : Byte) :
    ∃ t, exec (.dbc n.val x) s = .next t ∧ t.env.result = some (t.db.get n).last ∧
      t.db.get n = counterCall s.cfg.toCfg x (s.db.get n) := by
  have ht := (exec_dbc_next (s := s) (x := x)).mpr ⟨h, n.isLt, rfl⟩
  refine ⟨_, ht, ?_, line_of_exec_dbc ht⟩
  simp

variable {c : Cfg} {x : Byte} {l : Line} {i : LaneIdx}

/-- R96: what the ChangeMask does to the stable byte. -/
theorem counterCall_state : (counterCall c x l).state = l.state ^^^ (counterCall c x l).last := rfl

/-! ## Acceptance and count (R91 to R94, R99) -/

/-- R93: the target delay, from the two stage planes. -/
theorem targetDelay_eq :
    targetDelay c l i = if lane l.stg1 i = true ∧ lane l.stg0 i = true then c.dBad else c.d := by
  simp only [targetDelay, Line.stage_bad_iff, Line.bad, lane_and, Bool.and_eq_true]

/-- An accepted lane takes its sample's value (R96). -/
theorem counterCall_state_of_accepts (h : accepts c x l i = true) : lane (counterCall c x l).state i = lane x i := by
  have hne := (differs_iff ..).mp ((accepts_iff ..).mp h).1
  rw [counterCall_lane_state, h, Bool.bne_true]
  exact (Bool.eq_not_of_ne hne).symm

/-- Settles O21: the line and the result are the counter call's, whose acceptances are `accepts_iff`. -/
theorem dbcAccepts : Obligations.DbcAccepts := by
  intro s n x h
  obtain ⟨t, ht, hres, hline⟩ := exists_exec_dbc h n x
  refine ⟨t, ht, hres, by rw [hline, counterCall_state], fun i => ?_⟩
  rw [hline, counterCall_lane_last]
  refine ⟨?_, not_accepts_of_last s.cfg x, counterCall_state_of_accepts⟩
  rw [accepts_iff, differs_iff, targetDelay_eq]
  rfl

/-- R99: the count after a call, from the count before it. -/
theorem countAfter_eq :
    countAfter c x l i =
      if lane l.last i then 0
      else if lane x i ≠ lane l.state i then (l.count i + 1) % 2 ^ c.planes
      else 0 := by
  cases hl : lane l.last i <;> simp [countAfter, effCount, hl, differs]

/-- Settles O22: the planes of the counter call hold `countAfter` in every lane. -/
theorem dbcCounts : Obligations.DbcCounts := by
  intro s n x h
  obtain ⟨t, ht, -, hline⟩ := exists_exec_dbc h n x
  refine ⟨t, ht, ?_, fun i => ?_⟩
  · rw [hline, counterCall_planes]
  · rw [hline]
    exact (counterCall_count ..).trans countAfter_eq

/-! ## The stage (R97, R98) -/

theorem acceptsRelease_iff :
    acceptsRelease c x l i = true ↔ lane (counterCall c x l).last i = true ∧ lane l.state i = true := by
  rw [counterCall_lane_last, acceptsRelease, Bool.and_eq_true]

/-- R97: a bounce over `T` ends in the call whose sample is pressed again. -/
theorem overThreshold_iff {T : Nat} :
    overThreshold c x l T i = true ↔
      lane x i = true ∧ lane l.state i = true ∧ T < effCount l i ∧ effCount l i < c.d := by
  simp only [overThreshold, stableActive, differs, Bool.and_eq_true, Bool.not_eq_true', decide_eq_true_eq, and_assoc]
  cases lane x i <;> cases lane l.state i <;> simp

/-- Settles O23: `rel` and `bounce T` are the arguments of `nextStage`, whose arms are the rows of R98. -/
theorem dbcStages : Obligations.DbcStages := by
  intro s n x h
  obtain ⟨t, ht, -, hline⟩ := exists_exec_dbc h n x
  refine ⟨t, ht, fun i => ?_⟩
  rw [hline]
  intro c0 rel bounce before after
  have hafter : after = nextStage _ before _ _ _ := counterCall_stage ..
  have hrel : rel ↔ acceptsRelease s.cfg.toCfg x (s.db.get n) i = true := acceptsRelease_iff.symm
  have hbounce : ∀ T, bounce T ↔ overThreshold s.cfg.toCfg x (s.db.get n) T i = true := fun T =>
    overThreshold_iff.symm
  simp only [hrel, hbounce, hafter]
  refine ⟨fun hone => ?_, fun htwo => ⟨fun hr => ?_, fun hr => ?_⟩⟩
  · simp +contextual [hone, nextStage]
  · simp +contextual [htwo, hr, nextStage]
  · simp +contextual [htwo, hr, nextStage]

/-- Settles O29: on a pressed key the acceptance of R94 is the accepted release of R98, the only way out of BAD. -/
theorem badClearsOnRelease : Obligations.BadClearsOnRelease := by
  intro s t n i x hst hbad h
  rw [line_of_exec_dbc h, counterCall_lane_state, counterCall_stage, stageAfter, hbad, acceptsRelease, hst,
    Bool.and_true]
  cases accepts s.cfg.toCfg x (s.db.get n) i with
  | false => simp [nextStage_bad]
  | true => cases s.cfg.badStages <;> simp [nextStage]

/-! ## The frame (R90, R110, R21) -/

/-- Settles O24: each operation writes line `n` and the report, and its engine keeps the other's hidden state. -/
theorem debounceFrame : Obligations.DebounceFrame := by
  intro s t n x
  constructor
  · intro h
    obtain ⟨-, hn, rfl⟩ := exec_dbc_next.mp h
    refine ⟨hn, ?_⟩
    simp [State.report, setLine]
  · intro h
    obtain ⟨-, hn, -, rfl⟩ := exec_dbf_next.mp h
    refine ⟨hn, ?_⟩
    simp [State.report, setLine]

/-! ## Exact match (R94, R105) -/

/-- A count that is not above its target has reached it only by matching it. -/
theorem accepts_iff_reached (h : lane l.last i = false → l.count i ≤ targetDelay c l i) :
    accepts c x l i = true ↔ lane x i ≠ lane l.state i ∧ targetDelay c l i ≤ effCount l i := by
  have hle : effCount l i ≤ targetDelay c l i := by
    unfold effCount
    split
    next => exact Nat.zero_le _
    next hl => exact h (by simpa using hl)
  rw [accepts_iff, differs_iff, Nat.le_antisymm_iff, and_iff_right hle]

/-- Settles O30: `CountBelowTarget` is the hypothesis of `accepts_iff_reached` on every line and lane. -/
theorem exactMatchIsReached : Obligations.ExactMatchIsReached := by
  intro s t n i x hc h
  rw [line_of_exec_dbc h, counterCall_lane_last]
  exact accepts_iff_reached (hc n i)

end Sys2Proof.Machine
end

section
/-! `DBC` called over and over on one line: the count of one lane along a run of differing samples, and what the run's
end leaves (40_counter_engine.md R92, R95, R97, R98, R106). Obligations O26, O27 and O28. -/

namespace Sys2Proof.Machine

/-! ## Operations in a row -/

/-- The line after counter calls with the samples of a list, the first one first. -/
def counterCalls (c : Cfg) (xs : List Byte) (l : Line) : Line :=
  xs.foldl (fun l x => counterCall c x l) l

theorem counterCalls_concat (c : Cfg) (xs : List Byte) (y : Byte) (l : Line) :
    counterCalls c (xs ++ [y]) l = counterCall c y (counterCalls c xs l) :=
  List.foldl_concat ..

/-- `DBC`s in a row on line `n` complete in a counter build, and are the counter calls in a row on that line (R90). -/
theorem exists_execAll_dbc {s : State} (h : s.cfg.engine = .counter) (n : LineIdx) (xs : List Byte) :
    ∃ t, execAll (xs.map (Instr.dbc n.val)) s = .next t ∧
      t.db.get n = counterCalls s.cfg.toCfg xs (s.db.get n) := by
  induction xs generalizing s with
  | nil => exact ⟨s, rfl, rfl⟩
  | cons x xs ih =>
    obtain ⟨u, hu, -, huline⟩ := exists_exec_dbc h n x
    have hcfg : u.cfg = s.cfg := (exec_effect hu).cfg_eq
    obtain ⟨t, ht, htline⟩ := ih (s := u) (hcfg ▸ h)
    refine ⟨t, execAll_cons.mpr ⟨u, hu, ht⟩, ?_⟩
    rw [htline, hcfg, huline]
    rfl

/-! ## A lane that waits -/

/-- R93: the target delay in a stage. -/
def stageDelay (c : Cfg) (g : Stage) : Nat :=
  if g = .bad then c.dBad else c.d

theorem targetDelay_eq_stageDelay (c : Cfg) (l : Line) (i : LaneIdx) :
    targetDelay c l i = stageDelay c (l.stage i) := rfl

theorem le_stageDelay (c : ValidCfg) (g : Stage) : c.d ≤ stageDelay c.toCfg g := by
  have := c.d_lt_dBad
  unfold stageDelay
  split <;> omega

/-- Lane `i` has the stable bit `st`, the stage `g` and the count `k`, and its last call was no acceptance. -/
structure Waits (l : Line) (i : LaneIdx) (st : Bool) (g : Stage) (k : Nat) : Prop where
  state : lane l.state i = st
  last : lane l.last i = false
  stage : l.stage i = g
  count : l.count i = k

section
variable {c : ValidCfg} {x : Byte} {l : Line} {i : LaneIdx} {st : Bool} {g : Stage} {k : Nat}

theorem Waits.effCount_eq (h : Waits l i st g k) : effCount l i = k := by
  simp [effCount, h.last, h.count]

/-- A differing sample is accepted exactly on the count `tgt` (R94). -/
theorem Waits.accepts_eq (h : Waits l i st g k) (hx : lane x i ≠ st) :
    accepts c.toCfg x l i = decide (k = stageDelay c.toCfg g) := by
  have hd : differs x l i = true := (differs_iff ..).mpr (by rwa [h.state])
  rw [Bool.eq_iff_iff, accepts_iff, h.effCount_eq, targetDelay_eq_stageDelay, h.stage, decide_eq_true_eq]
  exact and_iff_right hd

/-- A differing sample is no end of a bounce: without an acceptance it keeps the stage (R98). -/
theorem stageAfter_of_differs (hd : differs x l i = true) (ha : accepts c.toCfg x l i = false) :
    stageAfter c.toCfg x l i = l.stage i := by
  have hover : ∀ T, overThreshold c.toCfg x l T i = false := fun T => by
    simp [overThreshold, stableActive, hd]
  rw [stageAfter, acceptsRelease, ha, hover, hover]
  cases c.badStages <;> cases l.stage i <;> rfl

/-- A differing sample below the target counts one more (R99). -/
theorem Waits.differing (h : Waits l i st g k) (hx : lane x i ≠ st) (hk : k < stageDelay c.toCfg g) :
    Waits (counterCall c.toCfg x l) i st g (k + 1) := by
  have hd : differs x l i = true := (differs_iff ..).mpr (by rwa [h.state])
  have ha : accepts c.toCfg x l i = false := by
    rw [h.accepts_eq hx, decide_eq_false_iff_not]
    omega
  have hfits : k + 1 < 2 ^ c.planes := by
    have := (targetDelay_bounds c l i).2
    rw [targetDelay_eq_stageDelay, h.stage] at this
    omega
  constructor
  · rw [counterCall_lane_state, ha, Bool.bne_false, h.state]
  · rw [counterCall_lane_last, ha]
  · rw [counterCall_stage, stageAfter_of_differs hd ha, h.stage]
  · simp [countAfter, h.last, hd, h.effCount_eq, Nat.mod_eq_of_lt hfits]

/-- A run of differing samples within the target counts them all. -/
theorem Waits.run {xs : List Byte} (h : Waits l i st g k) (hxs : ∀ x ∈ xs, lane x i ≠ st)
    (hk : k + xs.length ≤ stageDelay c.toCfg g) :
    Waits (counterCalls c.toCfg xs l) i st g (k + xs.length) := by
  induction xs generalizing l k with
  | nil => exact h
  | cons x xs ih =>
    rw [List.length_cons] at hk ⊢
    have hstep := h.differing (c := c) (hxs x List.mem_cons_self) (by omega)
    have hrun := ih hstep (fun y hy => hxs y (List.mem_cons_of_mem x hy)) (by omega)
    rwa [Nat.add_assoc, Nat.add_comm 1] at hrun

/-- R95: a run of `tgt + 1` differing samples from a zero count flips the stable bit in its last call. -/
theorem Waits.flips {xs : List Byte} (h : Waits l i st g 0) (hxs : ∀ x ∈ xs, lane x i ≠ st)
    (hlen : xs.length = stageDelay c.toCfg g + 1) :
    lane (counterCalls c.toCfg xs l).state i = !st ∧ lane (counterCalls c.toCfg xs l).last i = true := by
  obtain rfl | ⟨ys, y, rfl⟩ := xs.eq_nil_or_concat'
  · simp at hlen
  have hys : ys.length = stageDelay c.toCfg g := by simpa using hlen
  have hrun : Waits (counterCalls c.toCfg ys l) i st g ys.length := by
    simpa using h.run (fun x hx => hxs x (List.mem_append_left _ hx)) (by omega)
  have hacc : accepts c.toCfg y (counterCalls c.toCfg ys l) i = true := by
    rw [hrun.accepts_eq (hxs y (by simp)), hys, decide_eq_true rfl]
  rw [counterCalls_concat, counterCall_lane_state, counterCall_lane_last, hacc, hrun.state]
  simp

/-- R92: the call after an acceptance holds the count at zero and keeps the bit, whatever the sample. -/
theorem waits_after_acceptance (hl : lane l.last i = true) (hx : lane x i ≠ lane l.state i) :
    Waits (counterCall c.toCfg x l) i (lane l.state i) (l.stage i) 0 := by
  have ha := not_accepts_of_last c x hl
  constructor
  · rw [counterCall_lane_state, ha, Bool.bne_false]
  · rw [counterCall_lane_last, ha]
  · rw [counterCall_stage, stageAfter_of_differs ((differs_iff ..).mpr hx) ha]
  · rw [counterCall_count, countAfter, if_pos hl]

/-- A sample equal to a pressed key's bit ends the bounce of `k` samples: the count is zero and the stage is R98's for a
bounce of length `k` (R97). -/
theorem Waits.pressed_again (h : Waits l i true g k) (hx : lane x i = true) :
    Waits (counterCall c.toCfg x l) i true
      (nextStage c.badStages g false (decide (c.t1 < k ∧ k < c.d)) (decide (c.t2 < k ∧ k < c.d))) 0 := by
  have hd : differs x l i = false := by simp [differs, hx, h.state]
  have ha : accepts c.toCfg x l i = false := by simp [accepts, hd]
  have hover : ∀ T, overThreshold c.toCfg x l T i = decide (T < k ∧ k < c.d) := fun T => by
    rw [Bool.eq_iff_iff, overThreshold_iff, h.effCount_eq, h.state, hx]
    simp
  constructor
  · rw [counterCall_lane_state, ha, Bool.bne_false, h.state]
  · rw [counterCall_lane_last, ha]
  · rw [counterCall_stage, stageAfter, acceptsRelease, ha, hover, hover, h.stage, Bool.false_and]
  · simp [countAfter, h.last, hd]

end

/-- Settles O26: a run within the target only counts, and one more sample is accepted. -/
theorem counterLatency : Obligations.CounterLatency := by
  intro s n i xs h hcnt hlast hxs tgt
  obtain ⟨t, ht, hline⟩ := exists_execAll_dbc h n xs
  have hw : Waits (s.db.get n) i (lane (s.db.get n).state i) ((s.db.get n).stage i) 0 := ⟨rfl, hlast, rfl, hcnt⟩
  refine ⟨t, ht, fun hlen => ?_, fun hlen => ?_⟩
  · have hrun := hw.run (c := s.cfg) hxs (by rwa [Nat.zero_add])
    rw [hline]
    exact ⟨hrun.state, hrun.last⟩
  · rw [hline]
    exact hw.flips hxs hlen

/-- Settles O27: the first sample finds the count held at zero, and the rest is the run of O26. -/
theorem flipBackLatency : Obligations.FlipBackLatency := by
  intro s n i xs h hlast hxs tgt
  obtain ⟨t, ht, hline⟩ := exists_execAll_dbc h n xs
  refine ⟨t, ht, ?_⟩
  rw [hline]
  cases xs with
  | nil => simp [counterCalls]
  | cons x xs =>
    obtain ⟨hx, hxs⟩ := List.forall_mem_cons.mp hxs
    have hw := waits_after_acceptance (c := s.cfg) hlast hx
    rw [List.length_cons]
    refine ⟨fun hlen => ?_, fun hlen => ?_⟩
    · exact (hw.run hxs (by rw [Nat.zero_add]; exact Nat.le_of_succ_le_succ hlen)).state
    · exact (hw.flips hxs (Nat.succ.inj hlen)).1

/-- Settles O28: the run within the target counts the bounce, and the call that ends it judges its length. -/
theorem bounceVerdict : Obligations.BounceVerdict := by
  intro s n i xs y h hcnt hlast hst hxs hy hlen
  obtain ⟨t, ht, hline⟩ := exists_execAll_dbc h n (xs ++ [y])
  have hw : Waits (s.db.get n) i true ((s.db.get n).stage i) 0 := ⟨hst, hlast, rfl, hcnt⟩
  have hrun := hw.run (c := s.cfg) (fun x hx => by simp [hxs x hx])
    (by rw [Nat.zero_add]; exact hlen.trans (le_stageDelay ..))
  rw [Nat.zero_add] at hrun
  have hend := hrun.pressed_again (c := s.cfg) hy
  rw [← counterCalls_concat, ← hline] at hend
  refine ⟨t, by simpa using ht, hend.state, hend.last, hend.count, hend.stage.trans ?_⟩
  cases s.cfg.badStages with
  | one => simp [nextStage]
  | two => cases (s.db.get n).stage i <;> simp [nextStage]

end Sys2Proof.Machine
end

section
/-! One `DBF` on one line: the rows of the transition table (41_fsm_engine.md R113 to R118, section 4), what a
transition emits (R112), and what the operation leaves of its line. Obligations O31, O32, O33, O34 and O36. -/

namespace Sys2Proof.Machine

/-! ## The transition table (R113 to R118) -/

section
variable {c : Cfg} {k : Key}

theorem keyCall_off (hp : k.phase = .off) (x : Bool) :
    keyCall c x k = (if x then { k with phase := .turningOn } else k, .nothing) := by
  cases x <;> simp [keyCall, hp, callOff]

theorem keyCall_turningOn_pressed (hp : k.phase = .turningOn) :
    keyCall c true k = ({ k with phase := .lockedOn, cycles := 0 }, .on) := by
  simp [keyCall, hp, callTurningOn]

theorem keyCall_turningOn_released (hp : k.phase = .turningOn) :
    keyCall c false k = ({ k with phase := .off, mult := bumped c k.mult }, .nothing) := by
  simp [keyCall, hp, callTurningOn]

/-- The sample is opposite to the dead zone: 0 in LOCKED_ON, 1 in LOCKED_OFF. -/
def OppositeInDeadZone (p : Phase) (x : Bool) : Prop :=
  p = .lockedOn ∧ x = false ∨ p = .lockedOff ∧ x = true

/-- R115, R118: either dead zone answers an opposite sample alike (decision D18). -/
theorem keyCall_deadZone_chatter {x : Bool} (h : OppositeInDeadZone k.phase x) :
    keyCall c x k = ({ k with cycles := 0, mult := bumped c k.mult }, .nothing) := by
  rcases h with ⟨hp, rfl⟩ | ⟨hp, rfl⟩
  · simp [keyCall, hp, callLockedOn]
  · simp [keyCall, hp, callLockedOff]

theorem keyCall_lockedOn_counts (hp : k.phase = .lockedOn) (hw : k.cycles + 1 < c.lockedOnPeriod * k.mult) :
    keyCall c true k = ({ k with cycles := k.cycles + 1 }, .nothing) := by
  simp [keyCall, hp, callLockedOn, hw]

theorem keyCall_lockedOn_elapses (hp : k.phase = .lockedOn) (hw : k.cycles + 1 ≥ c.lockedOnPeriod * k.mult) :
    keyCall c true k =
      ({ k with phase := .on, cycles := k.cycles + 1, countdown := c.keyOnChatterWindow * k.mult }, .nothing) := by
  simp [keyCall, hp, callLockedOn, hw]

theorem keyCall_lockedOff_counts (hp : k.phase = .lockedOff) (hw : k.cycles + 1 < c.lockedOffPeriod * k.mult) :
    keyCall c false k = ({ k with cycles := k.cycles + 1 }, .nothing) := by
  simp [keyCall, hp, callLockedOff, hw]

theorem keyCall_lockedOff_elapses (hp : k.phase = .lockedOff) (hw : k.cycles + 1 ≥ c.lockedOffPeriod * k.mult) :
    keyCall c false k = ({ k with phase := .off, cycles := k.cycles + 1 }, .nothing) := by
  simp [keyCall, hp, callLockedOff, hw]

theorem keyCall_on_pressed (hp : k.phase = .on) :
    keyCall c true k = ({ k with countdown := c.keyOnChatterWindow * k.mult }, .nothing) := by
  simp [keyCall, hp, callOn]

/-- R116, R117: a countdown that does not elapse goes down alike in ON and in TURNING_OFF. -/
theorem keyCall_countsDown (hp : k.phase = .on ∨ k.phase = .turningOff) (hv : 2 ≤ k.countdown) :
    keyCall c false k = ({ k with countdown := k.countdown - 1 }, .nothing) := by
  have hne : ¬ k.countdown - 1 = 0 := by omega
  rcases hp with hp | hp
  · simp only [keyCall, hp, callOn, dec_eq, if_neg hne, Bool.false_eq_true, if_false]
  · simp only [keyCall, hp, callTurningOff, dec_eq, if_neg hne, Bool.false_eq_true, if_false]

theorem keyCall_on_elapses (hp : k.phase = .on) (hv : k.countdown ≤ 1) :
    keyCall c false k =
      ({ k with phase := .turningOff, countdown := c.turningOffChatterWindow * k.mult }, .nothing) := by
  simp [keyCall, hp, callOn, dec_eq, Nat.sub_eq_zero_of_le hv]

theorem keyCall_turningOff_pressed (hp : k.phase = .turningOff) :
    keyCall c true k =
      ({ k with phase := .on, countdown := k.countdown - 1, mult := bumped c k.mult }, .nothing) := by
  simp [keyCall, hp, callTurningOff, dec_eq]

theorem keyCall_turningOff_elapses (hp : k.phase = .turningOff) (hv : k.countdown ≤ 1) :
    keyCall c false k = ({ k with phase := .lockedOff, countdown := 0, cycles := 0 }, .off) := by
  simp [keyCall, hp, callTurningOff, dec_eq, Nat.sub_eq_zero_of_le hv]

/-! ## What is emitted (R112) -/

/-- An "on" comes from TURNING_ON alone and an "off" from TURNING_OFF alone: the last column of the table. -/
theorem keyCall_emission (x : Bool) :
    (keyCall c x k).2 =
      if k.phase = .turningOn ∧ x = true then .on
      else if k.phase = .turningOff ∧ x = false ∧ k.countdown ≤ 1 then .off
      else .nothing := by
  cases hp : k.phase with
  | off => simp [keyCall_off hp]
  | turningOn =>
    cases x with
    | true => simp [keyCall_turningOn_pressed hp]
    | false => simp [keyCall_turningOn_released hp]
  | lockedOn =>
    cases x with
    | true =>
      rcases Nat.lt_or_ge (k.cycles + 1) (c.lockedOnPeriod * k.mult) with hw | hw
      · simp [keyCall_lockedOn_counts hp hw]
      · simp [keyCall_lockedOn_elapses hp hw]
    | false => simp [keyCall_deadZone_chatter (.inl ⟨hp, rfl⟩)]
  | on =>
    cases x with
    | true => simp [keyCall_on_pressed hp]
    | false =>
      rcases Nat.lt_or_ge 1 k.countdown with hv | hv
      · simp [keyCall_countsDown (.inl hp) hv]
      · simp [keyCall_on_elapses hp hv]
  | turningOff =>
    cases x with
    | true => simp [keyCall_turningOff_pressed hp]
    | false =>
      rcases Nat.lt_or_ge 1 k.countdown with hv | hv
      · simp [keyCall_countsDown (.inr hp) hv, hv]
      · simp [keyCall_turningOff_elapses hp hv, hv]
  | lockedOff =>
    cases x with
    | true => simp [keyCall_deadZone_chatter (.inr ⟨hp, rfl⟩)]
    | false =>
      rcases Nat.lt_or_ge (k.cycles + 1) (c.lockedOffPeriod * k.mult) with hw | hw
      · simp [keyCall_lockedOff_counts hp hw]
      · simp [keyCall_lockedOff_elapses hp hw]

theorem Emit.changeBit_iff (e : Emit) : e.changeBit = true ↔ e = .on ∨ e = .off := by
  cases e <;> simp [Emit.changeBit]

end

/-! ## The operation (R110, R111) -/

/-- A `DBF` on line `n` is given a behaviour: the build has the engine (R75) and the line's key records are inside their
bounds (U13). -/
def FsmCallable (s : State) (n : LineIdx) : Prop :=
  s.cfg.engine = .fsm ∧ ∀ i, ((s.db.get n).keys.get i).inRange s.cfg.toCfg = true

/-- A `DBF` so prepared completes with the engine's call on its line, reports the line's new `last` (R112), and leaves
the line prepared for the next one. -/
theorem exists_exec_dbf {s : State} {n : LineIdx} (h : FsmCallable s n) (x : Byte) :
    ∃ t, exec (.dbf n.val x) s = .next t ∧ t.env.result = some (t.db.get n).last ∧
      t.db.get n = fsmCall s.cfg.toCfg x (s.db.get n) ∧ t.cfg = s.cfg ∧ FsmCallable t n := by
  obtain ⟨he, hk⟩ := h
  obtain ⟨hlon, -, -, hloff⟩ := s.cfg.windows_pos he
  refine ⟨_, exec_dbf_next.mpr ⟨he, n.isLt, hk, rfl⟩, ?_, ?_, rfl, he, fun i => ?_⟩
  · simp
  · simp
  · simpa using keyCall_inRange hlon hloff (lane x i) (hk i)

/-- Settles O31: the rows of OFF and TURNING_ON. -/
theorem dbfOffAndTurningOn : Obligations.DbfOffAndTurningOn := by
  intro s n x he hk
  obtain ⟨t, ht, -, hl, -⟩ := exists_exec_dbf ⟨he, hk⟩ x
  refine ⟨t, ht, fun i => ?_⟩
  simp only [hl, fsmCall_key]
  refine ⟨fun hp => ?_, fun hp hx => ?_, fun hp hx => ?_⟩
  · rw [keyCall_off hp]
  · rw [hx, keyCall_turningOn_pressed hp]
  · rw [hx, keyCall_turningOn_released hp, bumped]

/-- Settles O32: the rows of the two dead zones. -/
theorem dbfDeadZones : Obligations.DbfDeadZones := by
  intro s n x he hk
  obtain ⟨t, ht, -, hl, -⟩ := exists_exec_dbf ⟨he, hk⟩ x
  refine ⟨t, ht, fun i => ?_⟩
  simp only [hl, fsmCall_key]
  refine ⟨fun hp => ⟨fun hx => ?_, fun hx hw => ?_, fun hx hw => ?_⟩,
    fun hp => ⟨fun hx => ?_, fun hx hw => ?_, fun hx hw => ?_⟩⟩
  · rw [keyCall_deadZone_chatter (.inl ⟨hp, hx⟩), bumped]
  · rw [hx, keyCall_lockedOn_counts hp hw]
  · rw [hx, keyCall_lockedOn_elapses hp hw]
  · rw [keyCall_deadZone_chatter (.inr ⟨hp, hx⟩), bumped]
  · rw [hx, keyCall_lockedOff_counts hp hw]
  · rw [hx, keyCall_lockedOff_elapses hp hw]

/-- Settles O33: the rows of ON and TURNING_OFF. -/
theorem dbfOnAndTurningOff : Obligations.DbfOnAndTurningOff := by
  intro s n x he hk
  obtain ⟨t, ht, -, hl, -⟩ := exists_exec_dbf ⟨he, hk⟩ x
  refine ⟨t, ht, fun i => ?_⟩
  simp only [hl, fsmCall_key]
  refine ⟨fun hp => ⟨fun hx => ?_, fun hx hv => ?_, fun hx hv => ?_⟩,
    fun hp => ⟨fun hx => ?_, fun hx hv => ?_, fun hx hv => ?_⟩⟩
  · rw [hx, keyCall_on_pressed hp]
  · rw [hx, keyCall_countsDown (.inl hp) hv]
  · rw [hx, keyCall_on_elapses hp hv]
  · rw [hx, keyCall_turningOff_pressed hp, bumped]
  · rw [hx, keyCall_countsDown (.inr hp) hv]
  · rw [hx, keyCall_turningOff_elapses hp hv]

/-- Settles O34: the two clauses are when the key emits "on" and "off", and an emission decides both bits. -/
theorem dbfEmits : Obligations.DbfEmits := by
  intro s n x he hk
  obtain ⟨t, ht, hres, hl, -⟩ := exists_exec_dbf ⟨he, hk⟩ x
  refine ⟨t, ht, hres, fun i => ?_⟩
  simp only [hl, fsmCall_lane_last, fsmCall_lane_state, Emit.changeBit_iff, keyCall_emission]
  refine ⟨?_, fun hon => ?_, fun hoff => ?_, fun hon hoff => ?_⟩
  · split_ifs <;> simp_all
  · rw [if_pos hon, Emit.stateBit]
  · rw [if_neg (by simp [hoff.1]), if_pos hoff, Emit.stateBit]
  · rw [if_neg hon, if_neg hoff, Emit.stateBit]

/-- Below its maximum a bump raises the multiplier, for `MULT_STEP` is at least 1 (CFG6, R119). -/
theorem lt_bumped {c : ValidCfg} (he : c.engine = .fsm) {m : Nat} (hm : m < c.multMax) : m < bumped c.toCfg m := by
  obtain ⟨hstep, -⟩ := c.mult_bounds he
  exact lt_min (by omega) hm

/-- Settles O36: the first sample leads to TURNING_ON without a change, and the second takes one of its two rows. -/
theorem fsmFirstTwoSamples : Obligations.FsmFirstTwoSamples := by
  intro s n i x y he hk hp hx
  obtain ⟨t, ht, -, htl, hcfg, hready⟩ := exists_exec_dbf ⟨he, hk⟩ x
  obtain ⟨u, hu, -, hul, -⟩ := exists_exec_dbf hready y
  have hfirst := keyCall_off (c := s.cfg.toCfg) hp true
  have hkey : ((t.db.get n).keys.get i) = { (s.db.get n).keys.get i with phase := .turningOn } := by
    rw [htl, fsmCall_key, hx, hfirst, if_pos rfl]
  have hstate : lane (t.db.get n).state i = lane (s.db.get n).state i := by
    rw [htl, fsmCall_lane_state, hx, hfirst, Emit.stateBit]
  refine ⟨t, u, ht, hu, ?_, hstate, fun hy => ?_, fun hy => ?_⟩
  · rw [htl, fsmCall_lane_last, hx, hfirst, Emit.changeBit]
  · rw [hul, fsmCall_lane_last, fsmCall_lane_state, fsmCall_key, hy, hkey, keyCall_turningOn_pressed rfl]
    exact ⟨rfl, rfl, rfl⟩
  · rw [hul, fsmCall_lane_last, fsmCall_lane_state, fsmCall_key, hy, hkey, keyCall_turningOn_released rfl, hcfg]
    exact ⟨rfl, hstate, lt_bumped he⟩

end Sys2Proof.Machine
end

section
/-! `DBF` called over and over on one line: one key under a run of equal samples (41_fsm_engine.md R115 to R118,
R121(d), 70_reset_and_hazards.md R199). Obligations O37 and O38. -/

namespace Sys2Proof.Machine

/-! ## A key and its stable bit along a run -/

/-- A key's record with its stable bit, after a call with the sample `x` (R111, R112). -/
def keyStep (c : Cfg) (x : Bool) (p : Key × Bool) : Key × Bool :=
  ((keyCall c x p.1).1, (keyCall c x p.1).2.stateBit p.2)

theorem fsmCall_keyStep (c : Cfg) (x : Byte) (l : Line) (i : LaneIdx) :
    ((fsmCall c x l).keys.get i, lane (fsmCall c x l).state i) =
      keyStep c (lane x i) (l.keys.get i, lane l.state i) := by
  rw [fsmCall_key, fsmCall_lane_state, keyStep]

/-- A row without an emission leaves the stable bit (R112). -/
theorem keyStep_of_nothing {c : Cfg} {x st : Bool} {k k' : Key} (h : keyCall c x k = (k', .nothing)) :
    keyStep c x (k, st) = (k', st) := by
  rw [keyStep, h, Emit.stateBit]

/-- `DBF`s in a row on line `n` complete, and a lane that has the sample `b` in all of them makes as many steps with
`b`. -/
theorem exists_execAll_dbf {s : State} {n : LineIdx} (h : FsmCallable s n) {i : LaneIdx} {b : Bool} {xs : List Byte}
    (hxs : ∀ x ∈ xs, lane x i = b) :
    ∃ t, execAll (xs.map (Instr.dbf n.val)) s = .next t ∧
      ((t.db.get n).keys.get i, lane (t.db.get n).state i) =
        (keyStep s.cfg.toCfg b)^[xs.length] ((s.db.get n).keys.get i, lane (s.db.get n).state i) := by
  induction xs generalizing s with
  | nil => exact ⟨s, rfl, rfl⟩
  | cons x xs ih =>
    obtain ⟨hx, hxs⟩ := List.forall_mem_cons.mp hxs
    obtain ⟨u, hu, -, hline, hcfg, hready⟩ := exists_exec_dbf h x
    obtain ⟨t, ht, hlane⟩ := ih hready hxs
    refine ⟨t, execAll_cons.mpr ⟨u, hu, ht⟩, ?_⟩
    rw [hlane, hcfg, hline, fsmCall_keyStep, hx, List.length_cons, Function.iterate_succ_apply]

section
variable {c : Cfg} {k : Key} {st : Bool}

/-! ## A run of 0-samples (R116, R117, R118) -/

/-- R116, R117: within a countdown of ON or TURNING_OFF every 0-sample takes one. -/
theorem keyStep_countdown_run (hp : k.phase = .on ∨ k.phase = .turningOff) {j : Nat} (hj : j < k.countdown) :
    (keyStep c false)^[j] (k, st) = ({ k with countdown := k.countdown - j }, st) := by
  induction j with
  | zero => rfl
  | succ j ih =>
    have hv : 2 ≤ k.countdown - j := by omega
    rw [Function.iterate_succ_apply', ih (by omega)]
    exact keyStep_of_nothing (keyCall_countsDown hp hv)

/-- The last 0-sample of a countdown finds it at 1. -/
theorem keyStep_countdown_end (hp : k.phase = .on ∨ k.phase = .turningOff) (hpos : 1 ≤ k.countdown) :
    (keyStep c false)^[k.countdown] (k, st) = keyStep c false ({ k with countdown := 1 }, st) := by
  obtain ⟨v, hv⟩ := Nat.exists_eq_add_of_le' hpos
  rw [hv, Function.iterate_succ_apply', keyStep_countdown_run hp (by omega), hv, Nat.add_sub_cancel_left]

/-- R116: ON ends with its countdown, and TURNING_OFF's is armed. -/
theorem keyStep_on_run (hp : k.phase = .on) (hpos : 1 ≤ k.countdown) :
    (keyStep c false)^[k.countdown] (k, st) =
      ({ k with phase := .turningOff, countdown := c.turningOffChatterWindow * k.mult }, st) := by
  rw [keyStep_countdown_end (.inl hp) hpos]
  exact keyStep_of_nothing (keyCall_on_elapses hp le_rfl)

/-- R117: TURNING_OFF ends with its countdown, in an accepted "off". -/
theorem keyStep_turningOff_run (hp : k.phase = .turningOff) (hpos : 1 ≤ k.countdown) :
    (keyStep c false)^[k.countdown] (k, st) = ({ k with phase := .lockedOff, countdown := 0, cycles := 0 }, false) := by
  rw [keyStep_countdown_end (.inr hp) hpos, keyStep,
    keyCall_turningOff_elapses (k := { k with countdown := 1 }) hp le_rfl, Emit.stateBit]

/-- R118: inside LOCKED_OFF's window every 0-sample counts. -/
theorem keyStep_lockedOff_run (hp : k.phase = .lockedOff) {j : Nat} (hj : k.cycles + j < c.lockedOffPeriod * k.mult) :
    (keyStep c false)^[j] (k, st) = ({ k with cycles := k.cycles + j }, st) := by
  induction j with
  | zero => rfl
  | succ j ih =>
    rw [Function.iterate_succ_apply', ih (by omega)]
    exact keyStep_of_nothing (keyCall_lockedOff_counts hp hj)

/-- R118: from a restarted count LOCKED_OFF ends with the window's last 0-sample. -/
theorem keyStep_lockedOff_end (hp : k.phase = .lockedOff) (hc : k.cycles = 0)
    (hpos : 1 ≤ c.lockedOffPeriod * k.mult) :
    ((keyStep c false)^[c.lockedOffPeriod * k.mult] (k, st)).1.phase = .off := by
  obtain ⟨w, hw⟩ := Nat.exists_eq_add_of_le' hpos
  have hlast : k.cycles + w + 1 ≥ c.lockedOffPeriod * k.mult := by omega
  rw [hw, Function.iterate_succ_apply', keyStep_lockedOff_run hp (by omega),
    keyStep_of_nothing (keyCall_lockedOff_elapses (k := { k with cycles := k.cycles + w }) hp hlast)]

/-! ## The release (R121(d)) -/

/-- The key is in ON with a freshly reset countdown, and the three windows it has to pass are not empty. -/
structure ReleaseStart (c : Cfg) (k : Key) : Prop where
  phase : k.phase = .on
  countdown : k.countdown = c.keyOnChatterWindow * k.mult
  on_pos : 1 ≤ c.keyOnChatterWindow * k.mult
  turningOff_pos : 1 ≤ c.turningOffChatterWindow * k.mult
  lockedOff_pos : 1 ≤ c.lockedOffPeriod * k.mult

theorem ReleaseStart.leaves_on (h : ReleaseStart c k) :
    (keyStep c false)^[c.keyOnChatterWindow * k.mult] (k, st) =
      ({ k with phase := .turningOff, countdown := c.turningOffChatterWindow * k.mult }, st) := by
  rw [← h.countdown]
  exact keyStep_on_run h.phase (h.countdown ▸ h.on_pos)

/-- The first window passes in ON, the second in TURNING_OFF, and neither touches the stable bit before its end. -/
theorem ReleaseStart.holds_bit (h : ReleaseStart c k) {j : Nat}
    (hj : j < c.keyOnChatterWindow * k.mult + c.turningOffChatterWindow * k.mult) :
    ((keyStep c false)^[j] (k, st)).2 = st := by
  rcases Nat.lt_or_ge j (c.keyOnChatterWindow * k.mult) with hlt | hge
  · rw [keyStep_countdown_run (.inl h.phase) (h.countdown ▸ hlt)]
  · obtain ⟨d, rfl⟩ := Nat.exists_eq_add_of_le' hge
    rw [Function.iterate_add_apply, h.leaves_on, keyStep_countdown_run (.inr rfl) (by simp only; omega)]

theorem ReleaseStart.releases (h : ReleaseStart c k) :
    (keyStep c false)^[c.keyOnChatterWindow * k.mult + c.turningOffChatterWindow * k.mult] (k, st) =
      ({ k with phase := .lockedOff, countdown := 0, cycles := 0 }, false) := by
  rw [Nat.add_comm, Function.iterate_add_apply, h.leaves_on]
  exact keyStep_turningOff_run (k := { k with phase := _, countdown := _ }) rfl h.turningOff_pos

theorem ReleaseStart.returns_to_off (h : ReleaseStart c k) :
    ((keyStep c false)^[c.keyOnChatterWindow * k.mult + c.turningOffChatterWindow * k.mult +
      c.lockedOffPeriod * k.mult] (k, st)).1.phase = .off := by
  rw [Nat.add_comm, Function.iterate_add_apply, h.releases]
  exact keyStep_lockedOff_end (k := { k with phase := _, countdown := _, cycles := _ }) rfl rfl h.lockedOff_pos

/-! ## A run of samples opposite to the dead zone (R115, R118, R199(a)) -/

/-- R199(a): a key held against its dead zone stays there, and its multiplier climbs to the maximum (R119). -/
theorem keyStep_held {b : Bool} (h : OppositeInDeadZone k.phase b) (hmax : k.mult ≤ c.multMax) (j : Nat) :
    let r := (keyStep c b)^[j] (k, st)
    r.1.phase = k.phase ∧ r.2 = st ∧ r.1.mult = min (k.mult + j * c.multStep) c.multMax := by
  induction j with
  | zero => simpa using hmax
  | succ j ih =>
    obtain ⟨hphase, hst, hmult⟩ := ih
    simp only [Function.iterate_succ_apply']
    rw [keyStep, keyCall_deadZone_chatter (hphase ▸ h)]
    refine ⟨hphase, hst, ?_⟩
    simp only [bumped, hmult, Nat.succ_mul]
    omega

end

/-- Settles O37: the lane's run is a run of 0-samples of its key, whose windows are at least one call long (CFG6). -/
theorem fsmShortestRelease : Obligations.FsmShortestRelease := by
  intro s n i xs he hk hp hst hon hxs m w
  obtain ⟨t, ht, hlane⟩ := exists_execAll_dbf ⟨he, hk⟩ hxs
  obtain ⟨-, hkon, htoff, hloff⟩ := s.cfg.windows_pos he
  obtain ⟨⟨hpos, -⟩, -⟩ := (Key.inRange_iff ..).mp (hk i)
  have hstart : ReleaseStart s.cfg.toCfg ((s.db.get n).keys.get i) :=
    ⟨hp, hon, Nat.mul_pos hkon hpos, Nat.mul_pos htoff hpos, Nat.mul_pos hloff hpos⟩
  refine ⟨t, ht, fun hj => ?_, fun hj => ?_, fun hj => ?_⟩
  · calc lane (t.db.get n).state i = lane (s.db.get n).state i :=
          (congrArg Prod.snd hlane).trans (hstart.holds_bit hj)
      _ = true := hst
  · rw [hj, hstart.releases] at hlane
    exact ⟨congrArg Prod.snd hlane, congrArg (·.1.phase) hlane⟩
  · rw [hj] at hlane
    exact (congrArg (·.1.phase) hlane).trans hstart.returns_to_off

/-- Settles O38: whichever the dead zone, the lane's run is a run of samples opposite to it. -/
theorem fsmHeldKey : Obligations.FsmHeldKey := by
  intro s n i xs he hk h
  obtain ⟨b, hopp, hxs⟩ :
      ∃ b, OppositeInDeadZone ((s.db.get n).keys.get i).phase b ∧ ∀ x ∈ xs, lane x i = b := by
    rcases h with ⟨hp, hxs⟩ | ⟨hp, hxs⟩
    · exact ⟨false, .inl ⟨hp, rfl⟩, hxs⟩
    · exact ⟨true, .inr ⟨hp, rfl⟩, hxs⟩
  obtain ⟨t, ht, hlane⟩ := exists_execAll_dbf ⟨he, hk⟩ hxs
  obtain ⟨⟨-, hmax⟩, -⟩ := (Key.inRange_iff ..).mp (hk i)
  have hrun := keyStep_held (st := lane (s.db.get n).state i) hopp hmax xs.length
  rw [← hlane] at hrun
  exact ⟨t, ht, hrun⟩

end Sys2Proof.Machine
end

section
/-! The matrix scanner (42_matrix_scanner.md R130 to R137): `DRIVE` and `READ` on their own, the listed answers that the
sampling loops take, and one whole invocation. Obligations O41 and O43. -/

namespace Sys2Proof.Machine

/-- Settles O41: `READ` takes the next listed answer, or the free value of the PIN agent's counter. -/
theorem driveAndRead : Obligations.DriveAndRead := by
  intro s n hm
  refine ⟨exec_drive_next.mpr ⟨hm, n.isLt, rfl⟩, fun a rest hp => exec_read_next.mpr ⟨hm, ?_⟩,
    fun hp => exec_read_next.mpr ⟨hm, ?_⟩⟩
  · rw [pinRead_cons hp]
    rfl
  · rw [pinRead_nil hp]
    rfl

/-! ## The listed answers that the sampling loops take (R131) -/

/-- From `p` to `q` the first `k` listed answers are consumed, nothing else of the environment changes, and line `n` has
the reads `v n` more. -/
structure TakesListed (p q : Pass) (k : Nat) (v : LineIdx → List Byte) : Prop where
  env : q.core.env = { p.core.env with pins := p.core.env.pins.drop k }
  reads : ∀ n, q.reads.get n = p.reads.get n ++ v n

theorem TakesListed.refl (p : Pass) : TakesListed p p 0 (fun _ => []) :=
  ⟨rfl, fun _ => (List.append_nil _).symm⟩

theorem TakesListed.trans {p q r : Pass} {j k : Nat} {v w : LineIdx → List Byte} (h₁ : TakesListed p q j v)
    (h₂ : TakesListed q r k w) : TakesListed p r (j + k) (fun n => v n ++ w n) where
  env := by rw [h₂.env, h₁.env, List.drop_drop]
  reads n := by rw [h₂.reads, h₁.reads, List.append_assoc]

theorem TakesListed.pins {p q : Pass} {k : Nat} {v : LineIdx → List Byte} (h : TakesListed p q k v) :
    q.core.env.pins = p.core.env.pins.drop k := by
  rw [h.env]

theorem takesListed_read (n : LineIdx) {p : Pass} (h : 1 ≤ p.core.env.pins.length) :
    TakesListed p (MainStep.run (.read n) p) 1 (fun m => if m = n then p.core.env.pins.take 1 else []) := by
  obtain ⟨a, rest, hp⟩ := List.exists_cons_of_length_pos h
  refine ⟨?_, fun m => ?_⟩
  · simp [MainStep.run, readStep, pinRead_cons hp, hp]
  · by_cases hm : m = n
    · simp [MainStep.run, readStep, pinRead_cons hp, hp, hm]
    · simp [MainStep.run, readStep, Quad.get_set, hm]

theorem takesListed_reads (n : LineIdx) {R : Nat} {p : Pass} (h : R ≤ p.core.env.pins.length) :
    TakesListed p (runSteps (List.replicate R (.read n)) p) R
      (fun m => if m = n then p.core.env.pins.take R else []) := by
  induction R generalizing p with
  | zero => simpa using TakesListed.refl p
  | succ R ih =>
    have hbefore := ih (p := p) (by omega)
    have hone := takesListed_read n (p := runSteps (List.replicate R (.read n)) p)
      (by rw [hbefore.pins, List.length_drop]; omega)
    rw [List.replicate_succ', runSteps_append, runSteps_cons, runSteps_nil]
    convert hbefore.trans hone using 2 with m
    rw [hbefore.pins]
    split
    · exact List.take_add ..
    · rfl

/-- Driving a line takes no answer, and its `R` reads take the next `R`. -/
theorem takesListed_line (n : LineIdx) {R : Nat} {p : Pass} (h : R ≤ p.core.env.pins.length) :
    TakesListed p (runSteps (.drive n :: List.replicate R (.read n)) p) R
      (fun m => if m = n then p.core.env.pins.take R else []) := by
  obtain ⟨henv, hreads⟩ := takesListed_reads n (p := MainStep.run (.drive n) p) h
  exact ⟨henv, hreads⟩

/-- A sampling pass, line by line. -/
theorem samplingPass_eq (R : Nat) :
    samplingPass R = (.drive 0 :: List.replicate R (.read 0)) ++ ((.drive 1 :: List.replicate R (.read 1)) ++
      ((.drive 2 :: List.replicate R (.read 2)) ++ (.drive 3 :: List.replicate R (.read 3)))) := by
  simp [samplingPass, allLines]

/-- In one sampling pass line `n` takes the `n`-th block of `R` answers. -/
theorem takesListed_pass {R : Nat} {p : Pass} (h : 4 * R ≤ p.core.env.pins.length) :
    TakesListed p (runSteps (samplingPass R) p) (4 * R)
      (fun n => (p.core.env.pins.drop (n.val * R)).take R) := by
  have h0 := takesListed_line 0 (R := R) (p := p) (by omega)
  have h1 := h0.trans (takesListed_line 1 (R := R) (by rw [h0.pins, List.length_drop]; omega))
  have h2 := h1.trans (takesListed_line 2 (R := R) (by rw [h1.pins, List.length_drop]; omega))
  have h3 := h2.trans (takesListed_line 3 (R := R) (by rw [h2.pins, List.length_drop]; omega))
  rw [samplingPass_eq, runSteps_append, runSteps_append, runSteps_append]
  convert h3 using 2 with n
  · omega
  · rw [h0.pins, h1.pins, h2.pins]
    fin_cases n <;> simp [Nat.succ_mul]

/-- The listed answers of the reads of line `n` in `P` passes: the read with indices `(p, n, r)` takes answer number
`(p × LINES + n) × R + r`. -/
def listedReads (pins : List Byte) (P R : Nat) (n : LineIdx) : List Byte :=
  (List.range (P * R)).map (fun j => pins.getD ((j / R * 4 + n.val) * R + j % R) 0)

theorem listedReads_zero (pins : List Byte) (R : Nat) : listedReads pins 0 R = fun _ => [] := by
  funext n
  simp [listedReads]

/-- `R` consecutive elements, by their numbers and as a block. -/
theorem map_getD_range_eq_take {l : List Byte} {k R : Nat} (h : k + R ≤ l.length) :
    (List.range R).map (fun j => l.getD (k + j) 0) = (l.drop k).take R := by
  refine List.ext_getElem ?_ fun j hj _ => ?_
  · simp only [List.length_map, List.length_range, List.length_take, List.length_drop]
    omega
  · have hjR : j < R := by simpa using hj
    rw [List.getElem_map, List.getElem_range, List.getElem_take, List.getElem_drop]
    exact List.getD_eq_getElem _ _ (by omega)

/-- One more pass takes one more block of `R` answers for the line. -/
theorem listedReads_succ {pins : List Byte} {P R : Nat} (n : LineIdx) (h : (P + 1) * 4 * R ≤ pins.length) :
    listedReads pins (P + 1) R n =
      listedReads pins P R n ++ ((pins.drop (P * 4 * R)).drop (n.val * R)).take R := by
  have hblock : P * 4 * R + n.val * R + R ≤ pins.length :=
    calc P * 4 * R + n.val * R + R = (P * 4 + (n.val + 1)) * R := by ring
      _ ≤ (P + 1) * 4 * R := Nat.mul_le_mul_right R (by omega)
      _ ≤ pins.length := h
  rw [listedReads, listedReads, Nat.succ_mul, List.range_add, List.map_append, List.map_map, List.drop_drop,
    ← map_getD_range_eq_take hblock]
  refine congrArg _ (List.map_congr_left fun j hj => ?_)
  have hjR : j < R := List.mem_range.mp hj
  have hdiv : (P * R + j) / R = P := by
    rw [Nat.add_comm, Nat.add_mul_div_right _ _ (by omega), Nat.div_eq_of_lt hjR, Nat.zero_add]
  have hmod : (P * R + j) % R = j := by rw [Nat.mul_add_mod_self_right, Nat.mod_eq_of_lt hjR]
  rw [Function.comp_apply, hdiv, hmod, Nat.add_mul]

/-- All sampling passes together read each line as R131 numbers its reads. -/
theorem takesListed_passes {P R : Nat} {p : Pass} (h : P * 4 * R ≤ p.core.env.pins.length) :
    TakesListed p (runSteps (samplingSteps P R) p) (P * 4 * R) (listedReads p.core.env.pins P R) := by
  induction P with
  | zero => simpa [samplingSteps, listedReads_zero] using TakesListed.refl p
  | succ P ih =>
    have hlen : (P + 1) * 4 * R = P * 4 * R + 4 * R := by ring
    have hsplit : samplingSteps (P + 1) R = samplingSteps P R ++ samplingPass R := by
      simp [samplingSteps, List.replicate_succ', List.flatten_append]
    have hbefore := ih (by omega)
    rw [hsplit, runSteps_append]
    convert hbefore.trans (takesListed_pass (R := R) ?_) using 2 with n
    · rw [listedReads_succ n h, hbefore.pins]
    · rw [hbefore.pins, List.length_drop]
      omega

/-! ## The reduction of the reads (R134, R135) -/

theorem lane_majority (vs : List Byte) (i : LaneIdx) :
    lane (majority vs) i = true ↔ 2 * vs.countP (fun b => lane b i) > vs.length := by
  rw [majority, lane_ofLanes, decide_eq_true_iff]

theorem readsDisagree_iff (vs : List Byte) : readsDisagree vs = true ↔ ∃ a ∈ vs, ∃ b ∈ vs, a ≠ b := by
  simp [readsDisagree]

theorem getLsbD_stabilityOf (v : Quad (List Byte)) (n : LineIdx) :
    (stabilityOf v).getLsbD n.val = readsDisagree (v.get n) := by
  fin_cases n <;> simp [stabilityOf, BitVec.ofBoolListLE, Quad.get]

theorem stabilityOf_lt (v : Quad (List Byte)) : (stabilityOf v).toNat < 16 := by
  have h : (stabilityOf v).toNat >>> 4 % 2 ^ 4 = 0 := by
    rw [← BitVec.extractLsb'_toNat, stabilityOf_high]
    rfl
  omega

/-! ## One whole invocation (R130) -/

/-- With enough listed answers an invocation's reads are the listed ones of R131. -/
theorem reads_of_listed {s : State} (h : s.cfg.passes * 4 * s.cfg.reads ≤ s.env.pins.length) (n : LineIdx) :
    (runSteps (samplingSteps s.cfg.passes s.cfg.reads) (Pass.start s)).reads.get n =
      listedReads s.env.pins s.cfg.passes s.cfg.reads n := by
  rw [(takesListed_passes (p := Pass.start s) h).reads]
  simp [Pass.start]

/-- Settles O43: the reads are those of the sampling loops, and `matrixPass_spec` says what the invocation makes of
them; `PASSES` is at least 1 (CFG7), so line 3 is the last one driven. -/
theorem scanmPass : Obligations.ScanmPass := by
  intro s hm hk
  obtain ⟨v, pins, cnt, d, hlen, hd, hv, hpins, hpass⟩ := matrixPass_spec s
  rw [recordedIf_eq] at hpass
  obtain ⟨-, hpos, -⟩ := s.cfg.reads_odd hm
  have hline (n) : (debouncedLines s.cfg.toCfg v s.db).get n =
      engineCall s.cfg.toCfg (majority (v.get n)) (s.db.get n) := Quad.get_ofFn ..
  refine ⟨matrixPass s, v.get, exec_scanm_next.mpr ⟨hm, hk, rfl⟩, hlen, fun h => ⟨fun n => ?_, ?_⟩,
    fun n => ⟨majority (v.get n), ?_, fun i => ?_⟩, fun n => ?_, ?_, ?_, ?_⟩
  · rw [← hv, reads_of_listed h]
    rfl
  · rw [hpass, ← hpins]
    exact (takesListed_passes (p := Pass.start s) h).pins
  · rw [hpass]
    exact hline n
  · rw [lane_majority, hlen]
  · rw [hpass, ← readsDisagree_iff, ← getLsbD_stabilityOf]
    rfl
  · rw [hpass]
    exact stabilityOf_lt v
  · rw [hpass]
    exact ⟨rfl, rfl, rfl⟩
  · rw [hpass]
    exact ⟨hd hpos, rfl, rfl, rfl, rfl, rfl, rfl, rfl, rfl, rfl, rfl, rfl⟩

end Sys2Proof.Machine
end

section
/-! The row sampler (43_row_sampler.md R143 to R146): the elements that one tick writes, and the sample that the sampler
holds for a row, which no tick changes. Obligations O46 and O47. -/

namespace Sys2Proof.Machine

variable (s : State)

/-! ## One tick (`rowPass_spec`) -/

/-- The round robin has more rows than one. -/
theorem next_row_ne (r : LineIdx) : r + 1 ≠ r := add_ne_left.mpr one_ne_zero

@[simp] theorem rowPass_cfg : (rowPass s).cfg = s.cfg := by
  rw [rowPass_spec, recordedIf_eq]
  rfl

@[simp] theorem rowPass_db : (rowPass s).db =
    s.db.set s.curRow (engineCall s.cfg.toCfg s.lastSample (s.db.get s.curRow)) := by
  rw [rowPass_spec, recordedIf_eq]
  rfl

@[simp] theorem rowPass_curRow : (rowPass s).curRow = s.curRow + 1 := by
  rw [rowPass_spec, recordedIf_eq]
  rfl

@[simp] theorem rowPass_rowBuf : (rowPass s).rowBuf = s.rowBuf.set s.curRow s.lastSample := by
  rw [rowPass_spec, recordedIf_eq]
  rfl

/-- The restored sample is the one buffered before the tick: the window writes another entry of `row_buf` than it reads
(R143). -/
@[simp] theorem rowPass_lastSample : (rowPass s).lastSample = s.rowBuf.get (s.curRow + 1) := by
  rw [rowPass_spec, recordedIf_eq]
  exact Quad.get_set_ne _ _ (next_row_ne s.curRow)

/-- Settles O46: the window, the call and the recording are `rowPass_spec`; a recording is `recordedIf_eq`. -/
theorem rowtTick : Obligations.RowtTick := by
  intro s hs hk
  refine ⟨rowPass s, exec_rowt_next.mpr ⟨hs, hk, rfl⟩, rowPass_rowBuf s, ?_, ?_, ?_⟩
  · rw [rowPass_curRow]
    exact Fin.val_add ..
  · rw [rowPass_lastSample, rowPass_curRow]
  · have hline : ((rowPass s).db.get s.curRow).last =
        (engineCall s.cfg.toCfg s.lastSample (s.db.get s.curRow)).last := by
      rw [rowPass_db, Quad.get_set_self]
    rw [hline, rowPass_spec, recordedIf_eq]
    exact ⟨rfl, rfl, rfl, rfl, ⟨rfl, rfl, rfl⟩, rfl, rfl, rfl, rfl, rfl⟩

/-! ## Ticks in a row (R146) -/

/-- The sample that the sampler holds for row `n`: the one last observed for the watched row, the buffered one for every
other row (R32). -/
def heldSample (s : State) (n : LineIdx) : Byte :=
  if n = s.curRow then s.lastSample else s.rowBuf.get n

theorem heldSample_curRow : heldSample s s.curRow = s.lastSample := if_pos rfl

/-- A tick buffers the sample of the old row and restores that of the new one, so it changes none of the four. -/
theorem heldSample_rowPass (n : LineIdx) : heldSample (rowPass s) n = heldSample s n := by
  simp only [heldSample, rowPass_curRow, rowPass_lastSample, rowPass_rowBuf, Quad.get_set]
  by_cases hnew : n = s.curRow + 1
  · simp [hnew]
  · simp [hnew]

/-- What `k` ticks, at most one per row, have made of `s`: the `k` rows from the one that was watched have gone through
the engine, each with the sample held for it. -/
structure AfterTicks (s : State) (k : Nat) (t : State) : Prop where
  cfg : t.cfg = s.cfg
  curRow : t.curRow = s.curRow + Fin.ofNat 4 k
  held : ∀ n, heldSample t n = heldSample s n
  line : ∀ n, t.db.get n =
    if (n - s.curRow).val < k then engineCall s.cfg.toCfg (heldSample s n) (s.db.get n) else s.db.get n

variable {s} {t : State} {k : Nat}

theorem AfterTicks.zero : AfterTicks s 0 s where
  cfg := rfl
  curRow := (add_zero _).symm
  held _ := rfl
  line _ := rfl

/-- The watched row is the one `k` places after the first. -/
theorem AfterTicks.eq_curRow_iff (h : AfterTicks s k t) (hk : k < 4) (n : LineIdx) :
    n = t.curRow ↔ (n - s.curRow).val = k := by
  rw [h.curRow, ← sub_eq_iff_eq_add', Fin.ext_iff, Fin.val_ofNat, Nat.mod_eq_of_lt hk]

/-- Fewer than four ticks have not reached the row now watched. -/
theorem AfterTicks.line_curRow (h : AfterTicks s k t) (hk : k < 4) : t.db.get t.curRow = s.db.get t.curRow := by
  rw [h.line, (h.eq_curRow_iff hk _).mp rfl, if_neg (Nat.lt_irrefl k)]

/-- One more tick. -/
theorem AfterTicks.succ (h : AfterTicks s k t) (hk : k < 4) : AfterTicks s (k + 1) (rowPass t) where
  cfg := by rw [rowPass_cfg, h.cfg]
  curRow := by
    rw [rowPass_curRow, h.curRow, add_assoc]
    exact congrArg (s.curRow + ·) (Fin.ext (Nat.mod_add_mod k 4 1))
  held n := by rw [heldSample_rowPass, h.held]
  line n := by
    rw [rowPass_db, Quad.get_set]
    split
    next hn =>
      subst hn
      have hrow := (h.eq_curRow_iff hk t.curRow).mp rfl
      rw [h.line_curRow hk, ← heldSample_curRow t, h.held, h.cfg, if_pos (by omega)]
    next hn =>
      have hrow := mt (h.eq_curRow_iff hk n).mpr hn
      rw [h.line]
      exact if_congr (by omega) rfl rfl

/-- Every row's engine can be given its line, so up to four ticks complete. -/
theorem exists_execAll_rowt (hs : s.cfg.scanner = .rowirq) (hc : ∀ n, (s.db.get n).callable s.cfg.toCfg = true)
    (hk : k ≤ 4) : ∃ t, execAll (List.replicate k .rowt) s = .next t ∧ AfterTicks s k t := by
  induction k with
  | zero => exact ⟨s, rfl, .zero⟩
  | succ k ih =>
    obtain ⟨t, ht, h⟩ := ih (by omega)
    have hrow : (t.db.get t.curRow).callable t.cfg.toCfg = true := by
      rw [h.line_curRow hk, h.cfg]
      exact hc _
    have hlast : exec .rowt t = .next (rowPass t) := exec_rowt_next.mpr ⟨h.cfg ▸ hs, hrow, rfl⟩
    refine ⟨rowPass t, ?_, h.succ hk⟩
    rw [List.replicate_succ']
    exact execAll_append.mpr ⟨t, ht, execAll_cons.mpr ⟨_, hlast, rfl⟩⟩

/-- Settles O47: four ticks reach every row, and the sample held for the row watched again is its `last_sample`. -/
theorem roundOfFour : Obligations.RoundOfFour := by
  intro s hs hc
  obtain ⟨t, ht, h⟩ := exists_execAll_rowt hs hc le_rfl
  have hrow : t.curRow = s.curRow := h.curRow.trans (add_zero _)
  refine ⟨t, ht, hrow, ?_, fun n => ?_⟩
  · rw [← heldSample_curRow t, h.held, hrow, heldSample_curRow]
  · rw [h.line, if_pos (n - s.curRow).isLt]
    rfl

end Sys2Proof.Machine
end

section
/-! The scan scheduler (44_scheduler.md R151 to R156): what `TB`, `TICK` and `POLL` leave, and how `pending` goes up and
down. Obligations O13, O16, O17 and O18. -/

namespace Sys2Proof.Machine

variable {s t : State} {i : Instr}

/-! ## The timer and the interval (R151, R152, R155, R156) -/

theorem timebaseEvent_of_reached (h : s.timerCnt.toNat + 1 ≥ s.scanInterval.toNat) :
    timebaseEvent s = { s with timerCnt := 0, pending := true } :=
  if_pos h

theorem timebaseEvent_of_below (h : ¬ s.timerCnt.toNat + 1 ≥ s.scanInterval.toNat) :
    timebaseEvent s = { s with timerCnt := s.timerCnt + 1 } :=
  if_neg h

/-- Settles O13: the timer source is enabled, so each handler runs; `TB`'s has the two cases of R151. -/
theorem timerEvents : Obligations.TimerEvents := by
  intro s hg
  have hon : timerEnabled s = true := hg
  refine ⟨?_, fun hk => ?_, fun hk => ?_⟩
  · rw [exec_tick_next.mpr rfl, hon]
    rfl
  · rw [exec_tb_next.mpr rfl, hon, takeInterrupt_true, timebaseEvent_of_reached hk]
    rfl
  · have hsum : s.timerCnt + 1 = BitVec.ofNat 8 (s.timerCnt.toNat + 1) := by bv_omega
    rw [exec_tb_next.mpr rfl, hon, takeInterrupt_true, timebaseEvent_of_below (Nat.not_le.mpr hk), hsum]
    rfl

/-- Settles O18: both operations complete in every state, with the answer of their inversion lemma. -/
theorem getSetInterval : Obligations.GetSetInterval :=
  fun _ _ => ⟨exec_geti_next.mpr rfl, exec_seti_next.mpr rfl⟩

/-! ## `POLL` (R153) -/

@[simp] theorem matrixPass_pending (s : State) : (matrixPass s).pending = s.pending := by
  obtain ⟨v, d, b, r, e, h⟩ := matrixPass_frame s
  rw [h]

@[simp] theorem rowPass_pending (s : State) : (rowPass s).pending = s.pending := by
  obtain ⟨q, l, b, r, e, h⟩ := rowPass_frame s
  rw [h]

theorem exec_poll_of_idle (h : s.pending = false) : exec .poll s = .next (s.report (some 0x00) none) :=
  exec_poll_next.mpr (.inl ⟨h, rfl⟩)

theorem exec_poll_of_pending (h : s.pending = true) : exec .poll s = runPass { s with pending := false } :=
  if_pos h

theorem runPass_of_matrix (h : s.cfg.scanner = .matrix) : runPass s = exec .scanm s := by
  rw [runPass, h]
  exact (needMatrix_of_matrix h).symm

theorem needRowirq_of_rowirq (h : s.cfg.scanner = .rowirq) (k : Answer) : needRowirq s k = k := by
  rw [needRowirq, h]

theorem runPass_of_rowirq (h : s.cfg.scanner = .rowirq) : runPass s = exec .rowt s := by
  rw [runPass, h]
  exact (needRowirq_of_rowirq h _).symm

/-- Nothing but a key record out of bounds stops a `POLL` (U13). -/
theorem exists_exec_poll (hk : ∀ n, (s.db.get n).callable s.cfg.toCfg = true) : ∃ t, exec .poll s = .next t := by
  cases hp : s.pending with
  | false => exact ⟨_, exec_poll_of_idle hp⟩
  | true =>
    cases hs : s.cfg.scanner with
    | matrix => exact ⟨_, exec_poll_next.mpr (.inr (.inl ⟨hp, hs, hk, rfl⟩))⟩
    | rowirq => exact ⟨_, exec_poll_next.mpr (.inr (.inr ⟨hp, hs, hk _, rfl⟩))⟩

/-- A `POLL` leaves no tick pending: it found none, or cleared the flag before a pass, which does not write it. -/
theorem pending_of_exec_poll (h : exec .poll s = .next t) : t.pending = false := by
  rcases exec_poll_next.mp h with ⟨hp, rfl⟩ | ⟨-, -, -, rfl⟩ | ⟨-, -, -, rfl⟩
  · exact hp
  · exact matrixPass_pending _
  · exact rowPass_pending _

/-- Settles O16: the cases of `execPoll` and, in the build's own scanner operation, of `runPass`. -/
theorem pollRunsPass : Obligations.PollRunsPass := by
  refine fun s => ⟨exec_poll_of_idle, fun hp hs => ?_, fun hp hs => ?_, fun hk => ?_⟩
  · rw [exec_poll_of_pending hp]
    exact runPass_of_matrix hs
  · rw [exec_poll_of_pending hp]
    exact runPass_of_rowirq hs
  · obtain ⟨t, ht⟩ := exists_exec_poll hk
    exact ⟨t, ht, pending_of_exec_poll ht⟩

/-! ## No tick becomes pending unless one fires (R152, R153) -/

/-- Apart from `TB` and `TICK`, an operation writes `pending` only to clear it (R36). -/
theorem Effect.pending_stays_down (h : Effect s i t) (htb : i ≠ .tb) (htick : i ≠ .tick) (hp : s.pending = false) :
    t.pending = false := by
  cases h with
  | reset e => rfl
  | tb p k e hk => exact absurd rfl htb
  | tick p e => exact absurd rfl htick
  | matrix hi hs hk v d b r e =>
    rcases hi with ⟨-, rfl⟩ | ⟨-, rfl⟩
    · exact hp
    · rfl
  | row hi hs hk q l b r e =>
    rcases hi with ⟨-, rfl⟩ | ⟨-, rfl⟩
    · exact hp
    · rfl
  | _ => exact hp

/-- A `TB` that is masked or stays below the interval leaves `pending` (R151, R173). -/
theorem pending_of_silent_tb (hf : firesTick s .tb = false) (h : exec .tb s = .next t) : t.pending = s.pending := by
  rw [exec_tb_next.mp h]
  cases hg : timerEnabled s with
  | false => rfl
  | true =>
    have hk : ¬ s.timerCnt.toNat + 1 ≥ s.scanInterval.toNat := by simpa [firesTick, hg] using hf
    rw [takeInterrupt_true, timebaseEvent_of_below hk]
    rfl

/-- An operation that fires no tick leaves none pending where none was. -/
theorem exec_pending_stays_down (hf : firesTick s i = false) (h : exec i s = .next t) (hp : s.pending = false) :
    t.pending = false := by
  by_cases htb : i = .tb
  · subst htb
    exact (pending_of_silent_tb hf h).trans hp
  · refine (exec_effect h).pending_stays_down htb ?_ hp
    rintro rfl
    cases hf

/-- Operations in a row, none of which fires a tick, leave none pending where none was. -/
theorem execAll_pending_stays_down {is : List Instr} (hf : NoTickFires is s) (h : execAll is s = .next t)
    (hp : s.pending = false) : t.pending = false := by
  induction is generalizing s with
  | nil =>
    cases h
    exact hp
  | cons i is ih =>
    obtain ⟨hfirst, hrest⟩ := hf
    obtain ⟨u, hu, ht⟩ := execAll_cons.mp h
    exact ih (hrest u hu) ht (exec_pending_stays_down hfirst hu hp)

/-- Settles O17: the first `POLL` leaves no tick pending, and without a tick fired none becomes pending. -/
theorem atMostOnePassPerTick : Obligations.AtMostOnePassPerTick := fun _ _ _ _ hpoll hf hall =>
  exec_poll_of_idle (execAll_pending_stays_down hf hall (pending_of_exec_poll hpoll))

end Sys2Proof.Machine
end

section
/-! The state recorder (45_recorder.md R160 to R165): where the reshuffle and its inverse put each bit, and what `REC`
and `APPEND` append. Obligations O48 and O49. -/

namespace Sys2Proof.Machine

/-! ## The reshuffle, bit by bit (R163, R164) -/

/-- Four bytes are equal to four others when they agree in every lane. -/
theorem quad_byte_ext {a b : Quad Byte} (h : ∀ n i, lane (a.get n) i = lane (b.get n) i) : a = b :=
  Quad.ext_get fun n => byte_ext (h n)

section
variable {n m : LineIdx} {i j : LaneIdx}

/-- The reshuffle moves bit `i` of line `n` to bit `4 × (i mod 2) + n` of byte `i div 2`. -/
theorem lane_reshuffle (S : Quad Byte) (hm : m.val = i.val / 2) (hj : j.val = 4 * (i.val % 2) + n.val) :
    lane ((reshuffle S).get m) j = lane (S.get n) i := by
  rw [reshuffle, Quad.get_ofFn, lane_ofLanes]
  congr <;> omega

/-- The inverse reads bit `i` of line `n` where the reshuffle puts it. -/
theorem lane_unshuffle (S : Quad Byte) (hm : m.val = i.val / 2) (hj : j.val = 4 * (i.val % 2) + n.val) :
    lane ((unshuffle S).get n) i = lane (S.get m) j := by
  rw [unshuffle, Quad.get_ofFn, lane_ofLanes]
  congr <;> omega

end

/-- Every bit of every line has a place. -/
theorem exists_reshuffle_place (n : LineIdx) (i : LaneIdx) :
    ∃ (m : LineIdx) (j : LaneIdx), m.val = i.val / 2 ∧ j.val = 4 * (i.val % 2) + n.val :=
  ⟨⟨i.val / 2, by omega⟩, ⟨4 * (i.val % 2) + n.val, by omega⟩, rfl, rfl⟩

/-- Every place is taken: bit `j` of byte `m` comes from lane `2m + (j div 4)` of line `j mod 4`. -/
theorem exists_reshuffle_source (m : LineIdx) (j : LaneIdx) :
    ∃ (n : LineIdx) (i : LaneIdx), m.val = i.val / 2 ∧ j.val = 4 * (i.val % 2) + n.val :=
  ⟨⟨j.val % 4, by omega⟩, ⟨2 * m.val + j.val / 4, by omega⟩, by dsimp only; omega, by dsimp only; omega⟩

theorem unshuffle_reshuffle (S : Quad Byte) : unshuffle (reshuffle S) = S :=
  quad_byte_ext fun n i => by
    obtain ⟨m, j, hm, hj⟩ := exists_reshuffle_place n i
    rw [lane_unshuffle _ hm hj, lane_reshuffle _ hm hj]

theorem reshuffle_unshuffle (S : Quad Byte) : reshuffle (unshuffle S) = S :=
  quad_byte_ext fun m j => by
    obtain ⟨n, i, hm, hj⟩ := exists_reshuffle_source m j
    rw [lane_reshuffle _ hm hj, lane_unshuffle _ hm hj]

/-- Settles O49: each map puts a bit where the other reads it. -/
theorem reshuffleRoundTrip : Obligations.ReshuffleRoundTrip :=
  fun S => ⟨unshuffle_reshuffle S, reshuffle_unshuffle S⟩

/-! ## What is appended (R160, R161) -/

variable {s : State}

theorem stableStates_get (s : State) (n : LineIdx) : (stableStates s).get n = (s.db.get n).state :=
  Quad.get_ofFn _ n

theorem snapshot_of_plain (h : s.cfg.reshuffle = false) : snapshot s = stableStates s := by
  simp [snapshot, h]

theorem snapshot_of_reshuffle (h : s.cfg.reshuffle = true) : snapshot s = reshuffle (stableStates s) :=
  if_pos h

/-- The burst writes the history and the interrupt enable, and nothing else. -/
theorem recordBurst_eq (s : State) :
    recordBurst s = { s with ringOut := s.ringOut ++ (snapshot s).toList, gie := true } := by
  rw [← recordBurst_ringOut]
  rfl

/-- Settles O48: `REC` appends the snapshot, which is the stable states themselves or, bit by bit, their reshuffle. -/
theorem recordAppends : Obligations.RecordAppends := by
  refine fun s b => ⟨⟨snapshot s, ?_, fun h n => ?_, fun h n m i j hm hj => ?_⟩, exec_append_next.mpr rfl⟩
  · exact exec_record_next.mpr (congrArg State.quiet (recordBurst_eq s).symm)
  · rw [snapshot_of_plain h, stableStates_get]
  · rw [snapshot_of_reshuffle h, lane_reshuffle _ hm hj, stableStates_get]

end Sys2Proof.Machine
end

section
/-! Exceptions and interrupts (60_exceptions.md R170, R173 to R176): every operation of the build completes between
steps, and `TICK` and `EDGE` may be taken in either order. Obligations O54 and O20. -/

namespace Sys2Proof.Machine

variable {s : State}

/-! ## What completes (R170) -/

/-- Between steps every line can be given to the build's engine (R28). -/
theorem callable_of_fsmInv (h : FsmInv s) (n : LineIdx) : (s.db.get n).callable s.cfg.toCfg = true :=
  (callable_iff ..).mpr fun he => (h he).1 n

/-- Settles O54: the operation is well-formed and of the build, and where it debounces a line, that line is callable. -/
theorem nothingFails : Obligations.NothingFails := by
  intro s i hinv hw hb
  have hk := callable_of_fsmInv hinv
  cases i with
  | reset => exact ⟨_, exec_reset_next.mpr rfl⟩
  | tb => exact ⟨_, exec_tb_next.mpr rfl⟩
  | tick => exact ⟨_, exec_tick_next.mpr rfl⟩
  | poll => exact exists_exec_poll hk
  | geti => exact ⟨_, exec_geti_next.mpr rfl⟩
  | seti v => exact ⟨_, exec_seti_next.mpr rfl⟩
  | dbc n x => exact ⟨_, exec_dbc_next.mpr ⟨eq_of_beq hb, of_decide_eq_true hw, rfl⟩⟩
  | dbf n x =>
    have he : s.cfg.engine = .fsm := eq_of_beq hb
    exact ⟨_, exec_dbf_next.mpr ⟨he, of_decide_eq_true hw, (callable_iff ..).mp (hk _) he, rfl⟩⟩
  | scanm => exact ⟨_, exec_scanm_next.mpr ⟨eq_of_beq hb, hk, rfl⟩⟩
  | drive n => exact ⟨_, exec_drive_next.mpr ⟨eq_of_beq hb, of_decide_eq_true hw, rfl⟩⟩
  | read => exact ⟨_, exec_read_next.mpr ⟨eq_of_beq hb, rfl⟩⟩
  | rowt => exact ⟨_, exec_rowt_next.mpr ⟨eq_of_beq hb, hk _, rfl⟩⟩
  | edge v => exact ⟨_, exec_edge_next.mpr ⟨eq_of_beq hb, rfl⟩⟩
  | record => exact ⟨_, exec_record_next.mpr rfl⟩
  | append b => exact ⟨_, exec_append_next.mpr rfl⟩

/-! ## Two interrupts in either order (R176) -/

section
variable (s : State) (a : Bool) (v : Byte)

/-- The two handlers write apart from each other, whichever of them are masked. -/
theorem takeInterrupt_setPending_edgeHandler_comm (b : Bool) :
    (takeInterrupt b (edgeHandler v) (takeInterrupt a setPending s).quiet).quiet =
      (takeInterrupt a setPending (takeInterrupt b (edgeHandler v) s).quiet).quiet := by
  cases a with
  | false => cases b <;> rfl
  | true => cases b <;> rfl

/-- `TICK` writes no enable bit. -/
theorem edgeEnabled_after_setPending : edgeEnabled (takeInterrupt a setPending s).quiet = edgeEnabled s := by
  obtain ⟨p, h⟩ := takeInterrupt_setPending a s
  rw [h]
  rfl

/-- `EDGE` writes no enable bit. -/
theorem timerEnabled_after_edgeHandler :
    timerEnabled (takeInterrupt a (edgeHandler v) s).quiet = timerEnabled s := by
  obtain ⟨l, f, h⟩ := takeInterrupt_edgeHandler a v s
  rw [h]
  rfl

end

theorem exec_edge_of_matrix (h : s.cfg.scanner = .matrix) (v : Byte) : exec (.edge v) s = .refused .notInBuild :=
  needRowirq_of_matrix h

/-- Once the first of two operations completes, the second gives the answer. -/
theorem execAll_pair_of_next {i : Instr} {u : State} (h : exec i s = .next u) (j : Instr) :
    execAll [i, j] s = exec j u := by
  simp only [execAll, h, andThen_next]
  cases exec j u <;> rfl

/-- A refusal ends the sequence. -/
theorem execAll_cons_of_refused {i : Instr} {r : Refusal} (h : exec i s = .refused r) (is : List Instr) :
    execAll (i :: is) s = .refused r := by
  rw [execAll, h]
  rfl

/-- Settles O20: a matrix build refuses the `EDGE` in either place; in a row build both handlers run or are masked, and
each leaves the other's enable and variables as they are. -/
theorem tickEdgeEitherOrder : Obligations.TickEdgeEitherOrder := by
  intro s v
  have htick := exec_tick_next.mpr (Eq.refl (takeInterrupt (timerEnabled s) setPending s).quiet)
  have hcfg := (exec_effect htick).cfg_eq
  rw [execAll_pair_of_next htick]
  cases hs : s.cfg.scanner with
  | matrix =>
    rw [execAll_cons_of_refused (exec_edge_of_matrix hs v), exec_edge_of_matrix (hcfg ▸ hs)]
  | rowirq =>
    have hedge := exec_edge_next.mpr ⟨hs, Eq.refl (takeInterrupt (edgeEnabled s) (edgeHandler v) s).quiet⟩
    rw [execAll_pair_of_next hedge, exec_edge_next.mpr ⟨hcfg ▸ hs, rfl⟩, exec_tick_next.mpr rfl,
      edgeEnabled_after_setPending, timerEnabled_after_edgeHandler]
    exact congrArg _ (takeInterrupt_setPending_edgeHandler_comm s _ v _)

end Sys2Proof.Machine
end

section
/-! The scan scheduler over several events (44_scheduler.md R151, R152, 70_reset_and_hazards.md
R195): `TB`s in a row up to the tick, and `TICK`s in a row. Obligations O14 and O15. -/

namespace Sys2Proof.Machine

variable {s : State}

/-! ## Ticks in a row (R152) -/

theorem exec_tick_of_enabled (hg : s.gie = true) : exec .tick s = .next ({ s with pending := true }.quiet) :=
  (timerEvents s hg).1

/-- Settles O14: a tick taken while one is pending leaves the flag as it is. -/
theorem ticksAbsorbed : Obligations.TicksAbsorbed := by
  intro s k hg
  induction k generalizing s with
  | zero => exact execAll_cons.mpr ⟨_, exec_tick_of_enabled hg, rfl⟩
  | succ k ih => exact execAll_cons.mpr ⟨_, exec_tick_of_enabled hg, ih _ hg⟩

/-! ## Timebase events in a row (R151) -/

/-- From `s` to `t` the timer has counted `k` events on; its enable, its interval and the flag are as before. -/
structure CountedOn (s t : State) (k : Nat) : Prop where
  gie : t.gie = s.gie
  pending : t.pending = s.pending
  interval : t.scanInterval = s.scanInterval
  count : t.timerCnt.toNat = s.timerCnt.toNat + k

theorem CountedOn.refl (s : State) : CountedOn s s 0 :=
  ⟨rfl, rfl, rfl, rfl⟩

theorem CountedOn.trans {t u : State} {j k : Nat} (h₁ : CountedOn s t j) (h₂ : CountedOn t u k) :
    CountedOn s u (j + k) where
  gie := h₂.gie.trans h₁.gie
  pending := h₂.pending.trans h₁.pending
  interval := h₂.interval.trans h₁.interval
  count := by rw [h₂.count, h₁.count, Nat.add_assoc]

/-- A `TB` that does not reach the interval counts on. -/
theorem exists_exec_tb_below (hg : s.gie = true) (h : s.timerCnt.toNat + 1 < s.scanInterval.toNat) :
    ∃ t, exec .tb s = .next t ∧ CountedOn s t 1 :=
  ⟨_, (timerEvents s hg).2.2 h, rfl, rfl, rfl, Nat.mod_eq_of_lt (h.trans s.scanInterval.isLt)⟩

/-- A `TB` that reaches the interval makes a tick pending and restarts the count. -/
theorem exists_exec_tb_reached (hg : s.gie = true) (h : s.timerCnt.toNat + 1 ≥ s.scanInterval.toNat) :
    ∃ t, exec .tb s = .next t ∧ t.pending = true ∧ t.timerCnt = 0 :=
  ⟨_, (timerEvents s hg).2.1 h, rfl, rfl⟩

/-- `TB`s that stay below the interval only count; an interval of 0 acts as 1 (D25). -/
theorem exists_execAll_tb_below {k : Nat} (hg : s.gie = true)
    (hk : s.timerCnt.toNat + k < max s.scanInterval.toNat 1) :
    ∃ t, execAll (List.replicate k .tb) s = .next t ∧ CountedOn s t k := by
  induction k with
  | zero => exact ⟨s, rfl, .refl s⟩
  | succ k ih =>
    obtain ⟨u, hu, hbefore⟩ := ih (by omega)
    obtain ⟨t, ht, hlast⟩ := exists_exec_tb_below (hbefore.gie.trans hg)
      (by rw [hbefore.count, hbefore.interval]; omega)
    rw [List.replicate_succ']
    exact ⟨t, execAll_append.mpr ⟨u, hu, execAll_cons.mpr ⟨t, ht, rfl⟩⟩, hbefore.trans hlast⟩

/-- Settles O15: all `TB`s but the last only count, and the last finds the count one short of the interval. -/
theorem fireCount : Obligations.FireCount := by
  intro s k hg hcnt
  refine ⟨fun hk => ?_, fun hk => ?_⟩
  · obtain ⟨t, ht, hcounted⟩ := exists_execAll_tb_below (k := k) hg (by omega)
    exact ⟨t, ht, hcounted.pending, hcounted.count⟩
  · obtain ⟨j, rfl⟩ : ∃ j, k = j + 1 := ⟨k - 1, by omega⟩
    obtain ⟨u, hu, hcounted⟩ := exists_execAll_tb_below (k := j) hg (by omega)
    obtain ⟨t, ht, hfired⟩ := exists_exec_tb_reached (hcounted.gie.trans hg)
      (by rw [hcounted.count, hcounted.interval]; omega)
    rw [List.replicate_succ']
    exact ⟨t, execAll_append.mpr ⟨u, hu, execAll_cons.mpr ⟨t, ht, rfl⟩⟩, hfired⟩

end Sys2Proof.Machine
end

section
/-! The numbering of the reads of a matrix-scanner invocation (42_matrix_scanner.md R131) and the vote over them (R134).
Obligations O42 and O44. -/

namespace Sys2Proof.Machine

/-- Sampling writes the driven line and the environment, and nothing else of the core. -/
theorem Sampled.core_eq {p q : Pass} {k : LineIdx → Nat} (h : Sampled p q k) :
    q.core = { p.core with driveSel := q.core.driveSel, env := q.core.env } := by
  obtain ⟨d, pins, cnt, v, rfl, -⟩ := h
  rfl

/-- Settles O42: `takesListed_passes` says which answers each line takes; of the core the loops write the driven line
and the listed answers only. -/
theorem samplingOrder : Obligations.SamplingOrder := by
  intro s P R hP hlen
  obtain ⟨henv, hreads⟩ := takesListed_passes (p := Pass.start s) hlen
  refine ⟨fun n => ?_, ?_⟩
  · rw [hreads n, Pass.start, Quad.get_ofFn]
    rfl
  · have hcore := (sampled_passes P R (Pass.start s)).core_eq
    rw [driveSel_samplingSteps P R hP, henv] at hcore
    exact hcore

/-- A read has a lane at 1 or at 0. -/
theorem countP_lane_add_countP_not_lane (vs : List Byte) (i : LaneIdx) :
    vs.countP (fun b => lane b i) + vs.countP (fun b => !lane b i) = vs.length := by
  simpa using (List.length_eq_countP_add_countP (l := vs) (fun b => lane b i)).symm

/-- Settles O44: of an odd number of reads (CFG7), one of the two values of the lane has more than half. -/
theorem majorityNeverTies : Obligations.MajorityNeverTies := by
  intro c vs i hm hlen
  obtain ⟨-, -, hodd⟩ := c.reads_odd hm
  rw [Nat.mul_comm, ← hlen] at hodd
  have hsum := countP_lane_add_countP_not_lane vs i
  rw [← Bool.not_eq_true, lane_majority]
  omega

end Sys2Proof.Machine
end

section
/-! Requests that are delivered and requests that are masked (43_row_sampler.md R141, 60_exceptions.md R173 to R175).
Obligations O19 and O45. -/

namespace Sys2Proof.Machine

theorem edgeEnabled_eq_false_iff (s : State) : edgeEnabled s = false ↔ s.edgeEn = false ∨ s.gie = false :=
  Bool.and_eq_false_iff

/-- Settles O19: the source of a masked request is not enabled, so its handler does not run. -/
theorem maskedRequests : Obligations.MaskedRequests := by
  refine fun s v => ⟨fun hg => ?_, fun hs hmask => ?_⟩
  · have hoff : timerEnabled s = false := hg
    rw [exec_tb_next.mpr rfl, exec_tick_next.mpr rfl, hoff]
    exact ⟨rfl, rfl⟩
  · rw [exec_edge_next.mpr ⟨hs, rfl⟩, (edgeEnabled_eq_false_iff s).mpr hmask]
    rfl

theorem nextChangeFlag_eq (f : Bool) (l v : Byte) : nextChangeFlag f l v = (f || decide (v ≠ l)) := by
  rw [nextChangeFlag, Bool.eq_iff_iff]
  simp

/-- Settles O45: with both enables up the handler runs. -/
theorem edgeEffect : Obligations.EdgeEffect := by
  intro s v hs he hg
  have hon : edgeEnabled s = true := by rw [edgeEnabled, he, hg, Bool.and_self]
  rw [exec_edge_next.mpr ⟨hs, rfl⟩, hon, takeInterrupt_true, edgeHandler, nextChangeFlag_eq]
  rfl

end Sys2Proof.Machine
end

section
/-! Key records outside their bounds (93_implementation_defined.md U13): the operations that would advance one are
refused. Obligation O40. -/

namespace Sys2Proof.Machine

section
variable {s : State} {n : LineIdx} (h : ¬ (s.db.get n).callable s.cfg.toCfg = true) (k : Answer)
include h

theorem needCallable_of_not_callable : needCallable s n k = .refused .keyOutOfRange :=
  if_neg h

theorem needAllCallable_of_not_callable : needAllCallable s k = .refused .keyOutOfRange :=
  if_neg fun hall => h ((Quad.toList_all ..).mp hall n)

end

/-- Settles O40: the line of the key is not callable, and each of the operations asks for it before it acts. -/
theorem keyBoundsRefused : Obligations.KeyBoundsRefused := by
  intro s n i x he hkey
  have hline : ¬ (s.db.get n).callable s.cfg.toCfg = true := fun h =>
    Bool.false_ne_true (hkey.symm.trans ((callable_iff ..).mp h he i))
  refine ⟨?_, fun hs => ?_, fun hs hrow => ?_⟩
  · exact (needFsm_of_fsm he).trans ((withLine_of_lt n.isLt _).trans (needCallable_of_not_callable hline _))
  · exact (needMatrix_of_matrix hs).trans (needAllCallable_of_not_callable hline _)
  · exact (needRowirq_of_rowirq hs _).trans (needCallable_of_not_callable (hrow ▸ hline) _)

end Sys2Proof.Machine
end

section
/-! Which operation a step runs (20_memory.md R61, 30_encoding.md R81): the first of the trace, or, with an empty trace,
the one that a free agent starts. Obligations O7 and O8. -/

namespace Sys2Proof.Machine

variable {s : State}

theorem fetch_of_decode {i : Instr} {rest : List Byte} (h : decode s.env.trace = .ok (i, rest)) :
    fetch s = .perform i (withTrace rest s) := by
  cases ht : s.env.trace with
  | nil =>
    rw [ht] at h
    cases h
  | cons b bs =>
    rw [ht] at h
    simp only [fetch, ht, h]

/-- Settles O7: the operation that the fetch takes is the one that decodes. -/
theorem stepRunsOperation : Obligations.StepRunsOperation := by
  intro s i rest h
  rw [step, fetch_of_decode h]
  rfl

/-- The agent EDGE is part of a row-sampler build only (R7). -/
theorem exists_edge_iff (c : Cfg) (v : Byte) : AgentStep.exists? c (.edge v) = true ↔ c.scanner = .rowirq := by
  cases h : c.scanner with
  | rowirq => simp [AgentStep.exists?, h]
  | matrix => simp [AgentStep.exists?, h]

theorem fetch_of_empty (h : s.env.trace = []) : fetch s = agentNext s := by
  rw [fetch, h]

section
variable {a : AgentStep} (ht : s.env.trace = []) (ha : Config.agentStep s.env.agentCount = a)
include ht ha

/-- An agent of the build starts its operation. -/
theorem step_of_agent (he : AgentStep.exists? s.cfg.toCfg a = true) :
    step s = exec (AgentStep.instr a) (chooseAgent s) := by
  subst ha
  rw [step, fetch_of_empty ht, agentNext, if_pos he]

/-- An agent that the build lacks does nothing (log 21). -/
theorem step_of_absent_agent (he : ¬ AgentStep.exists? s.cfg.toCfg a = true) :
    step s = .next (chooseAgent s) := by
  subst ha
  rw [step, fetch_of_empty ht, agentNext, if_neg he]

end

/-- Settles O8: every build has the agents chosen but that of `EDGE`, which a matrix build lacks (R7). -/
theorem emptyTraceFreeStep : Obligations.EmptyTraceFreeStep := by
  intro s ht s'
  cases ha : Config.agentStep s.env.agentCount with
  | edge v =>
    cases hs : s.cfg.scanner with
    | rowirq => exact step_of_agent ht ha ((exists_edge_iff ..).mpr hs)
    | matrix => exact step_of_absent_agent ht ha fun h => nomatch hs.symm.trans ((exists_edge_iff ..).mp h)
  | _ => exact step_of_agent ht ha rfl

end Sys2Proof.Machine
end

section
/-! The counter width of a build (00_scope.md R9), what `RESET` leaves (70_reset_and_hazards.md R190, 10_state.md R39),
and the time from there to the first tick (R191). Obligations O10, O11 and O12. -/

namespace Sys2Proof.Machine

/-- Settles O10: `N` is the bit length of the longer delay. -/
theorem planesLeastWidth : Obligations.PlanesLeastWidth :=
  fun _ _ => (bitlen_le_iff ..).trans max_lt_iff

/-- CFG8: the interval after reset is the configured one, not cut to 8 bits. -/
theorem initial_scanInterval_toNat (c : ValidCfg) (e : Env) :
    (State.initial c e).scanInterval.toNat = c.intervalReset :=
  Nat.mod_eq_of_lt c.interval_fits

/-- Settles O11: every line is a reset line, and the other elements hold their reset values. -/
theorem resetValues : Obligations.ResetValues := by
  intro s
  refine ⟨(resetAll s).quiet, exec_reset_next.mpr rfl, fun n => ?_, rfl, rfl, initial_scanInterval_toNat s.cfg s.env,
    rfl, rfl, fun r => Quad.get_ofFn .., rfl, rfl, rfl, rfl, rfl, rfl, rfl, rfl⟩
  have hline : (resetAll s).quiet.db.get n = Line.initial s.cfg.toCfg := initial_line s.cfg s.env n
  rw [hline]
  exact ⟨rfl, rfl, rfl, rfl, rfl, fun i => Octet.get_ofFn ..⟩

/-- Settles O12: no tick is pending after `RESET`, and without a tick fired none becomes pending. -/
theorem pollBeforeTick : Obligations.PollBeforeTick := by
  intro s t h
  obtain rfl := exec_reset_next.mp h
  exact ⟨rfl, rfl, rfl, fun _ _ hf hall => exec_poll_of_idle (execAll_pending_stays_down hf hall rfl)⟩

end Sys2Proof.Machine
end
